-- ==== Sys2Proof/Config.lean ====
section
/-! DEFINITION. The configuration of R8. `Params` holds the parameters the spec leaves OPEN, which the model takes as an
argument (D5, D6, D7; R39): it is the field `params` of the state that every step is given and none changes (log 8). The
other widths of the table are constants here, and the types are made of them (Word.lean). Last, the free values of the
pad (R10, R38). -/

namespace Sys2Proof

namespace Config

/-- `DUR_W` (R8, D4): width of `T_A..T_F` and `ARG`. -/
abbrev durW : Nat := 32

/-- `HOST_DW` (R8, D2): host data width for registers. -/
abbrev hostDW : Nat := 32

/-- `HOST_AW` (R8, D2): host byte-address width, 0x000..0x1FF; a larger `BUF` makes it grow (R61, `Params.hostAW`). -/
def hostAW : Nat := 9

/-- First host address of the `BUF` window (R61). -/
def bufWindow : Nat := 0x100

/-- The bits `ERRINFO` has for `PINERR`, from its bit 16 up (R30): the widest pin error code it can report. -/
abbrev pinErrRoom : Nat := 16

/-- `BUF_SIZE` (R8, D5): the default. -/
def bufSize : Nat := 256

/-- `PIN_ERR_W` (R8, D6): the default. -/
def pinErrW : Fin (pinErrRoom + 1) := 8

/-- `PRESET_A` (R8, R124): the default. PRESUMED (unsafe): the spec marks the number as general knowledge (log 9). -/
def presetA : BitVec durW := 6000#durW
/-- `PRESET_B` (R8, R124): the default. PRESUMED (unsafe), log 9. -/
def presetB : BitVec durW := 64000#durW
/-- `PRESET_C` (R8, R124): the default. PRESUMED (unsafe), log 9. -/
def presetC : BitVec durW := 60000#durW
/-- `PRESET_D` (R8, R124): the default. PRESUMED (unsafe), log 9. -/
def presetD : BitVec durW := 10000#durW
/-- `PRESET_E` (R8, R124): the default. PRESUMED (unsafe), log 9. -/
def presetE : BitVec durW := 9000#durW
/-- `PRESET_F` (R8, R124): the default. PRESUMED (unsafe), log 9. -/
def presetF : BitVec durW := 55000#durW

/-- Free value: port `pin_fail` (R38) at the `n`-th pin micro-operation that no script answers. R10: the decision
is "a free input of the step (an oracle draw), under no law of this spec" (log 6, safe). -/
opaque pinFail : Nat → Bool

/-- Free value: port `pin_err` (R38) at the `n`-th pin micro-operation that no script answers, of which the port carries
the low `PIN_ERR_W` bits (log 6, safe). -/
opaque pinErr : Nat → BitVec pinErrRoom

/-- Free value: port `pad_in` (R38), the line level (R37) at the `n`-th pin micro-operation that no script answers
(log 6, safe). -/
opaque padIn : Nat → Bool

end Config

namespace Machine

/-- The open parameters of the block (R8, R39): those of the rows of 92_eei_decisions.md marked OPEN. -/
structure Params where
  /-- `BUF_SIZE` (D5): bytes in `BUF`. -/
  bufSize : Nat
  /-- `PIN_ERR_W` (D6): width of a pin error code, any that `ERRINFO` has room for (R30; log 8). -/
  pinErrW : Fin (Config.pinErrRoom + 1)
  /-- `PRESET_A` (D7, R124: "configuration constants of the model"). -/
  presetA : BitVec Config.durW
  /-- `PRESET_B` (D7, R124). -/
  presetB : BitVec Config.durW
  /-- `PRESET_C` (D7, R124). -/
  presetC : BitVec Config.durW
  /-- `PRESET_D` (D7, R124). -/
  presetD : BitVec Config.durW
  /-- `PRESET_E` (D7, R124). -/
  presetE : BitVec Config.durW
  /-- `PRESET_F` (D7, R124). -/
  presetF : BitVec Config.durW
deriving DecidableEq, Repr

/-- "The value column is the default this spec uses in every worked example" (R8). -/
def Params.default : Params where
  bufSize := Config.bufSize
  pinErrW := Config.pinErrW
  presetA := Config.presetA
  presetB := Config.presetB
  presetC := Config.presetC
  presetD := Config.presetD
  presetE := Config.presetE
  presetF := Config.presetF

end Machine

end Sys2Proof
end

