-- ==== Sys2Proof/Word.lean ====
section
/-! DEFINITION. The word types of the block (R8, R9): all values are unsigned bit vectors, their widths those of Config. -/

namespace Sys2Proof

/-- A host register, a command word (R27, R80): `HOST_DW` bits (R8, D2). -/
abbrev Word := BitVec Config.hostDW

/-- A duration in nanoseconds (R21, R31, R43): `DUR_W` bits (R8, D4). -/
abbrev Dur := BitVec Config.durW

/-- A byte is 8 bits (R9). -/
abbrev Byte := BitVec 8

/-- A pin error code (R181, D6): opaque bits, as many as `ERRINFO` has room for. Of a code the port carries the low
`PIN_ERR_W` bits (`Params.pinErrW`, a parameter of the block; log 8). -/
abbrev PinErr := BitVec Config.pinErrRoom

/-- The byte address of a host access. Of an address the port carries the low `HOST_AW` bits (R38; `Params.hostAW`,
which depends on the parameter `BUF_SIZE`; log 15). -/
abbrev HostAddr := Nat

end Sys2Proof
end

