-- ==== Sys2Proof/Syntax.lean ====
section
/-! DEFINITION. The 17 commands of the opcode map (R82), one constructor per row of spec/opcode_table.json. -/

namespace Sys2Proof

/-- A command with its operand (R82, R83). Format N has none, format B one bit, format I one byte. Every value of
this type is a well-formed command: the operand types are the widths R81 gives. -/
inductive Instr where
  /-- `CRC.CALC`, opc 0x10, format N (R106). -/
  | crcCalc
  /-- `CRC.APPEND seed`, opc 0x11, format I (R107). -/
  | crcAppend (seed : Byte)
  /-- `CRC.CHECK`, opc 0x12, format N (R108). -/
  | crcCheck
  /-- `T.PRESET`, opc 0x20, format N (R123). -/
  | tPreset
  /-- `INIT`, opc 0x30, format N (R132). -/
  | init
  /-- `DROP`, opc 0x31, format N (R133). -/
  | drop
  /-- `SET.HIGH`, opc 0x32, format N (R134). -/
  | setHigh
  /-- `SET.LOW`, opc 0x33, format N (R135). -/
  | setLow
  /-- `IS.HIGH`, opc 0x34, format N (R136). -/
  | isHigh
  /-- `IS.LOW`, opc 0x35, format N (R137). -/
  | isLow
  /-- `DELAY`, opc 0x36, format N (R138). -/
  | delay
  /-- `RD.BIT`, opc 0x40, format N (R151). -/
  | rdBit
  /-- `WR.BIT b`, opc 0x41, format B (R152). -/
  | wrBit (b : Bool)
  /-- `RD.BYTE`, opc 0x50, format N (R161). -/
  | rdByte
  /-- `WR.BYTE x`, opc 0x51, format I (R162). -/
  | wrByte (x : Byte)
  /-- `RD.BYTES`, opc 0x52, format N (R163). -/
  | rdBytes
  /-- `WR.BYTES`, opc 0x53, format N (R164). -/
  | wrBytes
deriving DecidableEq, Repr

end Sys2Proof
end

