-- ==== Sys2Proof/WellFormed.lean ====
section
/-! DEFINITION. Assembler lines (R88, R89) and the checks that make one well formed.

A value of `Instr` is well formed by its types (Syntax.lean). What can be ill formed is a LINE: a mnemonic with an
operand that its format does not take, or out of the operand's range. -/

namespace Sys2Proof

/-- The mnemonics of R82 and the four aliases of R89. -/
inductive Mnemonic where
  | crcCalc | crcAppend | crcCheck | tPreset | init | drop | setHigh | setLow | isHigh | isLow | delay
  | rdBit | wrBit | rdByte | wrByte | rdBytes | wrBytes
  /-- `RELEASE`, alias of `SET.HIGH` (R89). -/
  | release
  /-- `PULL.LOW`, alias of `SET.LOW` (R89). -/
  | pullLow
  /-- `WR1`, alias of `WR.BIT 1` (R89). -/
  | wr1
  /-- `WR0`, alias of `WR.BIT 0` (R89). -/
  | wr0
deriving DecidableEq, Repr

/-- One assembler line (R88): a mnemonic and the operand written after it, if any. -/
structure SourceLine where
  mnemonic : Mnemonic
  operand : Option Nat
deriving DecidableEq, Repr

/-- What a mnemonic's line takes as operand (R81, R88): nothing, one bit, or one byte. -/
inductive OperandKind where
  | none
  | bit
  | byte
deriving DecidableEq, Repr

def Mnemonic.operandKind : Mnemonic → OperandKind
  | .wrBit => .bit
  | .crcAppend | .wrByte => .byte
  | .crcCalc | .crcCheck | .tPreset | .init | .drop | .setHigh | .setLow | .isHigh | .isLow | .delay
  | .rdBit | .rdByte | .rdBytes | .wrBytes | .release | .pullLow | .wr1 | .wr0 => .none

/-- R88: no operand for format N (and for an alias); `0` or `1` for format B; 0..255 for format I. -/
def SourceLine.wf (l : SourceLine) : Bool :=
  match l.mnemonic.operandKind, l.operand with
  | .none, .none => true
  | .bit, some n => n < 2
  | .byte, some n => n < 256
  | _, _ => false

/-- The command of a mnemonic with its operand value (R88, R89); the operand is ignored where none is taken. -/
def Mnemonic.command (m : Mnemonic) (n : Nat) : Instr :=
  match m with
  | .crcCalc => .crcCalc
  | .crcAppend => .crcAppend (BitVec.ofNat 8 n)
  | .crcCheck => .crcCheck
  | .tPreset => .tPreset
  | .init => .init
  | .drop => .drop
  | .setHigh | .release => .setHigh
  | .setLow | .pullLow => .setLow
  | .isHigh => .isHigh
  | .isLow => .isLow
  | .delay => .delay
  | .rdBit => .rdBit
  | .wrBit => .wrBit (n == 1)
  | .wr1 => .wrBit true
  | .wr0 => .wrBit false
  | .rdByte => .rdByte
  | .wrByte => .wrByte (BitVec.ofNat 8 n)
  | .rdBytes => .rdBytes
  | .wrBytes => .wrBytes

/-- Assembling a line: the command of a well-formed line, nothing for an ill-formed one. -/
def SourceLine.assemble (l : SourceLine) : Option Instr :=
  if l.wf then some (l.mnemonic.command (l.operand.getD 0)) else none

end Sys2Proof
end

