-- ==== Sys2Proof/Decode.lean ====
section
/-! DEFINITION. Decoding a command word (R80 to R85), total and rejecting by name, and the encoder. -/

namespace Sys2Proof

/-- Why a word is no command (R85): the two verdicts besides the 17 instructions. -/
inductive DecodeError where
  /-- `opc` is not in the opcode map. -/
  | illegalOpcode
  /-- A reserved bit of the word is not 0. -/
  | reservedField
deriving DecidableEq, Repr

/-- The formats of R81. -/
inductive Format where
  | n
  | b
  | i
deriving DecidableEq, Repr

/-- `opc`, bits 7:0 of the command word (R80). -/
def opcField (w : Word) : Byte := w.extractLsb' 0 8
/-- `imm8`, bits 15:8 (R80). -/
def immField (w : Word) : Byte := w.extractLsb' 8 8
/-- `rsv`, bits 31:16 (R80). -/
def rsvField (w : Word) : BitVec 16 := w.extractLsb' 16 16

/-- The opcode map (R82), with the operand read from `imm8` (R83). -/
def opcodeRow (opc imm : Byte) : Option Instr :=
  match opc with
  | 0x10#8 => some .crcCalc
  | 0x11#8 => some (.crcAppend imm)
  | 0x12#8 => some .crcCheck
  | 0x20#8 => some .tPreset
  | 0x30#8 => some .init
  | 0x31#8 => some .drop
  | 0x32#8 => some .setHigh
  | 0x33#8 => some .setLow
  | 0x34#8 => some .isHigh
  | 0x35#8 => some .isLow
  | 0x36#8 => some .delay
  | 0x40#8 => some .rdBit
  | 0x41#8 => some (.wrBit (imm.getLsbD 0))
  | 0x50#8 => some .rdByte
  | 0x51#8 => some (.wrByte imm)
  | 0x52#8 => some .rdBytes
  | 0x53#8 => some .wrBytes
  | _ => none

/-- The format of a command (R82). -/
def Instr.format : Instr → Format
  | .crcAppend _ | .wrByte _ => .i
  | .wrBit _ => .b
  | .crcCalc | .crcCheck | .tPreset | .init | .drop | .setHigh | .setLow | .isHigh | .isLow | .delay
  | .rdBit | .rdByte | .rdBytes | .wrBytes => .n

/-- Which values of `imm8` a format admits (R81). -/
def Format.admits : Format → Byte → Bool
  | .n, imm => imm == 0#8
  | .b, imm => imm.extractLsb' 1 7 == 0#7
  | .i, _ => true

/-- Decoding (R85, R86 checks 2 and 3): first the opcode, then the reserved fields. -/
def decode (w : Word) : Except DecodeError Instr :=
  match opcodeRow (opcField w) (immField w) with
  | none => .error .illegalOpcode
  | some i => if rsvField w == 0#16 && i.format.admits (immField w) then .ok i else .error .reservedField

/-- The opcode of a command (R82). -/
def Instr.opc : Instr → Byte
  | .crcCalc => 0x10#8
  | .crcAppend _ => 0x11#8
  | .crcCheck => 0x12#8
  | .tPreset => 0x20#8
  | .init => 0x30#8
  | .drop => 0x31#8
  | .setHigh => 0x32#8
  | .setLow => 0x33#8
  | .isHigh => 0x34#8
  | .isLow => 0x35#8
  | .delay => 0x36#8
  | .rdBit => 0x40#8
  | .wrBit _ => 0x41#8
  | .rdByte => 0x50#8
  | .wrByte _ => 0x51#8
  | .rdBytes => 0x52#8
  | .wrBytes => 0x53#8

/-- The immediate of a command (R81, R83). -/
def Instr.imm8 : Instr → Byte
  | .crcAppend seed => seed
  | .wrByte x => x
  | .wrBit b => if b then 1#8 else 0#8
  | .crcCalc | .crcCheck | .tPreset | .init | .drop | .setHigh | .setLow | .isHigh | .isLow | .delay
  | .rdBit | .rdByte | .rdBytes | .wrBytes => 0#8

/-- The word of a command (R80, R88: `opc | (imm8 << 8)`). -/
def encode (i : Instr) : Word := i.opc.setWidth 32 ||| (i.imm8.setWidth 32 <<< 8)

/-- R81: `mask` of the command's row of the opcode table. -/
def Format.mask : Format → Word
  | .n => 0xFFFFFFFF#32
  | .b => 0xFFFFFEFF#32
  | .i => 0xFFFF00FF#32

/-- R81: `match` of the command's row: its opcode, all other bits 0. -/
def Instr.rowMatch (i : Instr) : Word := i.opc.setWidth 32

/-- R88: the word of an assembler line. -/
def SourceLine.word (l : SourceLine) : Option Word := l.assemble.map encode

/-- The command word whose bits the host's table numbers as `w`, `nbits` of them given and the rest 0: the block's
one form is 32 bits (R80), and bit 0 of the table is bit 0 of `CMD`. -/
def tableWord (nbits w : Nat) : Word := BitVec.ofNat 32 (w % 2 ^ nbits)

/-- The decoder's verdict on a word of spec/opcode_table.json. -/
def decodeTableWord (nbits w : Nat) : Option Instr :=
  match decode (tableWord nbits w) with
  | .ok i => some i
  | .error _ => none

end Sys2Proof
end

