-- ==== Sys2Proof/Machine/State.lean ====
section
/-! DEFINITION. The state of the block as plain data (R20), the inputs it reads, the ghosts claims are stated over,
the reasons a step can stop, and the state after reset (R40). -/

namespace Sys2Proof.Machine

/-- The six durations of the TimingConfiguration (R21), in nanoseconds. -/
structure Timing where
  /-- `T_A`: low pulse of a read slot and of a write-1 slot. -/
  a : Dur
  /-- `T_B`: recovery of a write-1 slot. -/
  b : Dur
  /-- `T_C`: low pulse of a write-0 slot. -/
  c : Dur
  /-- `T_D`: recovery of a write-0 slot. -/
  d : Dur
  /-- `T_E`: release-to-sample delay of a read slot. -/
  e : Dur
  /-- `T_F`: recovery of a read slot. -/
  f : Dur
deriving DecidableEq, Repr

/-- The preset (R123, R124): loaded by reset, `INIT` and `T.PRESET` (R125). -/
def Params.preset (p : Params) : Timing := ⟨p.presetA, p.presetB, p.presetC, p.presetD, p.presetE, p.presetF⟩

/-- The closed set of protocol errors (R183). -/
inductive ProtocolError where
  /-- `PCODE` 1; never raised by the block (R184). -/
  | busNotHigh
  /-- `PCODE` 2; never raised by the block (R184). -/
  | noAttachedDevices
  /-- `PCODE` 3; never raised by the block (R184). -/
  | timeout
  /-- `PCODE` 4, the computed non-zero checksum (R185); raised by `CRC.CHECK`. -/
  | crc (c : Byte)
  /-- `PCODE` 5; never raised by the block (R184). -/
  | familyCode (observed : Byte)
  /-- `PCODE` 6; never raised by the block (R184). -/
  | configurationRegister (observed : Byte)
deriving DecidableEq, Repr

/-- What `ERRINFO` holds (R30, R181): no error, or the two cases of the composite error. -/
inductive ErrorValue where
  | success
  | pin (e : PinErr)
  | protocol (p : ProtocolError)
deriving DecidableEq, Repr

/-- The causes of a refusal, `HCAUSE` 1 to 7 (R189). -/
inductive RefusalCause where
  | busyWrite
  | illegalOpcode
  | reservedField
  | notInit
  | alreadyInit
  | bufRange
  | badAccess
deriving DecidableEq, Repr

/-- The pad's answer to one pin micro-operation (R10, R38): `ok level` is `pin_fail` = 0 with `pad_in` = `level`
(which only `PinQuery` looks at), `err e` is `pin_fail` = 1 with `pin_err` = `e`. -/
inductive PinAnswer where
  | ok (level : Bool)
  | err (e : PinErr)
deriving DecidableEq, Repr

/-- The events of the trace (R11). -/
inductive Event where
  | low
  | rel
  | sample (v : Bool)
  | wait (n : Dur)
  | lowFail (e : PinErr)
  | relFail (e : PinErr)
  | sampleFail (e : PinErr)
  | dropped
deriving DecidableEq, Repr

/-- The sizes of a host access (R38: "byte/word size"; a 16-bit access exists only to be refused, R64; log 15). -/
inductive AccessSize where
  | byte
  | half
  | word
deriving DecidableEq, Repr

/-- One action of the host, or the host standing aside for one engine step (R18, R69, R90, R210; log 1). -/
inductive HostAction where
  /-- A bus read (`LD`, `LDB`). -/
  | read (size : AccessSize) (addr : HostAddr)
  /-- A bus write (`ST`, `STB`); a word written to offset 0 issues a command. -/
  | write (size : AccessSize) (addr : HostAddr) (data : Word)
  /-- A command line (R90), the write to `CMD` and the run of an accepted command in one step (log 2); the `poll` that
  the line goes on with is then next. -/
  | call (w : Word)
  /-- The second half of a command line (R90): `LD STATUS` repeated until `BUSY` = 0; one read a step (log 22). -/
  | poll
  /-- No access: the engine, if it is busy, does its next micro-operation (log 1). -/
  | pass
  /-- `rst` asserted and released (R210; log 18), between two micro-operations, never inside a `Wait(n)`: DESIGN CHOICE
  (R211 leaves open what an interrupted wait leaves; log 24, unsafe). -/
  | reset
deriving DecidableEq, Repr

/-- The transient state that exists while a command runs (R20(f), R34, R35, R36, R43, R71). -/
structure Engine where
  /-- The latched command: opcode and immediate (R34, R80). -/
  cmd : Instr
  /-- The latched `ARG` (R71). -/
  arg : Dur
  /-- The latched `BUF_ADDR` (R71). -/
  bufAddr : Word
  /-- The latched `BUF_LEN` (R71). -/
  bufLen : Word
  /-- Index of the current byte (R34); the number of bytes when all are done. -/
  byteIdx : Nat
  /-- Index of the current bit in the byte (R34). -/
  bitIdx : Nat
  /-- Index of the next micro-operation in the slot (R34). -/
  step : Nat
  /-- The shift register (R35; it also holds the sample of the one-bit commands, log 11). -/
  sh : Byte
  /-- The CRC working register (R36). -/
  crc : Byte
  /-- The delay counter (R43): the nanoseconds of the wait that is next, 0 where the next is no wait (log 10). -/
  delay : Dur
deriving DecidableEq, Repr

/-- The buffer memory (R42): the bytes written since reset, by index, in rising order. An index that is not listed
has no value: reading it faults (U6; log 4, safe). -/
abbrev Memory := List Host.Cell

/-- The whole state. -/
structure State where
  /-- MODEL's own: the parameters of the block (R8, R39), an argument of every step that no step changes (log 8). -/
  params : Params
  /-- `T_A..T_F` (R21). -/
  timing : Timing
  /-- `STATUS.INIT` (R24). -/
  init : Bool
  /-- `STATUS.DRVLOW` (R25), the port `pad_pull_low` (R38). -/
  drvlow : Bool
  /-- `STATUS.ERR` (R28). -/
  err : Bool
  /-- `STATUS.HOSTERR` (R28, R189). -/
  hosterr : Bool
  /-- `STATUS.HCAUSE` (R28, R189); `none` is code 0. -/
  hcause : Option RefusalCause
  /-- `RESULT` bits 7:0 (R29); bits 31:8 read 0. -/
  result : Byte
  /-- `ERRINFO` (R30). -/
  errinfo : ErrorValue
  /-- `ARG` (R31). -/
  arg : Dur
  /-- `BUF_ADDR` (R32). -/
  bufAddr : Word
  /-- `BUF_LEN` (R32). -/
  bufLen : Word
  /-- `XFER_CNT` (R33). -/
  xferCnt : Word
  /-- `BUF` (R42). -/
  buf : Memory
  /-- The transient state; `none` is idle, and `STATUS.BUSY` is `engine.isSome` (R28, R34; log 19). -/
  engine : Option Engine
  /-- MODEL's own: the host's pending actions, oldest first (log 1). -/
  host : List HostAction
  /-- MODEL's own: the data the last host read returned (R38, R64; log 7). -/
  hostData : Word
  /-- MODEL's own: the pad's scripted answers, next first (R196; log 6). -/
  padScript : List PinAnswer
  /-- MODEL's own: pin micro-operations asked so far, the counter of the free answers (log 6). -/
  padOps : Nat
  /-- Ghost: the trace, oldest first (R11). -/
  trace : List Event
  /-- Ghost: model time in nanoseconds (R12). -/
  now : Nat
deriving DecidableEq, Repr

/-- Why a step stops with a fault. -/
inductive Fault where
  /-- A read of `BUF[i]` that nothing has written since reset (U6: `fault` is the treatment the spec prefers).
  Raised by a host byte read, `WR.BYTES` and the CRC commands. Safe: the hardware goes on with some value (log 4). -/
  | unwrittenBuf (i : Nat)
deriving DecidableEq, Repr

/-- Why a step has no meaning. No step of this model answers it: the spec's own refusals (R14) are next states. -/
inductive Refusal where
  /-- An instruction whose meaning is not written yet; raised by no arm of exec. Safe. -/
  | notModelled (mnemonic : String)
deriving DecidableEq, Repr

/-- The three outcomes of a step of this machine. -/
abbrev Out := Host.Outcome State Fault Refusal

/-- The state after reset (R40, R210) of a block with the parameters `p` (R39). The model's own fields are at the values
log 7 names; the trace is `[DROPPED]` and `now` is 0 at power-on (log 18). -/
def State.resetFor (p : Params) : State where
  params := p
  timing := p.preset
  init := false
  drvlow := false
  err := false
  hosterr := false
  hcause := none
  result := 0#8
  errinfo := .success
  arg := 0#Config.durW
  bufAddr := 0#32
  bufLen := 0#32
  xferCnt := 0#32
  buf := []
  engine := none
  host := []
  hostData := 0#32
  padScript := []
  padOps := 0
  trace := [.dropped]
  now := 0

/-- The state after reset with the parameters at the defaults of R8. -/
def State.reset : State := State.resetFor Params.default

end Sys2Proof.Machine
end

