-- ==== Sys2Proof/Machine/Ops.lean ====
section
/-! DEFINITION. The named operations the meanings share: buffer memory, the pad's answers, the four micro-operations
(R10), the completion of a command (R186, the analogue of taking an exception), refusals (R14, R189), reset (R210). -/

namespace Sys2Proof.Machine

/-! ### Buffer memory (R42, R62) -/

/-- `MemRead(i, 1)` (R62): the byte at index `i`, none where nothing was written since reset (U6; log 4). -/
def Memory.read : Memory → Nat → Option Byte
  | [], _ => none
  | (j, v) :: m, i => if j = i then some v else Memory.read m i

/-- `MemWrite(i, 1, v)` (R62), keeping the indices rising. -/
def Memory.write : Memory → Nat → Byte → Memory
  | [], i, v => [(i, v)]
  | (j, u) :: m, i, v =>
    if i < j then (i, v) :: (j, u) :: m
    else if j = i then (i, v) :: m
    else (j, u) :: Memory.write m i v

/-- The canonical form: indices strictly rising. An unlisted index has no value, so no entry equals it. -/
abbrev Memory.wf (m : Memory) : Prop := m.Pairwise fun x y => x.1 < y.1

def State.readBuf (s : State) (i : Nat) : Option Byte := s.buf.read i

def State.writeBuf (s : State) (i : Nat) (v : Byte) : State := { s with buf := s.buf.write i v }

/-! ### STATUS.BUSY -/

/-- `STATUS.BUSY` (R28): 1 exactly while the transient state exists (R34). -/
def State.busy (s : State) : Bool := s.engine.isSome

/-! ### The pad's answers (R10, R38) -/

/-- The free answer to the `n`-th pin micro-operation (log 6). -/
def freeAnswer (n : Nat) : PinAnswer :=
  if Config.pinFail n then .err (Config.pinErr n) else .ok (Config.padIn n)

/-- The `PIN_ERR_W` low bits of a pin error code (R181, D6): all that a code has. -/
def Params.pinCode (p : Params) (e : PinErr) : PinErr := (e.setWidth p.pinErrW.val).setWidth Config.pinErrRoom

/-- What the ports carry of an answer (R38): `pin_err` is `PIN_ERR_W` bits, so the code `e` has no other bit. -/
def PinAnswer.atPort (p : Params) : PinAnswer → PinAnswer
  | .ok v => .ok v
  | .err e => .err (p.pinCode e)

/-- The answer the pad gives to the `k`-th pin micro-operation from now: scripted while the script lasts, then free. -/
def State.answerAt (s : State) (k : Nat) : PinAnswer :=
  ((s.padScript[k]?).getD (freeAnswer (s.padOps + k))).atPort s.params

/-- The environment after `k` answers. -/
def State.useAnswers (s : State) (k : Nat) : State :=
  { s with padScript := s.padScript.drop k, padOps := s.padOps + k }

/-- An event is appended to the trace (R11). -/
def State.emit (s : State) (ev : Event) : State := { s with trace := s.trace ++ [ev] }

/-! ### Micro-operations (R10) -/

/-- The outcome of a fallible piece of a command: it went on with a value, or a micro-operation raised `Pin(e)`
(R13); both carry the state reached. -/
inductive PinResult (α : Type) where
  | ok (v : α) (s : State)
  | raised (e : PinErr) (s : State)

/-- `try` (R13): go on after success, and pass the same error on at once. -/
def PinResult.andThen {α β : Type} (r : PinResult α) (k : α → State → PinResult β) : PinResult β :=
  match r with
  | .ok v s => k v s
  | .raised e s => .raised e s

/-- `PinLow()` (R10). -/
def pinLow (s : State) : PinResult Unit :=
  match s.answerAt 0 with
  | .ok _ => .ok () (({ s with drvlow := true }.useAnswers 1).emit .low)
  | .err e => .raised e ((s.useAnswers 1).emit (.lowFail e))

/-- `PinRelease()` (R10): release, never drive high (R131). -/
def pinRelease (s : State) : PinResult Unit :=
  match s.answerAt 0 with
  | .ok _ => .ok () (({ s with drvlow := false }.useAnswers 1).emit .rel)
  | .err e => .raised e ((s.useAnswers 1).emit (.relFail e))

/-- `PinQuery()` (R10): the sample is whatever the environment answers (R37). -/
def pinQuery (s : State) : PinResult Bool :=
  match s.answerAt 0 with
  | .ok v => .ok v ((s.useAnswers 1).emit (.sample v))
  | .err e => .raised e ((s.useAnswers 1).emit (.sampleFail e))

/-- `Wait(n)` (R10, R12): never fails, advances `now` by exactly `n` (log 14, log 17). -/
def wait (n : Dur) (s : State) : State := { s.emit (.wait n) with now := s.now + n.toNat }

/-! ### Completion (R186) -/

/-- Does the command that left this error value count as failed? `STATUS.ERR` = 1 iff `KIND` ≠ 0 (R30). -/
def ErrorValue.isError : ErrorValue → Bool
  | .success => false
  | .pin _ | .protocol _ => true

/-- The one atomic completion step (R186, R68), for success and for error: error value `v`, value `r`, count `k`;
`BUSY <- 0` and the sequencer goes idle (R34). Nothing else is saved or changed. -/
def complete (v : ErrorValue) (r : Byte) (k : Word) (s : State) : State :=
  { s with result := r, xferCnt := k, errinfo := v, err := v.isError, engine := none }

/-- Success with value `r` and count `k` (R186). -/
def completeOk (r : Byte) (k : Word) (s : State) : State := complete .success r k s

/-- `raise Pin(e)` with count `k` (R13, R186): `RESULT` 0, `e` forwarded unchanged (R182). -/
def raisePin (e : PinErr) (k : Word) (s : State) : State := complete (.pin e) 0#8 k s

/-- `raise Protocol(Crc, c)` with count `k` (R186, R108). -/
def raiseCrc (c : Byte) (k : Word) (s : State) : State := complete (.protocol (.crc c)) c k s

/-- A command that ends after `r`: by `k` if nothing raised, by the error completion with count 0 otherwise. -/
def PinResult.finish {α : Type} (r : PinResult α) (k : α → State → State) : State :=
  match r with
  | .ok v s => k v s
  | .raised e s => raisePin e 0#32 s

/-! ### Refusals (R14, R189) -/

/-- `Refuse(cause)`: `HOSTERR <- 1`, the first cause is kept; nothing else changes. -/
def refuse (c : RefusalCause) (s : State) : State :=
  { s with hosterr := true, hcause := some (s.hcause.getD c) }

/-! ### Driver lifecycle and preset -/

/-- `T_A..T_F <- PRESET_A..PRESET_F` (R123, R125). -/
def loadPreset (s : State) : State := { s with timing := s.params.preset }

/-- What a successful `INIT` does after its release (R132). -/
def construct (s : State) : State := { loadPreset s with init := true }

/-- What `DROP` does (R133): forced release, no pin operation (D29; log 17). -/
def destroy (s : State) : State := { s with drvlow := false, init := false }.emit .dropped

/-- `rst` asserted and released (R210, R211): every register at its reset value (R40), a running command abandoned,
`BUF` without values again (log 5); the trace receives `DROPPED` and `now` keeps counting (R40). The host's pending
actions, the data it last read and the environment are outside the block and stay (log 18);
its parameters are fixed (R39). It takes place between two micro-operations: that a wait is never cut short, so that no part
of its time and no event of an interrupted `Wait(n)` is in the state it leaves, is the model's choice, DESIGN CHOICE
(log 24, unsafe); R211 leaves open what such a wait adds to the trace and to `now`. -/
def resetBlock (s : State) : State :=
  { State.resetFor s.params with
    host := s.host, hostData := s.hostData, padScript := s.padScript, padOps := s.padOps,
    trace := s.trace ++ [.dropped], now := s.now }

/-! ### Bits -/

/-- One bit as a byte: `zext_8(v)` (R29, R136). -/
def bitByte (v : Bool) : Byte := if v then 1#8 else 0#8

/-- `sh | (v << i)` (R15, R161). -/
def placeBit (sh : Byte) (v : Bool) (i : Nat) : Byte := sh ||| (bitByte v <<< i)

end Sys2Proof.Machine
end

