-- ==== Sys2Proof/Machine/Operands.lean ====
section
/-! DEFINITION. Operands and requirements of the commands (R84), their acceptance (R86), the buffer operand (R66). -/

namespace Sys2Proof.Machine

/-- What a command requires of the driver (R84). -/
inductive DriverNeed where
  | any
  | present
  | absent
deriving DecidableEq, Repr

/-- The "needs INIT" column of R84. -/
def driverNeed : Instr → DriverNeed
  | .crcCalc | .crcAppend _ | .crcCheck | .tPreset => .any
  | .init => .absent
  | .drop | .setHigh | .setLow | .isHigh | .isLow | .delay | .rdBit | .wrBit _ | .rdByte | .wrByte _
  | .rdBytes | .wrBytes => .present

/-- The commands whose operand is the buffer range (R32, R86 check 5). -/
def usesBuffer : Instr → Bool
  | .crcCalc | .crcAppend _ | .crcCheck | .rdBytes | .wrBytes => true
  | .tPreset | .init | .drop | .setHigh | .setLow | .isHigh | .isLow | .delay | .rdBit | .wrBit _
  | .rdByte | .wrByte _ => false

/-- The range test of R86 check 5, in unbounded naturals. -/
def State.bufFits (s : State) : Bool := s.bufAddr.toNat + s.bufLen.toNat ≤ s.params.bufSize

/-- Check 4 of R86. -/
def driverRefusal (i : Instr) (s : State) : Option RefusalCause :=
  match driverNeed i, s.init with
  | .absent, true => some .alreadyInit
  | .present, false => some .notInit
  | _, _ => none

/-- Checks 1, 4 and 5 of R86 on a decoded command, in that order; checks 2 and 3 are the decoder's. -/
def acceptance (i : Instr) (s : State) : Option RefusalCause :=
  if s.busy then some .busyWrite
  else match driverRefusal i s with
    | some c => some c
    | none => if usesBuffer i && !s.bufFits then some .bufRange else none

/-- R86: a command that passes the checks runs `body`; another is refused and nothing starts. -/
def accepted (i : Instr) (s : State) (body : State → Out) : Out :=
  match acceptance i s with
  | some c => .next (refuse c s)
  | none => body s

/-- The bytes `BUF[a], .., BUF[a+n-1]` in increasing order (R66), each read once; the first one never written
faults (U6; log 4). -/
def readRange (m : Memory) : (a n : Nat) → Except Fault (List Byte)
  | _, 0 => .ok []
  | a, n + 1 =>
    match m.read a with
    | none => .error (.unwrittenBuf a)
    | some v =>
      match readRange m (a + 1) n with
      | .ok vs => .ok (v :: vs)
      | .error f => .error f

/-- The buffer operand `BUF[BUF_ADDR .. BUF_ADDR+BUF_LEN-1]` (R32) given to `k`. -/
def withBuffer (s : State) (k : List Byte → State) : Out :=
  match readRange s.buf s.bufAddr.toNat s.bufLen.toNat with
  | .ok data => .next (k data)
  | .error f => .fault f

end Sys2Proof.Machine
end

