-- ==== Sys2Proof/Machine/Slots.lean ====
section
/-! DEFINITION. Bit slots (R150): `RD.BIT` (R151), `WR.BIT` (R152). -/

namespace Sys2Proof.Machine

/-- `ReadSlot()` (R151). -/
def readSlot (s : State) : PinResult Bool :=
  (pinLow s).andThen fun _ s =>
  (pinRelease (wait s.timing.a s)).andThen fun _ s =>
  (pinQuery (wait s.timing.e s)).andThen fun v s =>
  .ok v (wait s.timing.f s)

/-- The low pulse of a write slot (R152): `T_A` for a 1, `T_C` for a 0. -/
def Timing.writeLow (t : Timing) (b : Bool) : Dur := if b then t.a else t.c

/-- The recovery of a write slot (R152): `T_B` after a 1, `T_D` after a 0. -/
def Timing.writeRecovery (t : Timing) (b : Bool) : Dur := if b then t.b else t.d

/-- `WriteSlot(b)` (R152). -/
def writeSlot (b : Bool) (s : State) : PinResult Unit :=
  (pinLow s).andThen fun _ s =>
  (pinRelease (wait (s.timing.writeLow b) s)).andThen fun _ s =>
  .ok () (wait (s.timing.writeRecovery b) s)

/-- `RD.BIT` (R151). -/
def execRdBit (s : State) : Out :=
  accepted .rdBit s fun s => .next ((readSlot s).finish fun v s => completeOk (bitByte v) 0#32 s)

/-- `WR.BIT b` (R152). -/
def execWrBit (b : Bool) (s : State) : Out :=
  accepted (.wrBit b) s fun s => .next ((writeSlot b s).finish fun _ s => completeOk 0#8 0#32 s)

end Sys2Proof.Machine
end

