-- ==== Sys2Proof/Machine/Bytes.lean ====
section
/-! DEFINITION. Byte transfers: `RD.BYTE` (R161), `WR.BYTE` (R162), `RD.BYTES` (R163), `WR.BYTES` (R164). -/

namespace Sys2Proof.Machine

/-- The loop of `ReadByte()` (R161): `left` more slots, the next bit is bit `i`, `sh` collected so far. -/
def readBits : (left i : Nat) → Byte → State → PinResult Byte
  | 0, _, sh, s => .ok sh s
  | left + 1, i, sh, s => (readSlot s).andThen fun v s => readBits left (i + 1) (placeBit sh v i) s

/-- `ReadByte()` (R161). -/
def readByte (s : State) : PinResult Byte := readBits 8 0 0#8 s

/-- The loop of `WriteByte(x)` (R162): `left` more slots, the next is bit `i`. -/
def writeBits (x : Byte) : (left i : Nat) → State → PinResult Unit
  | 0, _, s => .ok () s
  | left + 1, i, s => (writeSlot (x.getLsbD i) s).andThen fun _ s => writeBits x left (i + 1) s

/-- `WriteByte(x)` (R162). -/
def writeByte (x : Byte) (s : State) : PinResult Unit := writeBits x 8 0 s

/-- `RD.BYTE` (R161). -/
def execRdByte (s : State) : Out :=
  accepted .rdByte s fun s => .next ((readByte s).finish fun x s => completeOk x 1#32 s)

/-- `WR.BYTE x` (R162). -/
def execWrByte (x : Byte) (s : State) : Out :=
  accepted (.wrByte x) s fun s => .next ((writeByte x s).finish fun _ s => completeOk 0#8 1#32 s)

/-- The loop of `RD.BYTES` (R163) from byte `j`, `left` more bytes, buffer base `a`. -/
def readBytes (a : Nat) : (left j : Nat) → State → State
  | 0, j, s => completeOk 0#8 (BitVec.ofNat 32 j) s
  | left + 1, j, s =>
    match readByte s with
    | .ok x s => readBytes a left (j + 1) (s.writeBuf (a + j) x)
    | .raised e s => raisePin e (BitVec.ofNat 32 j) s

/-- The loop of `WR.BYTES` (R164) from byte `j`, `left` more bytes, buffer base `a`. -/
def writeBytes (a : Nat) : (left j : Nat) → State → Out
  | 0, j, s => .next (completeOk 0#8 (BitVec.ofNat 32 j) s)
  | left + 1, j, s =>
    match s.readBuf (a + j) with
    | none => .fault (.unwrittenBuf (a + j))
    | some x =>
      match writeByte x s with
      | .ok _ s => writeBytes a left (j + 1) s
      | .raised e s => .next (raisePin e (BitVec.ofNat 32 j) s)

/-- `RD.BYTES` (R163). -/
def execRdBytes (s : State) : Out :=
  accepted .rdBytes s fun s => .next (readBytes s.bufAddr.toNat s.bufLen.toNat 0 s)

/-- `WR.BYTES` (R164). -/
def execWrBytes (s : State) : Out :=
  accepted .wrBytes s fun s => writeBytes s.bufAddr.toNat s.bufLen.toNat 0 s

end Sys2Proof.Machine
end

