-- ==== Sys2Proof/Machine/Crc.lean ====
section
/-! DEFINITION. The CRC-8 unit (R100 to R105) and its commands `CRC.CALC`, `CRC.APPEND`, `CRC.CHECK` (R106 to R108). -/

namespace Sys2Proof.Machine

/-- One single-bit right shift with the feedback constant 0x8C (R101, R102). -/
def crcShift (r : Byte) : Byte :=
  if r.getLsbD 0 then (r >>> 1) ^^^ 0x8C#8 else r >>> 1

/-- `n` single-bit right shifts. -/
def crcShifts : Nat → Byte → Byte
  | 0, r => r
  | n + 1, r => crcShifts n (crcShift r)

/-- `crc8_byte(c, b)` (R102). -/
def crcByte (c b : Byte) : Byte := crcShifts 8 (c ^^^ b)

/-- `crc8_append(seed, data)` (R103): the left fold in increasing index order. -/
def crcAppend (seed : Byte) (data : List Byte) : Byte := data.foldl crcByte seed

/-- `crc8_calculate(data)` (R104). -/
def crcCalculate (data : List Byte) : Byte := crcAppend 0#8 data

/-- How `CRC.CHECK` completes on the computed checksum `c` (R105, R108): 0 succeeds, another value is raised. -/
def crcVerdict (c : Byte) (k : Word) (s : State) : State :=
  if c = 0#8 then completeOk 0#8 k s else raiseCrc c k s

/-- `CRC.CALC` (R106). -/
def execCrcCalc (s : State) : Out :=
  accepted .crcCalc s fun s => withBuffer s fun data => completeOk (crcCalculate data) s.bufLen s

/-- `CRC.APPEND seed` (R107). -/
def execCrcAppend (seed : Byte) (s : State) : Out :=
  accepted (.crcAppend seed) s fun s => withBuffer s fun data => completeOk (crcAppend seed data) s.bufLen s

/-- `CRC.CHECK` (R108). -/
def execCrcCheck (s : State) : Out :=
  accepted .crcCheck s fun s => withBuffer s fun data => crcVerdict (crcCalculate data) s.bufLen s

end Sys2Proof.Machine
end

