-- ==== Sys2Proof/Machine/Driver.lean ====
section
/-! DEFINITION. Driver construction and primitives (R132 to R138): one micro-operation each (R139). -/

namespace Sys2Proof.Machine

/-- `INIT` (R132). -/
def execInit (s : State) : Out :=
  accepted .init s fun s => .next ((pinRelease s).finish fun _ s => completeOk 0#8 0#32 (construct s))

/-- `DROP` (R133). -/
def execDrop (s : State) : Out :=
  accepted .drop s fun s => .next (completeOk 0#8 0#32 (destroy s))

/-- `SET.HIGH` (R134). -/
def execSetHigh (s : State) : Out :=
  accepted .setHigh s fun s => .next ((pinRelease s).finish fun _ s => completeOk 0#8 0#32 s)

/-- `SET.LOW` (R135). -/
def execSetLow (s : State) : Out :=
  accepted .setLow s fun s => .next ((pinLow s).finish fun _ s => completeOk 0#8 0#32 s)

/-- `IS.HIGH` (R136). -/
def execIsHigh (s : State) : Out :=
  accepted .isHigh s fun s => .next ((pinQuery s).finish fun v s => completeOk (bitByte v) 0#32 s)

/-- `IS.LOW` (R137): the complement of the same sample (D11; log 16). -/
def execIsLow (s : State) : Out :=
  accepted .isLow s fun s => .next ((pinQuery s).finish fun v s => completeOk (bitByte (!v)) 0#32 s)

/-- `DELAY` (R138). -/
def execDelay (s : State) : Out :=
  accepted .delay s fun s => .next (completeOk 0#8 0#32 (wait s.arg s))

end Sys2Proof.Machine
end

