-- ==== Sys2Proof/Machine/Preset.lean ====
section
/-! DEFINITION. `T.PRESET` (R123). Reads and writes of `T_A..T_F` are host accesses (HostPort.lean, R121, R122). -/

namespace Sys2Proof.Machine

/-- `T.PRESET` (R123). -/
def execTPreset (s : State) : Out :=
  accepted .tPreset s fun s => .next (completeOk 0#8 0#32 (loadPreset s))

end Sys2Proof.Machine
end

