-- ==== Sys2Proof/Machine/Dispatch.lean ====
section
/-! DEFINITION. exec: one arm per command. -/

namespace Sys2Proof.Machine

def exec (i : Instr) (s : State) : Host.Outcome State Fault Refusal :=
  match i with
  | .crcCalc => Sys2Proof.Machine.execCrcCalc s
  | .crcAppend seed => Sys2Proof.Machine.execCrcAppend seed s
  | .crcCheck => Sys2Proof.Machine.execCrcCheck s
  | .tPreset => Sys2Proof.Machine.execTPreset s
  | .init => Sys2Proof.Machine.execInit s
  | .drop => Sys2Proof.Machine.execDrop s
  | .setHigh => Sys2Proof.Machine.execSetHigh s
  | .setLow => Sys2Proof.Machine.execSetLow s
  | .isHigh => Sys2Proof.Machine.execIsHigh s
  | .isLow => Sys2Proof.Machine.execIsLow s
  | .delay => Sys2Proof.Machine.execDelay s
  | .rdBit => Sys2Proof.Machine.execRdBit s
  | .wrBit b => Sys2Proof.Machine.execWrBit b s
  | .rdByte => Sys2Proof.Machine.execRdByte s
  | .wrByte x => Sys2Proof.Machine.execWrByte x s
  | .rdBytes => Sys2Proof.Machine.execRdBytes s
  | .wrBytes => Sys2Proof.Machine.execWrBytes s

end Sys2Proof.Machine
end

