-- ==== Sys2Proof/Machine/Engine.lean ====
section
/-! DEFINITION. The sequencer (R34): one micro-operation of the running command per step. It shares the
micro-operations, the buffer accesses, the CRC step and the completion with the meanings of the commands. -/

namespace Sys2Proof.Machine

/-- What the sequencer does next: a micro-operation of R10, or one byte step of the CRC unit (R36; log 20). -/
inductive MicroOp where
  | pinLow
  | pinRelease
  | pinQuery
  | wait (n : Dur)
  | foldByte
deriving DecidableEq, Repr

/-- The read slot of R150. -/
def readSlotOps (t : Timing) : List MicroOp :=
  [.pinLow, .wait t.a, .pinRelease, .wait t.e, .pinQuery, .wait t.f]

/-- The write-1 and the write-0 slot of R150. -/
def writeSlotOps (t : Timing) (b : Bool) : List MicroOp :=
  [.pinLow, .wait (t.writeLow b), .pinRelease, .wait (t.writeRecovery b)]

/-- The micro-operations the running command repeats: its slot (R150), its primitive (R139), or one CRC byte step. -/
def Engine.ops (e : Engine) (t : Timing) : List MicroOp :=
  match e.cmd with
  | .crcCalc | .crcAppend _ | .crcCheck => [.foldByte]
  | .tPreset | .drop => []
  | .init | .setHigh => [.pinRelease]
  | .setLow => [.pinLow]
  | .isHigh | .isLow => [.pinQuery]
  | .delay => [.wait e.arg]
  | .rdBit | .rdByte | .rdBytes => readSlotOps t
  | .wrBit b => writeSlotOps t b
  | .wrByte _ | .wrBytes => writeSlotOps t (e.sh.getLsbD e.bitIdx)

/-- Slots per byte (R160): eight in a byte command, otherwise one. -/
def Engine.bits (e : Engine) : Nat :=
  match e.cmd with
  | .rdByte | .wrByte _ | .rdBytes | .wrBytes => 8
  | .crcCalc | .crcAppend _ | .crcCheck | .tPreset | .drop | .init | .setHigh | .setLow | .isHigh | .isLow
  | .delay | .rdBit | .wrBit _ => 1

/-- Bytes of the command: `BUF_LEN` in a buffer command (R66), none where there is no micro-operation, else one. -/
def Engine.bytes (e : Engine) : Nat :=
  match e.cmd with
  | .crcCalc | .crcAppend _ | .crcCheck | .rdBytes | .wrBytes => e.bufLen.toNat
  | .tPreset | .drop => 0
  | .init | .setHigh | .setLow | .isHigh | .isLow | .delay | .rdBit | .wrBit _ | .rdByte | .wrByte _ => 1

/-- The next micro-operation; none when the last one is done (R34). -/
def Engine.next (e : Engine) (t : Timing) : Option MicroOp :=
  if e.byteIdx < e.bytes then (e.ops t)[e.step]? else none

/-- The sequencer has arrived at its next micro-operation: a `Wait(n)` loads the delay counter with `n` (R43; log 10). -/
def Engine.arrive (e : Engine) (t : Timing) : Engine :=
  match e.next t with
  | some (.wait n) => { e with delay := n }
  | _ => { e with delay := 0#Config.durW }

/-- The shift register at the start of the command (R35): the byte of `WR.BYTE`, otherwise cleared. -/
def initialShift : Instr → Byte
  | .wrByte x => x
  | _ => 0#8

/-- The seed of the CRC working register (R36, R104, R107). -/
def initialCrc : Instr → Byte
  | .crcAppend seed => seed
  | _ => 0#8

/-- Acceptance of a command (R86 check 6, R71): the command and its operand registers are latched, `BUSY <- 1`.
`RESULT`, `ERRINFO`, `XFER_CNT` and `ERR` keep their values. -/
def latch (i : Instr) (s : State) : State :=
  { s with engine := some (Engine.arrive
      { cmd := i, arg := s.arg, bufAddr := s.bufAddr, bufLen := s.bufLen, byteIdx := 0, bitIdx := 0, step := 0,
        sh := initialShift i, crc := initialCrc i, delay := 0#Config.durW } s.timing) }

/-- A byte is complete (all its slots done). `RD.BYTES` stores it (R66, R163) and clears the shift register for the
next (R35). -/
def endByte (e : Engine) (s : State) : State :=
  let e' := { e with step := 0, bitIdx := 0, byteIdx := e.byteIdx + 1 }
  match e.cmd with
  | .rdBytes =>
    { s.writeBuf (e.bufAddr.toNat + e.byteIdx) e.sh with engine := some (Engine.arrive { e' with sh := 0#8 } s.timing) }
  | _ => { s with engine := some (e'.arrive s.timing) }

/-- The micro-operation at the sequencer's position is done: on to the next one (R34). -/
def moveOn (e : Engine) (s : State) : State :=
  if e.step + 1 < (e.ops s.timing).length then
    { s with engine := some (Engine.arrive { e with step := e.step + 1 } s.timing) }
  else if e.bitIdx + 1 < e.bits then
    { s with engine := some (Engine.arrive { e with step := 0, bitIdx := e.bitIdx + 1 } s.timing) }
  else endByte e s

/-- `XFER_CNT` of a `Pin` error (R33, R186): the byte index in a multi-byte transfer, 0 in every other command. -/
def Engine.failCount (e : Engine) : Word :=
  match e.cmd with
  | .rdBytes | .wrBytes => BitVec.ofNat 32 e.byteIdx
  | _ => 0#32

/-- After a pin micro-operation of the running command: on with the next, or the command ends (R13). -/
def Engine.after {α : Type} (e : Engine) (r : PinResult α) (k : α → Engine) : State :=
  match r with
  | .ok v s => moveOn (k v) s
  | .raised er s => raisePin er e.failCount s

/-- `WR.BYTES` reads a byte immediately before its first slot (R66; log 20); others have their shift register. -/
def fetchByte (e : Engine) (s : State) : Except Fault Engine :=
  match e.cmd with
  | .wrBytes =>
    if e.bitIdx = 0 then
      match s.readBuf (e.bufAddr.toNat + e.byteIdx) with
      | none => .error (.unwrittenBuf (e.bufAddr.toNat + e.byteIdx))
      | some x => .ok { e with sh := x }
    else .ok e
  | _ => .ok e

/-- The success completion of the running command, with the effects its rule lists there (R186; log 12). -/
def finishCommand (e : Engine) (s : State) : State :=
  match e.cmd with
  | .crcCalc | .crcAppend _ => completeOk e.crc e.bufLen s
  | .crcCheck => crcVerdict e.crc e.bufLen s
  | .tPreset => completeOk 0#8 0#32 (loadPreset s)
  | .init => completeOk 0#8 0#32 (construct s)
  | .drop => completeOk 0#8 0#32 (destroy s)
  | .setHigh | .setLow | .delay | .wrBit _ => completeOk 0#8 0#32 s
  | .isHigh | .rdBit => completeOk e.sh 0#32 s
  | .isLow => completeOk (bitByte (!e.sh.getLsbD 0)) 0#32 s
  | .rdByte => completeOk e.sh 1#32 s
  | .wrByte _ => completeOk 0#8 1#32 s
  | .rdBytes | .wrBytes => completeOk 0#8 e.bufLen s

/-- One step of the engine with transient state `e` (R34). A `Wait(n)` is one step, so nothing lands inside it: host reads
and writes could not be told from ones before it (log 10), but for `rst` it is a choice, DESIGN CHOICE (log 24, unsafe). R211
releases the line at once and does not say which event and how much of `now` an interrupted wait leaves; here `rst` comes
before the whole wait or after it. -/
def engineStep (e : Engine) (s : State) : Out :=
  match e.next s.timing with
  | none => .next (finishCommand e s)
  | some (.wait _) => .next (moveOn e (wait e.delay s))
  | some .pinLow =>
    match fetchByte e s with
    | .error f => .fault f
    | .ok e => .next (e.after (pinLow s) fun _ => e)
  | some .pinRelease => .next (e.after (pinRelease s) fun _ => e)
  | some .pinQuery => .next (e.after (pinQuery s) fun v => { e with sh := placeBit e.sh v e.bitIdx })
  | some .foldByte =>
    match s.readBuf (e.bufAddr.toNat + e.byteIdx) with
    | none => .fault (.unwrittenBuf (e.bufAddr.toNat + e.byteIdx))
    | some b => .next (moveOn { e with crc := crcByte e.crc b } s)

/-- The engine's turn: one micro-operation if the block is busy; an idle block does nothing by itself (R197, R212). -/
def engineTurn (s : State) : Out :=
  match s.engine with
  | none => .next s
  | some e => engineStep e s

end Sys2Proof.Machine
end

