-- ==== Sys2Proof/Machine/Flags.lean ====
section
/-! DEFINITION. The words the host reads: `STATUS` (R28), `ERRINFO` (R30), `RESULT` (R29). -/

namespace Sys2Proof.Machine

/-- `HCAUSE` codes (R189). -/
def RefusalCause.code : RefusalCause → BitVec 4
  | .busyWrite => 1#4
  | .illegalOpcode => 2#4
  | .reservedField => 3#4
  | .notInit => 4#4
  | .alreadyInit => 5#4
  | .bufRange => 6#4
  | .badAccess => 7#4

/-- `HCAUSE` as 4 bits: 0 if no refusal since reset (R189). -/
def causeCode : Option RefusalCause → BitVec 4
  | none => 0#4
  | some c => c.code

/-- `PCODE` (R183). -/
def ProtocolError.code : ProtocolError → BitVec 4
  | .busNotHigh => 1#4
  | .noAttachedDevices => 2#4
  | .timeout => 3#4
  | .crc _ => 4#4
  | .familyCode _ => 5#4
  | .configurationRegister _ => 6#4

/-- `PAYLOAD` of a protocol error (R30, R183). -/
def ProtocolError.payload : ProtocolError → Byte
  | .crc c => c
  | .familyCode o => o
  | .configurationRegister o => o
  | .busNotHigh | .noAttachedDevices | .timeout => 0#8

/-- `ERRINFO` bits 1:0 (R30). -/
def ErrorValue.kind : ErrorValue → BitVec 2
  | .success => 0#2
  | .pin _ => 1#2
  | .protocol _ => 2#2

/-- `ERRINFO` bits 7:4 (R30). -/
def ErrorValue.pcode : ErrorValue → BitVec 4
  | .protocol p => p.code
  | .success | .pin _ => 0#4

/-- `ERRINFO` bits 15:8 (R30). -/
def ErrorValue.payload : ErrorValue → Byte
  | .protocol p => p.payload
  | .success | .pin _ => 0#8

/-- The pin error code in `ERRINFO`, from bit 16 up (R30): bits 23:16 with the default `PIN_ERR_W`. That a wider code goes on
into bits 31:24, which R30 reserves at that width, is a DESIGN CHOICE (log 8, unsafe). -/
def ErrorValue.pinerr : ErrorValue → PinErr
  | .pin e => e
  | .success | .protocol _ => 0#Config.pinErrRoom

/-- A field of a register word: `v` with its bit 0 at bit `lo`. -/
def fieldAt {w : Nat} (v : BitVec w) (lo : Nat) : Word := v.setWidth Config.hostDW <<< lo

/-- The `ERRINFO` word (R30): KIND at bit 0, PCODE at 4, PAYLOAD at 8, PINERR at 16, all other bits 0. -/
def ErrorValue.word (v : ErrorValue) : Word :=
  fieldAt v.kind 0 ||| fieldAt v.pcode 4 ||| fieldAt v.payload 8 ||| fieldAt v.pinerr 16

/-- Reading back an `ERRINFO` word of a block with the parameters `p` (R30, R181, R183). None on what U9 says the block never
produces, where "a model's decoder of `ERRINFO` should `fault`": `KIND` 3, `PCODE` 0 and 7..15, and every 1 in a reserved
bit, which the word of the value read does not have; above `PINERR`, `PIN_ERR_W` bits wide, all bits are reserved. -/
def ErrorValue.ofWord (p : Params) (w : Word) : Option ErrorValue :=
  let v : Option ErrorValue :=
    match w.extractLsb' 0 2, w.extractLsb' 4 4 with
    | 0#2, _ => some .success
    | 1#2, _ => some (.pin (p.pinCode (w.extractLsb' 16 Config.pinErrRoom)))
    | 2#2, 1#4 => some (.protocol .busNotHigh)
    | 2#2, 2#4 => some (.protocol .noAttachedDevices)
    | 2#2, 3#4 => some (.protocol .timeout)
    | 2#2, 4#4 => some (.protocol (.crc (w.extractLsb' 8 8)))
    | 2#2, 5#4 => some (.protocol (.familyCode (w.extractLsb' 8 8)))
    | 2#2, 6#4 => some (.protocol (.configurationRegister (w.extractLsb' 8 8)))
    | _, _ => none
  v.filter (·.word == w)

/-- The `STATUS` word (R28): BUSY at bit 0, INIT 1, ERR 2, DRVLOW 3, HOSTERR 4, HCAUSE at 8, all other bits 0. -/
def State.statusWord (s : State) : Word :=
  fieldAt (BitVec.ofBool s.busy) 0 ||| fieldAt (BitVec.ofBool s.init) 1 ||| fieldAt (BitVec.ofBool s.err) 2
    ||| fieldAt (BitVec.ofBool s.drvlow) 3 ||| fieldAt (BitVec.ofBool s.hosterr) 4 ||| fieldAt (causeCode s.hcause) 8

/-- The `RESULT` word (R29): bits 31:8 read 0. -/
def State.resultWord (s : State) : Word := s.result.setWidth Config.hostDW

/-- The output `pad_pull_low` (R38, R72). -/
def State.padPullLow (s : State) : Bool := s.drvlow

end Sys2Proof.Machine
end

