-- ==== Sys2Proof/Machine/HostPort.lean ====
section
/-! DEFINITION. The host interface (R60 to R64, R73, R90, R121, R122): bus reads and writes, command issue. -/

namespace Sys2Proof.Machine

/-- The mapped registers (R61). -/
inductive Reg where
  | cmd | status | result | errinfo | arg | bufAddr | bufLen | xferCnt | tA | tB | tC | tD | tE | tF
deriving DecidableEq, Repr

/-- The register map (R61); nothing is mapped at another offset. -/
def Reg.ofOffset : Nat → Option Reg
  | 0x00 => some .cmd
  | 0x04 => some .status
  | 0x08 => some .result
  | 0x0C => some .errinfo
  | 0x10 => some .arg
  | 0x14 => some .bufAddr
  | 0x18 => some .bufLen
  | 0x1C => some .xferCnt
  | 0x20 => some .tA
  | 0x24 => some .tB
  | 0x28 => some .tC
  | 0x2C => some .tD
  | 0x30 => some .tE
  | 0x34 => some .tF
  | _ => none

/-- The word a host read of the register returns (R27 to R33, R121). -/
def State.regWord (s : State) : Reg → Word
  | .cmd => 0#32
  | .status => s.statusWord
  | .result => s.resultWord
  | .errinfo => s.errinfo.word
  | .arg => s.arg.setWidth Config.hostDW
  | .bufAddr => s.bufAddr
  | .bufLen => s.bufLen
  | .xferCnt => s.xferCnt
  | .tA => s.timing.a.setWidth Config.hostDW
  | .tB => s.timing.b.setWidth Config.hostDW
  | .tC => s.timing.c.setWidth Config.hostDW
  | .tD => s.timing.d.setWidth Config.hostDW
  | .tE => s.timing.e.setWidth Config.hostDW
  | .tF => s.timing.f.setWidth Config.hostDW

/-- The registers the host may only read (R61). -/
def Reg.readOnly : Reg → Bool
  | .status | .result | .errinfo | .xferCnt => true
  | .cmd | .arg | .bufAddr | .bufLen | .tA | .tB | .tC | .tD | .tE | .tF => false

/-- What a legal access reaches (R64). -/
inductive Target where
  | reg (r : Reg)
  | buf (i : Nat)
deriving DecidableEq, Repr

/-- `HOST_AW` (R8): its default, grown as far as the window needs (R61: "`HOST_AW` grows to cover it"). -/
def Params.hostAW (p : Params) : Nat := max Config.hostAW (Nat.log2 (Config.bufWindow + p.bufSize - 1) + 1)

/-- The address that reaches the block: the `HOST_AW` bits the port carries (R38; log 15). -/
def Params.portAddr (p : Params) (addr : HostAddr) : Nat := addr % 2 ^ p.hostAW

/-- R64: a 32-bit access at the offset of a mapped register, or a 1-byte access inside the `BUF` window. -/
def target (p : Params) (size : AccessSize) (addr : HostAddr) : Option Target :=
  match size with
  | .word => (Reg.ofOffset (p.portAddr addr)).map .reg
  | .byte =>
    if Config.bufWindow ≤ p.portAddr addr ∧ p.portAddr addr < Config.bufWindow + p.bufSize then
      some (.buf (p.portAddr addr - Config.bufWindow))
    else none
  | .half => none

/-- A host read (R63, R64, R73): no side effect but the data it returns; a refused read returns 0. The byte of a 1-byte
read stands in bits 7:0 of the data with zeros above: DESIGN CHOICE (log 15, unsafe), the spec gives the byte alone. -/
def hostRead (size : AccessSize) (addr : HostAddr) (s : State) : Out :=
  match target s.params size addr with
  | none => .next { refuse .badAccess s with hostData := 0#32 }
  | some (.reg r) => .next { s with hostData := s.regWord r }
  | some (.buf i) =>
    match s.readBuf i with
    | none => .fault (.unwrittenBuf i)
    | some v => .next { s with hostData := v.setWidth Config.hostDW }

/-- The cause of a word the decoder rejects (R85). -/
def causeOf : DecodeError → RefusalCause
  | .illegalOpcode => .illegalOpcode
  | .reservedField => .reservedField

/-- A write of `w` to `CMD` (R86): the checks in order, then the command is latched. -/
def issue (w : Word) (s : State) : State :=
  if s.busy then refuse .busyWrite s
  else match decode w with
    | .error d => refuse (causeOf d) s
    | .ok i =>
      match acceptance i s with
      | some c => refuse c s
      | none => latch i s

/-- The stored value of a host write to a register (R31, R32, R122); a write to `CMD` issues the command (R27). -/
def writeReg (r : Reg) (v : Word) (s : State) : State :=
  match r with
  | .cmd => issue v s
  | .arg => { s with arg := v.setWidth Config.durW }
  | .bufAddr => { s with bufAddr := v }
  | .bufLen => { s with bufLen := v }
  | .tA => { s with timing := { s.timing with a := v.setWidth Config.durW } }
  | .tB => { s with timing := { s.timing with b := v.setWidth Config.durW } }
  | .tC => { s with timing := { s.timing with c := v.setWidth Config.durW } }
  | .tD => { s with timing := { s.timing with d := v.setWidth Config.durW } }
  | .tE => { s with timing := { s.timing with e := v.setWidth Config.durW } }
  | .tF => { s with timing := { s.timing with f := v.setWidth Config.durW } }
  | .status | .result | .errinfo | .xferCnt => s

/-- A host write (R64, R73): an access that is not legal is refused `BAD_ACCESS`, a legal one while `BUSY` = 1
`BUSY_WRITE` (log 13); a byte written to the window is stored (R63), taken from bits 7:0 of the data (log 15). -/
def hostWrite (size : AccessSize) (addr : HostAddr) (v : Word) (s : State) : State :=
  match target s.params size addr with
  | none => refuse .badAccess s
  | some (.reg r) =>
    if r.readOnly then refuse .badAccess s
    else if s.busy then refuse .busyWrite s
    else writeReg r v s
  | some (.buf i) => if s.busy then refuse .busyWrite s else s.writeBuf i (v.setWidth 8)

end Sys2Proof.Machine
end

