-- ==== Sys2Proof/Machine/Call.lean ====
section
/-! DEFINITION. The command line (R90): the write to `CMD` with the run of the command, then polling until `BUSY` = 0. -/

namespace Sys2Proof.Machine

/-- The write to `CMD` of a command line, and the run of the command if it is accepted (R90; log 2). A word that is no
command is refused, with `BUSY_WRITE` before the decoder's verdict (R86); a command runs by its meaning, which makes the
other checks. -/
def callCommand (w : Word) (s : State) : Out :=
  match decode w with
  | .error d => .next (refuse (if s.busy then .busyWrite else causeOf d) s)
  | .ok i => exec i s

/-- One `LD STATUS` of a command line (R90): while it reads `BUSY` = 1 the engine takes its turn and the line polls again,
so that the next host action is not taken before `BUSY` = 0 (log 22). -/
def pollStatus (s : State) : Out :=
  if s.busy then engineTurn { s with hostData := s.statusWord, host := .poll :: s.host }
  else .next { s with hostData := s.statusWord }

/-- One action of the host (R69: one at a time, in order). A command line goes on with its polling. -/
def hostTurn (a : HostAction) (s : State) : Out :=
  match a with
  | .read size addr => hostRead size addr s
  | .write size addr v => .next (hostWrite size addr v s)
  | .call w => callCommand w { s with host := .poll :: s.host }
  | .poll => pollStatus s
  | .pass => engineTurn s
  | .reset => .next (resetBlock s)

end Sys2Proof.Machine
end

