-- ==== Sys2Proof/Machine/Step.lean ====
section
/-! DEFINITION. One step of the machine: the host's next action if there is one, else the engine's turn. -/

namespace Sys2Proof.Machine

/-- R18, R69: the host's pending actions are taken in order; with none pending a busy engine does its next
micro-operation and an idle block does nothing (log 1). -/
def step (s : State) : Host.Outcome State Fault Refusal :=
  match s.host with
  | [] => engineTurn s
  | a :: rest => hostTurn a { s with host := rest }

/-- The state whose next step is the command line of the word `w` (log 3): the block has no instruction memory, a
command comes from the host (R60, R71), so the word becomes the host's next action. -/
def State.withFetchWord (s : State) (nbits w : Nat) : State :=
  { s with host := .call (tableWord nbits w) :: s.host }

end Sys2Proof.Machine
end

