-- ==== Sys2Proof/Safety.lean ====
section
/-! DEFINITION. The terms claims are stated in: the premise of R14, the invariant of the machine, the traces and
durations of the slots (R150, R154, R230), the samples the environment will give. -/

namespace Sys2Proof.Machine

/-- R14: no host action was refused since reset; every claim about what the source defines takes it as a premise. -/
def State.notGoneWrong (s : State) : Prop := s.hosterr = false

/-- Every register, flag and ghost at its value after reset (R40); `BUF` is unspecified there and so not named. -/
structure State.HasResetValues (t : State) : Prop where
  timing : t.timing = ⟨t.params.presetA, t.params.presetB, t.params.presetC, t.params.presetD, t.params.presetE,
    t.params.presetF⟩
  busy : t.busy = false
  init : t.init = false
  err : t.err = false
  drvlow : t.drvlow = false
  refusals : t.hosterr = false ∧ t.hcause = none
  results : t.result = 0#8 ∧ t.errinfo = .success ∧ t.xferCnt = 0#32
  operands : t.arg = 0#Config.durW ∧ t.bufAddr = 0#32 ∧ t.bufLen = 0#32
  idle : t.engine = none
  dropped : t.trace.getLast? = some .dropped

/-- The state after a refusal with cause `c` (R14, R189): `HOSTERR` set, the first cause kept, nothing else changed. -/
def State.refusedWith (s : State) (c : RefusalCause) : State :=
  { s with hosterr := true, hcause := if s.hcause = none then some c else s.hcause }

/-- The registers a completion writes (R186), on the state `s` the command reached. -/
def State.completedWith (s : State) (v : ErrorValue) (r : Byte) (k : Word) : State :=
  { s with
    result := r, xferCnt := k, errinfo := v, err := decide (v.kind ≠ 0#2), engine := none }

/-! ### The environment's answers as seen by a claim -/

def PinAnswer.isOk : PinAnswer → Bool
  | .ok _ => true
  | .err _ => false

/-- The level of an answer (only an Ok answer to `PinQuery` has one that matters). -/
def PinAnswer.level : PinAnswer → Bool
  | .ok v => v
  | .err _ => false

/-- The level sampled in the `k`-th read slot from now: the third pin micro-operation of that slot (R150). -/
def State.sampleAt (s : State) (k : Nat) : Bool := (s.answerAt (3 * k + 2)).level

/-- The ideal wire of R37: low if the block pulls low or another device does, high otherwise. An optional assumption
on the environment, which no rule of the engine uses (log 23). -/
def State.idealLevel (s : State) (otherPullsLow : Bool) : Bool := !(s.drvlow || otherPullsLow)

/-! ### Traces and durations -/

/-- The trace of a complete read slot (R151). -/
def readSlotTrace (t : Timing) (v : Bool) : List Event :=
  [.low, .wait t.a, .rel, .wait t.e, .sample v, .wait t.f]

/-- The trace of a complete write slot (R152). -/
def writeSlotTrace (t : Timing) (b : Bool) : List Event :=
  if b then [.low, .wait t.a, .rel, .wait t.b] else [.low, .wait t.c, .rel, .wait t.d]

/-- The trace of a read slot that ends at its pin micro-operation `q` (0 low, 1 release, 2 query) with `e` (R154). -/
def readSlotAbort (t : Timing) (q : Nat) (e : PinErr) : List Event :=
  match q with
  | 0 => [.lowFail e]
  | 1 => [.low, .wait t.a, .relFail e]
  | _ => [.low, .wait t.a, .rel, .wait t.e, .sampleFail e]

/-- The trace of a write slot that ends at its pin micro-operation `q` (0 low, 1 release) with `e` (R154). -/
def writeSlotAbort (t : Timing) (b : Bool) (q : Nat) (e : PinErr) : List Event :=
  match q with
  | 0 => [.lowFail e]
  | _ => [.low, .wait (if b then t.a else t.c), .relFail e]

/-- `DRVLOW` after `m` complete slots and one that ended at its pin micro-operation `q` (R154). -/
def abortDrvlow (before : Bool) (m q : Nat) : Bool :=
  match q with
  | 0 => if m = 0 then before else false
  | 1 => true
  | _ => false

/-- The nanoseconds an event takes (R12): only a wait takes any. -/
def Event.time : Event → Nat
  | .wait n => n.toNat
  | .low | .rel | .sample _ | .lowFail _ | .relFail _ | .sampleFail _ | .dropped => 0

/-- `DRVLOW` after an event (R10, R25): 1 after `LOW`, 0 after `REL` and `DROPPED`, otherwise as before. -/
def Event.drive (before : Bool) : Event → Bool
  | .low => true
  | .rel | .dropped => false
  | .sample _ | .wait _ | .lowFail _ | .relFail _ | .sampleFail _ => before

/-- `DRVLOW` after the events of a trace (R10, R25). -/
def driveAfter (before : Bool) (evs : List Event) : Bool := evs.foldl Event.drive before

/-- The model time of a trace (R12). -/
def traceTime (evs : List Event) : Nat := (evs.map Event.time).sum

/-- The trace of `m` complete read slots with the samples the environment will give. -/
def State.readSlots (s : State) (m : Nat) : List Event :=
  (List.range m).flatMap fun k => readSlotTrace s.timing (s.sampleAt k)

/-- The trace of a command that ends at pin micro-operation `p` of its read slots (three each) with `e` (R154). -/
def State.readTraceAt (s : State) (p : Nat) (e : PinErr) : List Event :=
  s.readSlots (p / 3) ++ readSlotAbort s.timing (p % 3) e

/-- The trace of the write slots of `bits`, in order. -/
def writeBitsTrace (t : Timing) (bits : List Bool) : List Event := bits.flatMap (writeSlotTrace t)

/-- The trace of a command that sends `bits` and ends at pin micro-operation `p` of its write slots (two each) with
`e` (R154). -/
def writeTraceAt (t : Timing) (bits : List Bool) (p : Nat) (e : PinErr) : List Event :=
  writeBitsTrace t (bits.take (p / 2)) ++ writeSlotAbort t ((bits[p / 2]?).getD false) (p % 2) e

/-- The bits of a byte, bit 0 first (R65). -/
def bitsOf (x : Byte) : List Bool := (List.range 8).map fun i => x.getLsbD i

/-- R109 law 4: one step of the bit-serial form, `fb <- c[0] ^ d; c <- c >> 1; if fb = 1: c <- c ^ 0x8C`. -/
def crcSerialStep (c : Byte) (d : Bool) : Byte :=
  if c.getLsbD 0 ^^ d then (c >>> 1) ^^^ 0x8C#8 else c >>> 1

/-- The trace of a byte written (R162). -/
def writeByteTrace (t : Timing) (x : Byte) : List Event := writeBitsTrace t (bitsOf x)

/-- The bits of the bytes of a buffer in the order they are sent (R65). -/
def bitsOfBytes (data : List Byte) : List Bool := data.flatMap bitsOf

/-- The duration of a read slot (R150, R230). -/
def Timing.readTime (t : Timing) : Nat := t.a.toNat + t.e.toNat + t.f.toNat

/-- The number of 1 bits of a byte (R162). -/
def onesOf (x : Byte) : Nat := (bitsOf x).count true

/-- The duration of `WR.BYTE x` (R162, R230). -/
def Timing.writeByteTime (t : Timing) (x : Byte) : Nat :=
  onesOf x * (t.a.toNat + t.b.toNat) + (8 - onesOf x) * (t.c.toNat + t.d.toNat)

/-- The number of pin micro-operations of a command that none of them ends early (R150, R160, R139). -/
def pinOps (i : Instr) (s : State) : Nat :=
  match i with
  | .crcCalc | .crcAppend _ | .crcCheck | .tPreset | .drop | .delay => 0
  | .init | .setHigh | .setLow | .isHigh | .isLow => 1
  | .rdBit => 3
  | .wrBit _ => 2
  | .rdByte => 24
  | .wrByte _ => 16
  | .rdBytes => 24 * s.bufLen.toNat
  | .wrBytes => 16 * s.bufLen.toNat

/-- `s` after `n` pin micro-operations that left the events `evs` on the trace and `DRVLOW` at `low` (R10, R12): the
environment has given `n` answers, `now` has advanced by the waits among the events, nothing else has changed. -/
def State.afterOps (s : State) (n : Nat) (evs : List Event) (low : Bool) : State :=
  { s with
    drvlow := low, padScript := s.padScript.drop n, padOps := s.padOps + n,
    trace := s.trace ++ evs, now := s.now + traceTime evs }

/-! ### Encodings, acceptance and accesses as the spec's tables give them -/

/-- The opcodes of R82. -/
abbrev opcodeList : List Byte :=
  [0x10#8, 0x11#8, 0x12#8, 0x20#8, 0x30#8, 0x31#8, 0x32#8, 0x33#8, 0x34#8, 0x35#8, 0x36#8, 0x40#8, 0x41#8,
    0x50#8, 0x51#8, 0x52#8, 0x53#8]

/-- R85 (and checks 2 and 3 of R86): a reserved bit is set in the word, by the format of its opcode. -/
abbrev reservedBitSet (w : Word) : Prop :=
  w.extractLsb' 16 16 ≠ 0#16 ∨
  (w.extractLsb' 0 8 ∉ [0x11#8, 0x51#8, 0x41#8] ∧ w.extractLsb' 8 8 ≠ 0#8) ∨
  (w.extractLsb' 0 8 = 0x41#8 ∧ w.extractLsb' 9 7 ≠ 0#7)

/-- R86, as a table: the cause with which a write of `w` to `CMD` is refused in state `s`, none if it is accepted. -/
abbrev refusalCauseOf (w : Word) (s : State) : Option RefusalCause :=
  if s.busy = true then some .busyWrite
  else if w.extractLsb' 0 8 ∉ opcodeList then some .illegalOpcode
  else if reservedBitSet w then some .reservedField
  else if w.extractLsb' 0 8 = 0x30#8 ∧ s.init = true then some .alreadyInit
  else if w.extractLsb' 0 8 ∉ [0x10#8, 0x11#8, 0x12#8, 0x20#8, 0x30#8] ∧ s.init = false then some .notInit
  else if w.extractLsb' 0 8 ∈ [0x10#8, 0x11#8, 0x12#8, 0x52#8, 0x53#8] ∧
      s.bufAddr.toNat + s.bufLen.toNat > s.params.bufSize then some .bufRange
  else none

/-- The buffer operand: `data` is what `BUF[BUF_ADDR .. BUF_ADDR+BUF_LEN-1]` holds, inside `BUF` (R32, R66). -/
abbrev bufferHolds (s : State) (data : List Byte) : Prop :=
  data.length = s.bufLen.toNat ∧ s.bufAddr.toNat + s.bufLen.toNat ≤ s.params.bufSize ∧
  ∀ j (h : j < data.length), s.readBuf (s.bufAddr.toNat + j) = some data[j]

/-- R64: the legal accesses, by the address at the port (R38). -/
abbrev legalAccess (p : Params) (size : AccessSize) (addr : HostAddr) : Prop :=
  (size = .word ∧ p.portAddr addr % 4 = 0 ∧ p.portAddr addr ≤ 0x34) ∨
    (size = .byte ∧ 0x100 ≤ p.portAddr addr ∧ p.portAddr addr < 0x100 + p.bufSize)

/-! ### The invariant -/

/-- The commands that read `BUF` (R84: `BUF` range among what they read). -/
def readsBuf : Instr → Bool
  | .crcCalc | .crcAppend _ | .crcCheck | .wrBytes => true
  | .tPreset | .init | .drop | .setHigh | .setLow | .isHigh | .isLow | .delay | .rdBit | .wrBit _ | .rdByte | .wrByte _
  | .rdBytes => false

/-- The running command reads `BUF`, `i` lies in its range, and nothing has written `BUF[i]` since reset (U6). -/
structure Engine.MeetsUnwritten (e : Engine) (s : State) (i : Nat) : Prop where
  reads : readsBuf e.cmd = true
  range : e.bufAddr.toNat ≤ i ∧ i < e.bufAddr.toNat + e.bufLen.toNat
  unwritten : s.readBuf i = none

/-- What holds of the transient state while a command runs. -/
structure EngineInv (s : State) (e : Engine) : Prop where
  /-- The driver is as the command needs it (R84, R86). -/
  driver : (driverNeed e.cmd = .present → s.init = true) ∧ (driverNeed e.cmd = .absent → s.init = false)
  /-- The latched operands equal the registers (R71). -/
  latched : e.arg = s.arg ∧ e.bufAddr = s.bufAddr ∧ e.bufLen = s.bufLen
  /-- A buffer command stays inside `BUF` (R66). -/
  fits : usesBuffer e.cmd = true → e.bufAddr.toNat + e.bufLen.toNat ≤ s.params.bufSize
  /-- The position is at a micro-operation of the command, or past the last one (R34). -/
  position : (e.byteIdx < e.bytes ∧ e.bitIdx < e.bits ∧ e.step < (e.ops s.timing).length) ∨
    (e.byteIdx = e.bytes ∧ e.bitIdx = 0 ∧ e.step = 0)
  /-- The delay counter holds the wait that is next (R43). -/
  delay : e.delay = match e.next s.timing with
    | some (.wait n) => n
    | _ => 0#Config.durW

/-- The invariant of the machine. -/
structure State.Inv (s : State) : Prop where
  /-- `BUF` is in canonical form. -/
  buf_wf : s.buf.wf
  /-- Nothing is stored outside `BUF` (R66). -/
  buf_range : ∀ c ∈ s.buf, c.1 < s.params.bufSize
  /-- `STATUS.ERR` = 1 iff `ERRINFO.KIND` ≠ 0 (R30). -/
  err : s.err = true ↔ s.errinfo.kind ≠ 0#2
  /-- Of the protocol errors only `Crc` with a non-zero checksum occurs (R184, R185). -/
  crc_only : ∀ p, s.errinfo = .protocol p → ∃ c, p = .crc c ∧ c ≠ 0#8
  /-- A recorded pin error code has no bit above `PIN_ERR_W` (R38, R181). -/
  pin_width : ∀ e, s.errinfo = .pin e → e.toNat < 2 ^ s.params.pinErrW.val
  /-- `HOSTERR` = 1 iff a cause is recorded (R189). -/
  cause : s.hosterr = true ↔ s.hcause ≠ none
  /-- Without a driver the block has released the line (R24, R25, R132, R133). -/
  released : s.init = false → s.drvlow = false
  /-- The transient state is coherent. -/
  engine : ∀ e, s.engine = some e → EngineInv s e

end Sys2Proof.Machine
end

