-- ==== Sys2Proof/Certificates/Slice0/Obligations.lean ====
section
/-! DEFINITION. The statements for the provers (OBLIGATIONS.json). Each docstring names the rule of spec/ it formalises.

Reading aid (all in Safety.lean): `afterOps n evs low` is the state after `n` pin micro-operations that left the events
`evs` and `DRVLOW` = `low`; `completedWith v r k` writes the completion registers (error value, RESULT, XFER_CNT);
`refusedWith c` sets HOSTERR and keeps the first cause; `answerAt k` is the pad's `k`-th answer from now, whatever it
is; `sampleAt k` the level in the `k`-th read slot from now. Both of the first two leave every other field as it was, so
an equation with them is the result, the trace, the time and the frame of the command at once. -/

open Sys2Proof Sys2Proof.Machine

/-! ### Reset, step -/

/-- R40: the reset state of a block with any parameters, and the state a step with `rst` leaves from any state, running
command or not; nothing is said of `BUF`, which the spec leaves unspecified. -/
def Obligations.ResetLeavesTheResetValues : Prop :=
  (∀ p : Params, (State.resetFor p).params = p ∧ (State.resetFor p).HasResetValues) ∧
  State.reset = State.resetFor Params.default ∧
  ∀ (s : State) (rest : List HostAction), s.host = .reset :: rest →
    ∃ t, step s = .next t ∧ t.params = s.params ∧ t.HasResetValues ∧ t.trace = s.trace ++ [.dropped] ∧ t.now = s.now

/-- R212, R197: a block that is not busy does nothing by itself; after reset it waits for the host. -/
def Obligations.IdleBlockDoesNothingByItself : Prop :=
  (∀ s : State, s.engine = none → s.host = [] → step s = .next s) ∧
  (∀ (s : State) (rest : List HostAction), s.engine = none → s.host = .pass :: rest →
    step s = .next { s with host := rest })

/-- R90: the command line of a word that decodes to `i` is the meaning of `i` at the state with the line taken and its
polling next; a poll reads `STATUS`, and while `BUSY` = 1 the engine takes its turn and the line polls again, so that the
next host action comes after `BUSY` = 0. -/
def Obligations.StepRunsTheDecodedCommand : Prop :=
  (∀ (s : State) (rest : List HostAction) (w : Word) (i : Instr), s.host = .call w :: rest → decode w = .ok i →
    step s = exec i { s with host := .poll :: rest }) ∧
  ∀ (s : State) (rest : List HostAction), s.host = .poll :: rest →
    (s.busy = true → step s = engineTurn { s with hostData := s.statusWord }) ∧
    (s.busy = false → step s = .next { s with host := rest, hostData := s.statusWord })

/-- The word the host's table gives for a command, placed as the host's next action, runs that command next (log 3); the
polling of its line stays pending. -/
def Obligations.FetchedWordRunsItsCommand : Prop :=
  ∀ (s : State) (i : Instr), decodeTableWord 32 (encode i).toNat = some i ∧
    step (s.withFetchWord 32 (encode i).toNat) = exec i { s with host := .poll :: s.host }

/-- R34, R68, D28: one micro-operation per step and one command as one big step give the same trace and the same
completion state. Writing the command's word to `CMD` and letting the engine run with no further host action ends,
after some number of steps, in exactly the outcome of the command's meaning: the same state, or the same fault. -/
def Obligations.MicroStepsGiveTheCommandsOutcome : Prop :=
  ∀ (i : Instr) (s : State), ∃ k : Nat,
    Host.Core.run Sys2Proof.core (k + 1) { s with host := [.write .word 0x00 (encode i)] }
      = exec i { s with host := [] }

/-- R34, R10: with no host action pending, one step adds at most one event to the trace. -/
def Obligations.EngineStepIsAtMostOneMicroOperation : Prop :=
  ∀ s t : State, s.host = [] → step s = .next t →
    ∃ evs : List Event, evs.length ≤ 1 ∧ t.trace = s.trace ++ evs ∧ t.padOps ≤ s.padOps + 1

/-- R200, R90: an accepted command always completes. From a state with a command running (coherent as the invariant
says), the engine alone brings the block to not busy within 48 steps a byte of `BUF` (or of the one byte of `RD.BYTE` and
`WR.BYTE`) and one, and the polling of a command line ends with one step more, with the `STATUS` it read last; unless the
command reads `BUF` and comes to a byte of its range that nothing has written, where it stops (log 4). -/
def Obligations.EveryRunningCommandEnds : Prop :=
  ∀ s : State, s.Inv →
    (∃ k ≤ 48 * max 1 s.params.bufSize + 1,
      (∃ t, Host.Core.run Sys2Proof.core k { s with host := [] } = .next t ∧ t.busy = false) ∨
      (∃ e i, Host.Core.run Sys2Proof.core k { s with host := [] } = .fault (.unwrittenBuf i) ∧
        s.engine = some e ∧ e.MeetsUnwritten s i)) ∧
    ∀ rest : List HostAction, ∃ k ≤ 48 * max 1 s.params.bufSize + 2,
      (∃ t, Host.Core.run Sys2Proof.core k { s with host := .poll :: rest } = .next t ∧ t.busy = false ∧
        t.host = rest ∧ t.hostData = t.statusWord) ∨
      (∃ e i, Host.Core.run Sys2Proof.core k { s with host := .poll :: rest } = .fault (.unwrittenBuf i) ∧
        s.engine = some e ∧ e.MeetsUnwritten s i)

/-! ### Encoding -/

/-- R80, R82, R83: each word the decoder accepts is the word of its command and of no other; no operand bit is lost. -/
def Obligations.DecodeAndEncodeAgree : Prop :=
  ∀ (w : Word) (i : Instr), decode w = .ok i ↔ w = encode i

/-- R81: the words of a row of the opcode table are those that match it under its mask. -/
def Obligations.WordSelectsItsTableRow : Prop :=
  Format.n.mask = 0xFFFFFFFF#32 ∧ Format.b.mask = 0xFFFFFEFF#32 ∧ Format.i.mask = 0xFFFF00FF#32 ∧
  ∀ (w : Word) (i : Instr),
    w &&& i.format.mask = i.opc.setWidth 32 ↔ ∃ j, decode w = .ok j ∧ j.opc = i.opc

/-- R85: every word is one of the 17 instructions, `ILLEGAL_OPCODE` or `RESERVED_FIELD`, and which; a word that is no
instruction, written to `CMD`, is refused: the two marks and nothing else. -/
def Obligations.EveryWordIsClassified : Prop :=
  opcodeList.length = 17 ∧ opcodeList.Nodup ∧
  (∀ w : Word,
    (decode w = .error .illegalOpcode ↔ w.extractLsb' 0 8 ∉ opcodeList) ∧
    (decode w = .error .reservedField ↔ w.extractLsb' 0 8 ∈ opcodeList ∧ reservedBitSet w) ∧
    ((∃ i, decode w = .ok i) ↔ w.extractLsb' 0 8 ∈ opcodeList ∧ ¬ reservedBitSet w)) ∧
  ∀ (s : State) (rest : List HostAction) (w : Word), (∀ i, decode w ≠ .ok i) → s.host = .write .word 0x00 w :: rest →
    ∃ c, step s = .next ({ s with host := rest }.refusedWith c)

/-- R82, R88 and the verdicts of 95_test_vectors.md V6: a word of each of the 17 commands, written out from the encoding
(both of `WR.BIT`), and words that are none. -/
def Obligations.WordsWrittenFromTheEncoding : Prop :=
  decode 0x00000010#32 = .ok .crcCalc ∧ decode 0x00005E11#32 = .ok (.crcAppend 0x5E#8) ∧
  decode 0x00000012#32 = .ok .crcCheck ∧ decode 0x00000020#32 = .ok .tPreset ∧
  decode 0x00000030#32 = .ok .init ∧ decode 0x00000031#32 = .ok .drop ∧
  decode 0x00000032#32 = .ok .setHigh ∧ decode 0x00000033#32 = .ok .setLow ∧
  decode 0x00000034#32 = .ok .isHigh ∧ decode 0x00000035#32 = .ok .isLow ∧
  decode 0x00000036#32 = .ok .delay ∧ decode 0x00000040#32 = .ok .rdBit ∧
  decode 0x00000141#32 = .ok (.wrBit true) ∧ decode 0x00000041#32 = .ok (.wrBit false) ∧
  decode 0x00000050#32 = .ok .rdByte ∧ decode 0x0000CC51#32 = .ok (.wrByte 0xCC#8) ∧
  decode 0x00000052#32 = .ok .rdBytes ∧ decode 0x00000053#32 = .ok .wrBytes ∧
  decode 0x00000241#32 = .error .reservedField ∧ decode 0x00010040#32 = .error .reservedField ∧
  decode 0x0001FF99#32 = .error .illegalOpcode

/-- R88, R89, with the mnemonics of R82: the operand each kind of mnemonic takes (none; 0 or 1; 0..255); the command and
the word of each mnemonic and each alias, with every operand it takes; an ill-formed line has no word; the word of a
well-formed line decodes to the line's command. -/
def Obligations.AssemblerLinesGiveTheirWords : Prop :=
  (∀ (m : Mnemonic) (o : Option Nat), m ∉ [.wrBit, .crcAppend, .wrByte] → (SourceLine.wf ⟨m, o⟩ = true ↔ o = none)) ∧
  (∀ o : Option Nat, SourceLine.wf ⟨.wrBit, o⟩ = true ↔ o = some 0 ∨ o = some 1) ∧
  (∀ (m : Mnemonic) (o : Option Nat), m ∈ [.crcAppend, .wrByte] →
    (SourceLine.wf ⟨m, o⟩ = true ↔ ∃ n ≤ 255, o = some n)) ∧
  (∀ x ∈ ([(.crcCalc, .crcCalc, 0x10#32), (.crcCheck, .crcCheck, 0x12#32), (.tPreset, .tPreset, 0x20#32),
      (.init, .init, 0x30#32), (.drop, .drop, 0x31#32), (.setHigh, .setHigh, 0x32#32), (.setLow, .setLow, 0x33#32),
      (.isHigh, .isHigh, 0x34#32), (.isLow, .isLow, 0x35#32), (.delay, .delay, 0x36#32), (.rdBit, .rdBit, 0x40#32),
      (.rdByte, .rdByte, 0x50#32), (.rdBytes, .rdBytes, 0x52#32), (.wrBytes, .wrBytes, 0x53#32),
      (.release, .setHigh, 0x32#32), (.pullLow, .setLow, 0x33#32), (.wr1, .wrBit true, 0x141#32),
      (.wr0, .wrBit false, 0x41#32)] : List (Mnemonic × Instr × Word)),
    SourceLine.assemble ⟨x.1, none⟩ = some x.2.1 ∧ SourceLine.word ⟨x.1, none⟩ = some x.2.2) ∧
  (SourceLine.assemble ⟨.wrBit, some 0⟩ = some (.wrBit false) ∧ SourceLine.word ⟨.wrBit, some 0⟩ = some 0x41#32) ∧
  (SourceLine.assemble ⟨.wrBit, some 1⟩ = some (.wrBit true) ∧ SourceLine.word ⟨.wrBit, some 1⟩ = some 0x141#32) ∧
  (∀ n ≤ 255, SourceLine.assemble ⟨.crcAppend, some n⟩ = some (.crcAppend (BitVec.ofNat 8 n)) ∧
    SourceLine.word ⟨.crcAppend, some n⟩ = some (BitVec.ofNat 32 (0x11 + 256 * n))) ∧
  (∀ n ≤ 255, SourceLine.assemble ⟨.wrByte, some n⟩ = some (.wrByte (BitVec.ofNat 8 n)) ∧
    SourceLine.word ⟨.wrByte, some n⟩ = some (BitVec.ofNat 32 (0x51 + 256 * n))) ∧
  (∀ l : SourceLine, l.wf = false → l.assemble = none ∧ l.word = none) ∧
  (∀ l : SourceLine, l.wf = true → ∃ w i, l.word = some w ∧ l.assemble = some i ∧ decode w = .ok i)

/-! ### Acceptance and refusals -/

/-- R86 (with the effect of a refusal, R14): a word written to `CMD` is refused with the first cause that applies and
nothing starts, or it is accepted: `BUSY` is set with the opcode, the immediate and the operand registers latched, and
nothing else changes (`RESULT`, `ERRINFO`, `XFER_CNT`, `ERR` among it). -/
def Obligations.AcceptanceChecksAreMadeInOrder : Prop :=
  ∀ (s : State) (rest : List HostAction) (w : Word), s.host = .write .word 0x00 w :: rest →
    match refusalCauseOf w s with
    | some c => step s = .next ({ s with host := rest }.refusedWith c)
    | none => ∃ e : Engine, step s = .next { s with host := rest, engine := some e } ∧
        e.cmd.opc = w.extractLsb' 0 8 ∧ e.cmd.imm8 = w.extractLsb' 8 8 ∧
        e.arg = s.arg ∧ e.bufAddr = s.bufAddr ∧ e.bufLen = s.bufLen

/-- R190: a refused word, bare or as a command line, starts nothing and leaves the two marks alone (the line goes on to
poll); an accepted command line ends by one of the completions of R186, from a state `u` whose refusal marks are those
before it. -/
def Obligations.RefusalsAndErrorsNeverMix : Prop :=
  ∀ (s t : State) (rest : List HostAction) (w : Word), step s = .next t →
    (s.host = .write .word 0x00 w :: rest → ∀ c, refusalCauseOf w s = some c →
      t = { s with host := rest }.refusedWith c) ∧
    (s.host = .call w :: rest → ∀ c, refusalCauseOf w s = some c →
      t = { s with host := .poll :: rest }.refusedWith c) ∧
    (s.host = .call w :: rest → refusalCauseOf w s = none →
      ∃ (u : State) (v : ErrorValue) (r : Byte) (k : Word), t = u.completedWith v r k ∧
        u.hosterr = s.hosterr ∧ u.hcause = s.hcause ∧
        match v with
        | .success => True
        | .pin _ => r = 0#8
        | .protocol p => p = .crc r ∧ r ≠ 0#8 ∧ k = s.bufLen)

/-- R189: only reset clears the refusal marks, and the first cause is kept. -/
def Obligations.FirstRefusalCauseIsKept : Prop :=
  ∀ s t : State, (∀ rest, s.host ≠ .reset :: rest) → step s = .next t → s.hosterr = true → s.hcause ≠ none →
    t.hosterr = true ∧ t.hcause = s.hcause

/-! ### CRC -/

/-- R109: the five laws of the function; law 1 and law 2 also as `CRC.CHECK` shows them on a buffer; the fourth is the
bit-serial form, the fifth the table-driven one. -/
def Obligations.CrcLaws : Prop :=
  (∀ S : List Byte, crcCalculate (S ++ [crcCalculate S]) = 0#8) ∧
  (∀ (S : List Byte) (t : Byte), t ≠ crcCalculate S → crcCalculate (S ++ [t]) ≠ 0#8) ∧
  (∀ (s : State) (S : List Byte) (t : Byte), s.engine = none → bufferHolds s (S ++ [t]) →
    exec .crcCheck s = .next (
      if t = crcCalculate S then s.completedWith .success 0#8 s.bufLen
      else s.completedWith (.protocol (.crc (crcCalculate (S ++ [t])))) (crcCalculate (S ++ [t])) s.bufLen)) ∧
  (∀ (s : Byte) (S T : List Byte), crcAppend (crcAppend s S) T = crcAppend s (S ++ T)) ∧
  (∀ c b : Byte, crcByte c b = (bitsOf b).foldl crcSerialStep c) ∧
  (∀ c b : Byte, crcByte c b = crcByte 0#8 (c ^^^ b))

/-- R106, R107: `CRC.CALC` and `CRC.APPEND` return the checksum of the buffer from seed 0 and from their immediate; no
other effect, whatever the driver, the pad and the line; a range that leaves `BUF` is refused. -/
def Obligations.CrcCommandsReturnTheChecksum : Prop :=
  ∀ (s : State) (seed : Byte), s.engine = none →
    (∀ data : List Byte, bufferHolds s data →
      exec .crcCalc s = .next (s.completedWith .success (data.foldl crcByte 0#8) s.bufLen) ∧
      exec (.crcAppend seed) s = .next (s.completedWith .success (data.foldl crcByte seed) s.bufLen)) ∧
    (s.bufAddr.toNat + s.bufLen.toNat > s.params.bufSize →
      exec .crcCalc s = .next (s.refusedWith .bufRange) ∧ exec (.crcAppend seed) s = .next (s.refusedWith .bufRange))

/-- R108: `CRC.CHECK` succeeds iff the checksum over the whole buffer is 0, and reports the computed value otherwise; a
range that leaves `BUF` is refused; a single byte checks iff it is 0. -/
def Obligations.CrcCheckSucceedsIffZero : Prop :=
  (∀ s : State, s.engine = none →
    (∀ data : List Byte, bufferHolds s data →
      exec .crcCheck s = .next (
        if data.foldl crcByte 0#8 = 0#8 then s.completedWith .success 0#8 s.bufLen
        else s.completedWith (.protocol (.crc (data.foldl crcByte 0#8))) (data.foldl crcByte 0#8) s.bufLen)) ∧
    (s.bufAddr.toNat + s.bufLen.toNat > s.params.bufSize → exec .crcCheck s = .next (s.refusedWith .bufRange))) ∧
  ∀ b : Byte, [b].foldl crcByte 0#8 = 0#8 ↔ b = 0#8

/-- R110: empty input gives 0, the seed, and success, as functions and as commands, for every `BUF_ADDR` up to
`BUF_SIZE`. -/
def Obligations.EmptyInputGivesTheSeed : Prop :=
  crcCalculate [] = 0#8 ∧ (∀ seed, crcAppend seed [] = seed) ∧
  ∀ (s : State) (seed : Byte), s.engine = none → s.bufLen = 0#32 → s.bufAddr.toNat ≤ s.params.bufSize →
    exec .crcCalc s = .next (s.completedWith .success 0#8 0#32) ∧
    exec (.crcAppend seed) s = .next (s.completedWith .success seed 0#32) ∧
    exec .crcCheck s = .next (s.completedWith .success 0#8 0#32)

/-- The model's choice in log 4 (U6): a command that reads `BUF` stops at the first byte of its range that nothing has
written since reset: a CRC command; `WR.BYTES`, where every pin micro-operation for the bytes before it is answered Ok. -/
def Obligations.CommandsStopAtAnUnwrittenByte : Prop :=
  ∀ (s : State) (j : Nat) (seed : Byte), s.engine = none → s.bufAddr.toNat + s.bufLen.toNat ≤ s.params.bufSize →
    j < s.bufLen.toNat → (∀ k < j, s.readBuf (s.bufAddr.toNat + k) ≠ none) →
    s.readBuf (s.bufAddr.toNat + j) = none →
    exec .crcCalc s = .fault (.unwrittenBuf (s.bufAddr.toNat + j)) ∧
    exec (.crcAppend seed) s = .fault (.unwrittenBuf (s.bufAddr.toNat + j)) ∧
    exec .crcCheck s = .fault (.unwrittenBuf (s.bufAddr.toNat + j)) ∧
    (s.init = true → (∀ q < 16 * j, (s.answerAt q).isOk = true) →
      exec .wrBytes s = .fault (.unwrittenBuf (s.bufAddr.toNat + j)))

/-- R100: the CRC unit has no input but its operands: two states that agree on the buffer operand get the same answer,
whatever else differs between them. -/
def Obligations.CrcDependsOnlyOnItsOperands : Prop :=
  ∀ (i : Instr) (s₁ s₂ t₁ : State), i = .crcCalc ∨ i = .crcCheck ∨ (∃ seed, i = .crcAppend seed) →
    s₁.engine = none → s₂.engine = none → s₁.bufAddr = s₂.bufAddr → s₁.bufLen = s₂.bufLen →
    (∀ j < s₁.bufLen.toNat, s₁.readBuf (s₁.bufAddr.toNat + j) = s₂.readBuf (s₁.bufAddr.toNat + j)) →
    s₁.bufAddr.toNat + s₁.bufLen.toNat ≤ s₁.params.bufSize → s₁.bufAddr.toNat + s₁.bufLen.toNat ≤ s₂.params.bufSize →
    exec i s₁ = .next t₁ →
    ∃ t₂, exec i s₂ = .next t₂ ∧ t₂.result = t₁.result ∧ t₂.errinfo = t₁.errinfo ∧ t₂.xferCnt = t₁.xferCnt ∧
      t₂.err = t₁.err

/-! ### Timing configuration -/

/-- R123: `T.PRESET` loads the six durations and cannot fail. -/
def Obligations.PresetLoadsTheSixDurations : Prop :=
  ∀ s : State, s.engine = none →
    exec .tPreset s = .next ({ s with timing :=
      ⟨s.params.presetA, s.params.presetB, s.params.presetC, s.params.presetD, s.params.presetE, s.params.presetF⟩
      }.completedWith .success 0#8 0#32)

/-- R122: a timing register takes the written value as given; no other register changes; a write while busy is refused. -/
def Obligations.TimingRegisterTakesTheWrittenValue : Prop :=
  ∀ (s : State) (rest : List HostAction) (v : Word) (off : HostAddr) (t : Timing),
    (off, t) ∈ [(0x20, { s.timing with a := v }), (0x24, { s.timing with b := v }), (0x28, { s.timing with c := v }),
      (0x2C, { s.timing with d := v }), (0x30, { s.timing with e := v }), (0x34, { s.timing with f := v })] →
    s.host = .write .word off v :: rest →
    step s = .next (if s.busy then { s with host := rest }.refusedWith .busyWrite
      else { s with host := rest, timing := t })

/-- R23, 41_timing_config.md: the six durations are constant while a command runs: only reset, a host write with
`BUSY` = 0, `T.PRESET` and a successful `INIT` change them. -/
def Obligations.DurationsAreConstantWhileACommandRuns : Prop :=
  ∀ s t : State, step s = .next t → t.timing ≠ s.timing →
    (∃ rest, s.host = .reset :: rest) ∨
    (s.busy = false ∧ ∃ off v rest, s.host = .write .word off v :: rest ∧
      0x20 ≤ s.params.portAddr off ∧ s.params.portAddr off ≤ 0x34) ∨
    (s.busy = false ∧ ∃ w rest, s.host = .call w :: rest ∧ (decode w = .ok .tPreset ∨ decode w = .ok .init)) ∨
    (t.busy = false ∧ ∃ e, s.engine = some e ∧ (e.cmd = .tPreset ∨ e.cmd = .init))

/-! ### Driver construction and primitives -/

/-- R132: `INIT` performs one release; on Ok the driver exists with the preset, on Err(e) there is no driver, the
durations stay and the error is `Pin(e)`; where a driver exists it is refused. -/
def Obligations.InitConstructsTheDriver : Prop :=
  ∀ s : State, s.engine = none →
    (s.init = true → exec .init s = .next (s.refusedWith .alreadyInit)) ∧
    (s.init = false →
      match s.answerAt 0 with
      | .ok _ => exec .init s = .next ({ s.afterOps 1 [.rel] false with
          timing := ⟨s.params.presetA, s.params.presetB, s.params.presetC, s.params.presetD, s.params.presetE,
            s.params.presetF⟩,
          init := true }.completedWith .success 0#8 0#32)
      | .err e => exec .init s = .next ((s.afterOps 1 [.relFail e] s.drvlow).completedWith (.pin e) 0#8 0#32))

/-- R133: `DROP` releases without a pin micro-operation, so it cannot fail, and the driver is gone; without a driver it is
refused. -/
def Obligations.DropReleasesTheLine : Prop :=
  ∀ s : State, s.engine = none →
    (s.init = false → exec .drop s = .next (s.refusedWith .notInit)) ∧
    (s.init = true →
      exec .drop s = .next ({ s.afterOps 0 [.dropped] false with init := false }.completedWith .success 0#8 0#32))

/-- R134: `SET.HIGH` is one release: `DRVLOW` 0 on Ok, unchanged on Err(e); without a driver it is refused. -/
def Obligations.SetHighReleases : Prop :=
  ∀ s : State, s.engine = none →
    (s.init = false → exec .setHigh s = .next (s.refusedWith .notInit)) ∧
    (s.init = true →
      match s.answerAt 0 with
      | .ok _ => exec .setHigh s = .next ((s.afterOps 1 [.rel] false).completedWith .success 0#8 0#32)
      | .err e => exec .setHigh s = .next ((s.afterOps 1 [.relFail e] s.drvlow).completedWith (.pin e) 0#8 0#32))

/-- R135: `SET.LOW` is one pull: `DRVLOW` 1 on Ok, unchanged on Err(e); without a driver it is refused. -/
def Obligations.SetLowPullsLow : Prop :=
  ∀ s : State, s.engine = none →
    (s.init = false → exec .setLow s = .next (s.refusedWith .notInit)) ∧
    (s.init = true →
      match s.answerAt 0 with
      | .ok _ => exec .setLow s = .next ((s.afterOps 1 [.low] true).completedWith .success 0#8 0#32)
      | .err e => exec .setLow s = .next ((s.afterOps 1 [.lowFail e] s.drvlow).completedWith (.pin e) 0#8 0#32))

/-- R136, R137: `IS.HIGH` returns the sample, `IS.LOW` the complement of the same sample; `DRVLOW` is not touched; without
a driver both are refused. -/
def Obligations.QueriesReturnTheSample : Prop :=
  ∀ s : State, s.engine = none →
    (s.init = false →
      exec .isHigh s = .next (s.refusedWith .notInit) ∧ exec .isLow s = .next (s.refusedWith .notInit)) ∧
    (s.init = true →
      match s.answerAt 0 with
      | .ok v =>
        exec .isHigh s = .next ((s.afterOps 1 [.sample v] s.drvlow).completedWith .success (if v then 1#8 else 0#8) 0#32) ∧
        exec .isLow s = .next ((s.afterOps 1 [.sample v] s.drvlow).completedWith .success (if v then 0#8 else 1#8) 0#32)
      | .err e =>
        exec .isHigh s = .next ((s.afterOps 1 [.sampleFail e] s.drvlow).completedWith (.pin e) 0#8 0#32) ∧
        exec .isLow s = .next ((s.afterOps 1 [.sampleFail e] s.drvlow).completedWith (.pin e) 0#8 0#32))

/-- R138: `DELAY` waits `ARG` nanoseconds, cannot fail and leaves the line alone; without a driver it is refused. -/
def Obligations.DelayWaitsArg : Prop :=
  ∀ s : State, s.engine = none →
    (s.init = false → exec .delay s = .next (s.refusedWith .notInit)) ∧
    (s.init = true →
      exec .delay s = .next ((s.afterOps 0 [.wait s.arg] s.drvlow).completedWith .success 0#8 0#32) ∧
      (s.afterOps 0 [.wait s.arg] s.drvlow).now = s.now + s.arg.toNat)

/-! ### Bit slots -/

/-- R151: `RD.BIT` with its three pin micro-operations answered Ok. -/
def Obligations.ReadSlotReturnsTheSample : Prop :=
  ∀ s : State, s.engine = none → s.init = true → (∀ q < 3, (s.answerAt q).isOk = true) →
    exec .rdBit s = .next ((s.afterOps 3
      [.low, .wait s.timing.a, .rel, .wait s.timing.e, .sample (s.sampleAt 0), .wait s.timing.f]
      false).completedWith .success (if s.sampleAt 0 then 1#8 else 0#8) 0#32)

/-- R152: `WR.BIT b` with its two pin micro-operations answered Ok; the line is never sampled. -/
def Obligations.WriteSlotEncodesTheBitInItsTiming : Prop :=
  ∀ s : State, s.engine = none → s.init = true → (∀ q < 2, (s.answerAt q).isOk = true) →
    exec (.wrBit true) s = .next ((s.afterOps 2 [.low, .wait s.timing.a, .rel, .wait s.timing.b]
      false).completedWith .success 0#8 0#32) ∧
    exec (.wrBit false) s = .next ((s.afterOps 2 [.low, .wait s.timing.c, .rel, .wait s.timing.d]
      false).completedWith .success 0#8 0#32)

/-- R154: a slot ends at the pin micro-operation that fails, with the error forwarded; which steps were done, and what
`DRVLOW` is then. -/
def Obligations.SlotEndsAtTheFailingStep : Prop :=
  ∀ (s : State) (e : PinErr), s.engine = none → s.init = true →
    (s.answerAt 0 = .err e →
      exec .rdBit s = .next ((s.afterOps 1 [.lowFail e] s.drvlow).completedWith (.pin e) 0#8 0#32) ∧
      ∀ b, exec (.wrBit b) s = .next ((s.afterOps 1 [.lowFail e] s.drvlow).completedWith (.pin e) 0#8 0#32)) ∧
    ((s.answerAt 0).isOk = true → s.answerAt 1 = .err e →
      exec .rdBit s = .next ((s.afterOps 2 [.low, .wait s.timing.a, .relFail e] true).completedWith (.pin e) 0#8 0#32) ∧
      exec (.wrBit true) s =
        .next ((s.afterOps 2 [.low, .wait s.timing.a, .relFail e] true).completedWith (.pin e) 0#8 0#32) ∧
      exec (.wrBit false) s =
        .next ((s.afterOps 2 [.low, .wait s.timing.c, .relFail e] true).completedWith (.pin e) 0#8 0#32)) ∧
    ((s.answerAt 0).isOk = true → (s.answerAt 1).isOk = true → s.answerAt 2 = .err e →
      exec .rdBit s = .next ((s.afterOps 3 [.low, .wait s.timing.a, .rel, .wait s.timing.e, .sampleFail e]
        false).completedWith (.pin e) 0#8 0#32))

/-! ### Byte transfers -/

/-- R161: `RD.BYTE` with its 24 pin micro-operations answered Ok: eight read slots, the first sample in bit 0. -/
def Obligations.ReadByteCollectsLsbFirst : Prop :=
  ∀ s : State, s.engine = none → s.init = true → (∀ q < 24, (s.answerAt q).isOk = true) →
    ∃ x : Byte, (∀ i < 8, x.getLsbD i = s.sampleAt i) ∧
      exec .rdByte s = .next ((s.afterOps 24 (s.readSlots 8) false).completedWith .success x 1#32)

/-- R161: `RD.BYTE` ends at any of its 24 pin micro-operations that fails; the bits received are discarded. -/
def Obligations.ReadByteEndsAtTheFailingStep : Prop :=
  ∀ (s : State) (p : Nat) (e : PinErr), s.engine = none → s.init = true → p < 24 →
    (∀ q < p, (s.answerAt q).isOk = true) → s.answerAt p = .err e →
    exec .rdByte s = .next ((s.afterOps (p + 1) (s.readTraceAt p e)
      (abortDrvlow s.drvlow (p / 3) (p % 3))).completedWith (.pin e) 0#8 0#32)

/-- R162: `WR.BYTE x` with its 16 pin micro-operations answered Ok: eight write slots, bit 0 first, and the time the
rule gives. -/
def Obligations.WriteByteSendsLsbFirst : Prop :=
  ∀ (s : State) (x : Byte), s.engine = none → s.init = true → (∀ q < 16, (s.answerAt q).isOk = true) →
    ∃ t, exec (.wrByte x) s = .next t ∧
      t = (s.afterOps 16 ((List.range 8).flatMap fun i => writeSlotTrace s.timing (x.getLsbD i))
        false).completedWith .success 0#8 1#32 ∧
      t.now = s.now + (onesOf x * (s.timing.a.toNat + s.timing.b.toNat)
        + (8 - onesOf x) * (s.timing.c.toNat + s.timing.d.toNat))

/-- R162: `WR.BYTE x` ends at any of its 16 pin micro-operations that fails. -/
def Obligations.WriteByteEndsAtTheFailingStep : Prop :=
  ∀ (s : State) (x : Byte) (p : Nat) (e : PinErr), s.engine = none → s.init = true → p < 16 →
    (∀ q < p, (s.answerAt q).isOk = true) → s.answerAt p = .err e →
    exec (.wrByte x) s = .next ((s.afterOps (p + 1) (writeTraceAt s.timing (bitsOf x) p e)
      (abortDrvlow s.drvlow (p / 2) (p % 2))).completedWith (.pin e) 0#8 0#32)

/-- R163: `RD.BYTES` with every answer Ok: `BUF_LEN` bytes from `BUF_ADDR` on, each of its eight samples, `BUF` outside
the range as before, `XFER_CNT` = `BUF_LEN`. -/
def Obligations.ReadBytesFillsTheRange : Prop :=
  ∀ s : State, s.engine = none → s.init = true → s.bufAddr.toNat + s.bufLen.toNat ≤ s.params.bufSize →
    (∀ q < 24 * s.bufLen.toNat, (s.answerAt q).isOk = true) →
    ∃ m : Memory,
      exec .rdBytes s = .next (({ s with buf := m }.afterOps (24 * s.bufLen.toNat) (s.readSlots (8 * s.bufLen.toNat))
        (if s.bufLen = 0#32 then s.drvlow else false)).completedWith .success 0#8 s.bufLen) ∧
      (∀ j < s.bufLen.toNat, ∃ x : Byte, m.read (s.bufAddr.toNat + j) = some x ∧
        ∀ i < 8, x.getLsbD i = s.sampleAt (8 * j + i)) ∧
      (∀ i, (i < s.bufAddr.toNat ∨ s.bufAddr.toNat + s.bufLen.toNat ≤ i) → m.read i = s.readBuf i)

/-- R163, R165: `RD.BYTES` ends at the pin micro-operation that fails: the bytes before it are stored, the partly
received byte and the rest of the range are unchanged, `XFER_CNT` is the index of that byte. -/
def Obligations.ReadBytesKeepsTheBytesBeforeTheFailure : Prop :=
  ∀ (s : State) (p : Nat) (e : PinErr), s.engine = none → s.init = true →
    s.bufAddr.toNat + s.bufLen.toNat ≤ s.params.bufSize → p < 24 * s.bufLen.toNat →
    (∀ q < p, (s.answerAt q).isOk = true) → s.answerAt p = .err e →
    ∃ m : Memory,
      exec .rdBytes s = .next (({ s with buf := m }.afterOps (p + 1) (s.readTraceAt p e)
        (abortDrvlow s.drvlow (p / 3) (p % 3))).completedWith (.pin e) 0#8 (BitVec.ofNat 32 (p / 24))) ∧
      (∀ j < p / 24, ∃ x : Byte, m.read (s.bufAddr.toNat + j) = some x ∧
        ∀ i < 8, x.getLsbD i = s.sampleAt (8 * j + i)) ∧
      (∀ i, (i < s.bufAddr.toNat ∨ s.bufAddr.toNat + p / 24 ≤ i) → m.read i = s.readBuf i)

/-- R164: `WR.BYTES` with every answer Ok: the bytes of the range in order, each LSB first; `BUF` is only read. -/
def Obligations.WriteBytesSendsTheRange : Prop :=
  ∀ (s : State) (data : List Byte), s.engine = none → s.init = true → bufferHolds s data →
    (∀ q < 16 * data.length, (s.answerAt q).isOk = true) →
    exec .wrBytes s = .next ((s.afterOps (16 * data.length) (writeBitsTrace s.timing (bitsOfBytes data))
      (if data = [] then s.drvlow else false)).completedWith .success 0#8 s.bufLen)

/-- R164, R165: `WR.BYTES` ends at the pin micro-operation that fails, in the byte `p / 16`; only the bytes up to that
one need have been written. -/
def Obligations.WriteBytesEndsAtTheFailingStep : Prop :=
  ∀ (s : State) (data : List Byte) (p : Nat) (e : PinErr), s.engine = none → s.init = true →
    s.bufAddr.toNat + s.bufLen.toNat ≤ s.params.bufSize → data.length ≤ s.bufLen.toNat →
    (∀ j (h : j < data.length), s.readBuf (s.bufAddr.toNat + j) = some data[j]) →
    p < 16 * data.length → (∀ q < p, (s.answerAt q).isOk = true) → s.answerAt p = .err e →
    exec .wrBytes s = .next ((s.afterOps (p + 1) (writeTraceAt s.timing (bitsOfBytes data) p e)
      (abortDrvlow s.drvlow (p / 2) (p % 2))).completedWith (.pin e) 0#8 (BitVec.ofNat 32 (p / 16)))

/-- R167: a buffer transfer of length 0 does nothing on the line and succeeds, for every `BUF_ADDR` up to `BUF_SIZE`. -/
def Obligations.ZeroLengthTransfersDoNothing : Prop :=
  ∀ s : State, s.engine = none → s.init = true → s.bufLen = 0#32 → s.bufAddr.toNat ≤ s.params.bufSize →
    exec .rdBytes s = .next (s.completedWith .success 0#8 0#32) ∧
    exec .wrBytes s = .next (s.completedWith .success 0#8 0#32)

/-- R168: on success, `RD.BYTES` and as many `RD.BYTE` command lines (two steps each, the command and its poll) leave the
same trace, time and line, and byte `j` of the range is the result of the `j`-th `RD.BYTE`; `RD.BYTE` and eight `RD.BIT`
likewise, bit by bit. -/
def Obligations.ReadTransfersEqualTheirParts : Prop :=
  (∀ s : State, s.engine = none → s.init = true → s.bufAddr.toNat + s.bufLen.toNat ≤ s.params.bufSize →
    (∀ q < 24 * s.bufLen.toNat, (s.answerAt q).isOk = true) →
    ∃ t, exec .rdBytes s = .next t ∧ ∀ n ≤ s.bufLen.toNat, ∃ u,
      Host.Core.run Sys2Proof.core (2 * n) { s with host := List.replicate n (.call 0x00000050#32) } = .next u ∧
      (0 < n → t.readBuf (s.bufAddr.toNat + (n - 1)) = some u.result) ∧
      (n = s.bufLen.toNat → u.trace = t.trace ∧ u.now = t.now ∧ u.drvlow = t.drvlow)) ∧
  (∀ s : State, s.engine = none → s.init = true → (∀ q < 24, (s.answerAt q).isOk = true) →
    ∃ t, exec .rdByte s = .next t ∧ ∀ n ≤ 8, ∃ u,
      Host.Core.run Sys2Proof.core (2 * n) { s with host := List.replicate n (.call 0x00000040#32) } = .next u ∧
      (0 < n → u.result = if t.result.getLsbD (n - 1) then 1#8 else 0#8) ∧
      (n = 8 → u.trace = t.trace ∧ u.now = t.now ∧ u.drvlow = t.drvlow))

/-- R168: on success, `WR.BYTES` leaves the trace, time and line of the `WR.BYTE` command lines of its bytes (two steps
each, the command and its poll), and `WR.BYTE x` those of `WR.BIT x[0]`, .., `WR.BIT x[7]`. -/
def Obligations.WriteTransfersEqualTheirParts : Prop :=
  (∀ (s : State) (data : List Byte), s.engine = none → s.init = true → bufferHolds s data →
    (∀ q < 16 * data.length, (s.answerAt q).isOk = true) →
    ∃ t u, exec .wrBytes s = .next t ∧
      Host.Core.run Sys2Proof.core (2 * data.length)
        { s with host := data.map fun x => .call (encode (.wrByte x)) } = .next u ∧
      u.trace = t.trace ∧ u.now = t.now ∧ u.drvlow = t.drvlow) ∧
  (∀ (s : State) (x : Byte), s.engine = none → s.init = true → (∀ q < 16, (s.answerAt q).isOk = true) →
    ∃ t u, exec (.wrByte x) s = .next t ∧
      Host.Core.run Sys2Proof.core 16
        { s with host := (bitsOf x).map fun b => .call (encode (.wrBit b)) } = .next u ∧
      u.trace = t.trace ∧ u.now = t.now ∧ u.drvlow = t.drvlow)

/-- R166: for every byte there is one list of eight bits, its least-significant bit first, that `WR.BYTE` sends as its
write slots, in order, and that makes `RD.BYTE` return the byte when its samples, in order, are these bits. -/
def Obligations.EchoedByteIsReadBack : Prop :=
  ∀ x : Byte, ∃ bits : List Bool, bits.length = 8 ∧ (∀ i < 8, bits[i]? = some (x.getLsbD i)) ∧
    (∀ s : State, s.engine = none → s.init = true → (∀ q < 16, (s.answerAt q).isOk = true) →
      ∃ t, exec (.wrByte x) s = .next t ∧ t.err = false ∧ t.trace = s.trace ++ writeBitsTrace s.timing bits) ∧
    (∀ s : State, s.engine = none → s.init = true → (∀ q < 24, (s.answerAt q).isOk = true) →
      (List.range 8).map s.sampleAt = bits → ∃ t, exec .rdByte s = .next t ∧ t.result = x ∧ t.err = false)

/-- R230: the model time of each command whose pin micro-operations are all answered Ok, as the sum of its waits. -/
def Obligations.CommandsTakeTheSumOfTheirWaits : Prop :=
  ∀ (s t : State) (i : Instr), refusalCauseOf (encode i) s = none →
    (∀ q < pinOps i s, (s.answerAt q).isOk = true) → exec i s = .next t →
    t.now = s.now + match i with
      | .delay => s.arg.toNat
      | .rdBit => s.timing.readTime
      | .wrBit true => s.timing.a.toNat + s.timing.b.toNat
      | .wrBit false => s.timing.c.toNat + s.timing.d.toNat
      | .rdByte => 8 * s.timing.readTime
      | .wrByte x => s.timing.writeByteTime x
      | .rdBytes => s.bufLen.toNat * (8 * s.timing.readTime)
      | .wrBytes => ((List.range s.bufLen.toNat).map fun j =>
          s.timing.writeByteTime ((s.readBuf (s.bufAddr.toNat + j)).getD 0#8)).sum
      | _ => 0

/-! ### Host interface -/

/-- R28, R189: the fields of the `STATUS` word and the codes of `HCAUSE`; reserved bits read 0. -/
def Obligations.StatusWordFields : Prop :=
  ∀ s : State, s.statusWord.getLsbD 0 = s.busy ∧ s.statusWord.getLsbD 1 = s.init ∧ s.statusWord.getLsbD 2 = s.err ∧
    s.statusWord.getLsbD 3 = s.drvlow ∧ s.statusWord.getLsbD 4 = s.hosterr ∧
    s.statusWord.extractLsb' 5 3 = 0#3 ∧ s.statusWord.extractLsb' 8 4 = causeCode s.hcause ∧
    s.statusWord.extractLsb' 12 20 = 0#20 ∧
    (∀ x ∈ ([(none, 0#4), (some .busyWrite, 1#4), (some .illegalOpcode, 2#4), (some .reservedField, 3#4),
        (some .notInit, 4#4), (some .alreadyInit, 5#4), (some .bufRange, 6#4), (some .badAccess, 7#4)] :
          List (Option RefusalCause × BitVec 4)),
      s.hcause = x.1 → s.statusWord.extractLsb' 8 4 = x.2)

/-- R181 with the codes of R183: the word of each error value; two error values are equal iff their `ERRINFO` words are; a
word reads back as an error value iff it is the word of that value and its pin code, if any, has `PIN_ERR_W` bits, so that
the words U9 reserves read back as none; in a state of the invariant no bit above `PINERR` is 1. The layout is that of R30
where `PIN_ERR_W` is at most 8. That the word of a wider code, up to 16 bits, has it in bits 31:24 too, which R30 reserves,
is the model's choice, log 8 (DESIGN CHOICE). -/
def Obligations.ErrinfoWordDeterminesTheError : Prop :=
  ErrorValue.success.word = 0#32 ∧
  (∀ e : PinErr, (ErrorValue.pin e).word = 0x01#32 ||| e.setWidth 32 <<< 16) ∧
  (ErrorValue.protocol .busNotHigh).word = 0x12#32 ∧ (ErrorValue.protocol .noAttachedDevices).word = 0x22#32 ∧
  (ErrorValue.protocol .timeout).word = 0x32#32 ∧
  (∀ c : Byte, (ErrorValue.protocol (.crc c)).word = 0x42#32 ||| c.setWidth 32 <<< 8) ∧
  (∀ o : Byte, (ErrorValue.protocol (.familyCode o)).word = 0x52#32 ||| o.setWidth 32 <<< 8) ∧
  (∀ o : Byte, (ErrorValue.protocol (.configurationRegister o)).word = 0x62#32 ||| o.setWidth 32 <<< 8) ∧
  (∀ v w : ErrorValue, v.word = w.word ↔ v = w) ∧
  (∀ (p : Params) (w : Word) (v : ErrorValue),
    ErrorValue.ofWord p w = some v ↔ w = v.word ∧ v.pinerr.toNat < 2 ^ p.pinErrW.val) ∧
  (∀ (s : State) (k : Nat), s.Inv → 16 + s.params.pinErrW.val ≤ k → s.errinfo.word.getLsbD k = false)

/-- R61, R67, R73: a 32-bit read of a mapped register returns its word and changes nothing, busy or not. -/
def Obligations.HostReadReturnsTheRegister : Prop :=
  ∀ (s : State) (rest : List HostAction) (off : HostAddr) (v : Word),
    (off, v) ∈ [(0x00, 0#32), (0x04, s.statusWord), (0x08, s.result.setWidth 32), (0x0C, s.errinfo.word),
      (0x10, s.arg), (0x14, s.bufAddr), (0x18, s.bufLen), (0x1C, s.xferCnt), (0x20, s.timing.a), (0x24, s.timing.b),
      (0x28, s.timing.c), (0x2C, s.timing.d), (0x30, s.timing.e), (0x34, s.timing.f)] →
    s.host = .read .word off :: rest → step s = .next { s with host := rest, hostData := v }

/-- R31, R32: the operand registers take any written value. -/
def Obligations.OperandRegistersTakeTheWrittenValue : Prop :=
  ∀ (s : State) (rest : List HostAction) (v : Word), s.engine = none →
    (s.host = .write .word 0x10 v :: rest → step s = .next { s with host := rest, arg := v }) ∧
    (s.host = .write .word 0x14 v :: rest → step s = .next { s with host := rest, bufAddr := v }) ∧
    (s.host = .write .word 0x18 v :: rest → step s = .next { s with host := rest, bufLen := v })

/-- R64: every other access is refused `BAD_ACCESS`; a refused read returns 0; a write to a read-only register is
refused too, busy or not (log 13). -/
def Obligations.IllegalAccessesAreRefused : Prop :=
  ∀ (s : State) (rest : List HostAction) (size : AccessSize) (addr : HostAddr) (v : Word),
    (¬ legalAccess s.params size addr → s.host = .read size addr :: rest →
      step s = .next { { s with host := rest }.refusedWith .badAccess with hostData := 0#32 }) ∧
    (¬ legalAccess s.params size addr ∨ (size = .word ∧ s.params.portAddr addr ∈ [0x04, 0x08, 0x0C, 0x1C]) →
      s.host = .write size addr v :: rest → step s = .next ({ s with host := rest }.refusedWith .badAccess))

/-- R73: while `BUSY` = 1 a write to `CMD`, to a read/write register or to the window is refused `BUSY_WRITE` and
changes nothing else. -/
def Obligations.WritesWhileBusyAreRefused : Prop :=
  ∀ (s : State) (rest : List HostAction) (size : AccessSize) (addr : HostAddr) (v : Word), s.busy = true →
    legalAccess s.params size addr → s.params.portAddr addr ∉ [0x04, 0x08, 0x0C, 0x1C] →
    s.host = .write size addr v :: rest →
    step s = .next ({ s with host := rest }.refusedWith .busyWrite)

/-- R63: a byte written to the window is stored at its index and at no other, and a read of it returns it. Where the byte
stands on the 32 data lines is the model's choice (bits 7:0; zeros above on a read), log 15; that the read of a byte
nothing has written stops is the model's choice too, log 4. -/
def Obligations.WindowByteReadsBackAsWritten : Prop :=
  ∀ (s : State) (rest : List HostAction) (i : Nat) (v : Word), i < s.params.bufSize →
    (s.engine = none → s.host = .write .byte (0x100 + i) v :: rest →
      ∃ m : Memory, step s = .next { s with host := rest, buf := m } ∧ m.read i = some (v.extractLsb' 0 8) ∧
        ∀ j, j ≠ i → m.read j = s.readBuf j) ∧
    (s.host = .read .byte (0x100 + i) :: rest →
      (∀ b, s.readBuf i = some b → step s = .next { s with host := rest, hostData := b.setWidth 32 }) ∧
      (s.readBuf i = none → step s = .fault (.unwrittenBuf i)))

/-! ### Whole machine -/

/-- The invariant holds after reset, whatever the parameters. -/
def Obligations.InvariantHoldsAfterReset : Prop := ∀ p : Params, (State.resetFor p).Inv

/-- Every step keeps the parameters of the block (R39), and the invariant (R24, R25, R30, R34, R43, R66, R71, R184, R185,
R189): `BUF` canonical and inside its size, `ERR` and `HOSTERR` coherent with their registers, a pin error code in
`PIN_ERR_W` bits, no protocol error but a non-zero `Crc`, the line released when no driver exists, the transient state
coherent. -/
def Obligations.EveryStepKeepsTheInvariant : Prop :=
  ∀ s t : State, step s = .next t → t.params = s.params ∧ (s.Inv → t.Inv)

/-- R24, R25, R131, R133: whatever the host does and however the pad answers, a block without a driver never pulls the
line low. The run starts from the reset state with any host actions and any script of answers. -/
def Obligations.WithoutADriverTheLineIsReleased : Prop :=
  ∀ (p : Params) (actions : List HostAction) (script : List PinAnswer) (k : Nat) (t : State),
    Host.Core.run Sys2Proof.core k { State.resetFor p with host := actions, padScript := script } = .next t →
    t.init = false → t.padPullLow = false

/-- R10, R11, R12, R25: the trace only grows; `now` advances by exactly the waits it gains, and `DRVLOW` is what the last
`LOW`, `REL` or `DROPPED` it gains left, unchanged where it gains none of them. That a step with `rst` gains no part of a
wait is the model's choice, log 24 (DESIGN CHOICE). -/
def Obligations.TraceGivesTimeAndTheLineRequest : Prop :=
  ∀ s t : State, step s = .next t →
    ∃ evs : List Event, t.trace = s.trace ++ evs ∧ t.now = s.now + traceTime evs ∧
      t.drvlow = driveAfter s.drvlow evs

/-- R29, R33, R73, R186, R226: `RESULT`, `ERRINFO`, `XFER_CNT` and `ERR` change only by reset or where a command
completes, the running one or that of a command line; the block is not busy then. -/
def Obligations.ResultsChangeOnlyAtCompletion : Prop :=
  ∀ s t : State, step s = .next t →
    t.result ≠ s.result ∨ t.errinfo ≠ s.errinfo ∨ t.xferCnt ≠ s.xferCnt ∨ t.err ≠ s.err →
    t.busy = false ∧
    ((∃ rest, s.host = .reset :: rest) ∨
     (s.busy = true ∧ (s.host = [] ∨ ∃ rest, s.host = .pass :: rest ∨ s.host = .poll :: rest)) ∨
     (s.busy = false ∧ ∃ w rest, s.host = .call w :: rest ∧ refusalCauseOf w s = none))

/-- The frame of every command (R84, R39, 10_state.md section 4): the parameters and the operand registers are never
written; the driver flag only by `INIT` and `DROP`, the durations only by `T.PRESET` and `INIT`, `BUF` only by `RD.BYTES`
inside its range, `DRVLOW` and the pad only by the driver commands. -/
def Obligations.FrameOfEveryCommand : Prop :=
  ∀ (i : Instr) (s t : State), exec i s = .next t →
    t.params = s.params ∧
    t.arg = s.arg ∧ t.bufAddr = s.bufAddr ∧ t.bufLen = s.bufLen ∧ t.host = s.host ∧ t.hostData = s.hostData ∧
    (i ≠ .init → i ≠ .drop → t.init = s.init) ∧
    (i ≠ .init → i ≠ .tPreset → t.timing = s.timing) ∧
    (i ≠ .rdBytes → t.buf = s.buf) ∧
    (∀ a, (a < s.bufAddr.toNat ∨ s.bufAddr.toNat + s.bufLen.toNat ≤ a) → t.readBuf a = s.readBuf a) ∧
    (i ∈ [.crcCalc, .crcCheck, .tPreset, .isHigh, .isLow, .delay] ∨ (∃ seed, i = .crcAppend seed) →
      t.drvlow = s.drvlow) ∧
    (i ∈ [.crcCalc, .crcCheck, .tPreset, .drop, .delay] ∨ (∃ seed, i = .crcAppend seed) →
      t.padOps = s.padOps ∧ t.padScript = s.padScript) ∧
    (i ∈ [.crcCalc, .crcCheck, .tPreset] ∨ (∃ seed, i = .crcAppend seed) → t.trace = s.trace ∧ t.now = s.now)

/-- R182, R184, R188: the error a completed command reports: none only where every pin micro-operation it made was
answered Ok; `Pin(e)` only where one was answered Err(e), the last one it made and the first to fail; `Protocol(Crc, c)`
with `c` not 0 only from `CRC.CHECK`; nothing else. -/
def Obligations.EveryErrorIsPinOrCrc : Prop :=
  ∀ (i : Instr) (s t : State), refusalCauseOf (encode i) s = none → exec i s = .next t →
    match t.errinfo with
    | .success => ∀ p, s.padOps + p < t.padOps → (s.answerAt p).isOk = true
    | .pin e => ∃ q, t.padOps = s.padOps + q + 1 ∧ s.answerAt q = .err e ∧ (∀ p < q, (s.answerAt p).isOk = true) ∧
        i ∉ [.drop, .delay, .tPreset, .crcCalc, .crcCheck] ∧ ∀ seed, i ≠ .crcAppend seed
    | .protocol p => i = .crcCheck ∧ ∃ c, c ≠ 0#8 ∧ p = .crc c ∧ t.result = c
end

