-- ==== Sys2Proof/Laws/State.lean ====
section
/-! SUPPORT. One lemma per field of State per shared update: what each operation of Ops.lean does to each field. -/

namespace Sys2Proof.Machine

/-! ### useAnswers -/

@[simp] theorem State.useAnswers_params (s : State) (k : Nat) : (s.useAnswers k).params = s.params := rfl
@[simp] theorem State.useAnswers_timing (s : State) (k : Nat) : (s.useAnswers k).timing = s.timing := rfl
@[simp] theorem State.useAnswers_init (s : State) (k : Nat) : (s.useAnswers k).init = s.init := rfl
@[simp] theorem State.useAnswers_drvlow (s : State) (k : Nat) : (s.useAnswers k).drvlow = s.drvlow := rfl
@[simp] theorem State.useAnswers_err (s : State) (k : Nat) : (s.useAnswers k).err = s.err := rfl
@[simp] theorem State.useAnswers_hosterr (s : State) (k : Nat) : (s.useAnswers k).hosterr = s.hosterr := rfl
@[simp] theorem State.useAnswers_hcause (s : State) (k : Nat) : (s.useAnswers k).hcause = s.hcause := rfl
@[simp] theorem State.useAnswers_result (s : State) (k : Nat) : (s.useAnswers k).result = s.result := rfl
@[simp] theorem State.useAnswers_errinfo (s : State) (k : Nat) : (s.useAnswers k).errinfo = s.errinfo := rfl
@[simp] theorem State.useAnswers_arg (s : State) (k : Nat) : (s.useAnswers k).arg = s.arg := rfl
@[simp] theorem State.useAnswers_bufAddr (s : State) (k : Nat) : (s.useAnswers k).bufAddr = s.bufAddr := rfl
@[simp] theorem State.useAnswers_bufLen (s : State) (k : Nat) : (s.useAnswers k).bufLen = s.bufLen := rfl
@[simp] theorem State.useAnswers_xferCnt (s : State) (k : Nat) : (s.useAnswers k).xferCnt = s.xferCnt := rfl
@[simp] theorem State.useAnswers_buf (s : State) (k : Nat) : (s.useAnswers k).buf = s.buf := rfl
@[simp] theorem State.useAnswers_engine (s : State) (k : Nat) : (s.useAnswers k).engine = s.engine := rfl
@[simp] theorem State.useAnswers_host (s : State) (k : Nat) : (s.useAnswers k).host = s.host := rfl
@[simp] theorem State.useAnswers_hostData (s : State) (k : Nat) : (s.useAnswers k).hostData = s.hostData := rfl
@[simp] theorem State.useAnswers_padScript (s : State) (k : Nat) : (s.useAnswers k).padScript = s.padScript.drop k := rfl
@[simp] theorem State.useAnswers_padOps (s : State) (k : Nat) : (s.useAnswers k).padOps = s.padOps + k := rfl
@[simp] theorem State.useAnswers_trace (s : State) (k : Nat) : (s.useAnswers k).trace = s.trace := rfl
@[simp] theorem State.useAnswers_now (s : State) (k : Nat) : (s.useAnswers k).now = s.now := rfl

/-! ### emit -/

@[simp] theorem State.emit_params (s : State) (ev : Event) : (s.emit ev).params = s.params := rfl
@[simp] theorem State.emit_timing (s : State) (ev : Event) : (s.emit ev).timing = s.timing := rfl
@[simp] theorem State.emit_init (s : State) (ev : Event) : (s.emit ev).init = s.init := rfl
@[simp] theorem State.emit_drvlow (s : State) (ev : Event) : (s.emit ev).drvlow = s.drvlow := rfl
@[simp] theorem State.emit_err (s : State) (ev : Event) : (s.emit ev).err = s.err := rfl
@[simp] theorem State.emit_hosterr (s : State) (ev : Event) : (s.emit ev).hosterr = s.hosterr := rfl
@[simp] theorem State.emit_hcause (s : State) (ev : Event) : (s.emit ev).hcause = s.hcause := rfl
@[simp] theorem State.emit_result (s : State) (ev : Event) : (s.emit ev).result = s.result := rfl
@[simp] theorem State.emit_errinfo (s : State) (ev : Event) : (s.emit ev).errinfo = s.errinfo := rfl
@[simp] theorem State.emit_arg (s : State) (ev : Event) : (s.emit ev).arg = s.arg := rfl
@[simp] theorem State.emit_bufAddr (s : State) (ev : Event) : (s.emit ev).bufAddr = s.bufAddr := rfl
@[simp] theorem State.emit_bufLen (s : State) (ev : Event) : (s.emit ev).bufLen = s.bufLen := rfl
@[simp] theorem State.emit_xferCnt (s : State) (ev : Event) : (s.emit ev).xferCnt = s.xferCnt := rfl
@[simp] theorem State.emit_buf (s : State) (ev : Event) : (s.emit ev).buf = s.buf := rfl
@[simp] theorem State.emit_engine (s : State) (ev : Event) : (s.emit ev).engine = s.engine := rfl
@[simp] theorem State.emit_host (s : State) (ev : Event) : (s.emit ev).host = s.host := rfl
@[simp] theorem State.emit_hostData (s : State) (ev : Event) : (s.emit ev).hostData = s.hostData := rfl
@[simp] theorem State.emit_padScript (s : State) (ev : Event) : (s.emit ev).padScript = s.padScript := rfl
@[simp] theorem State.emit_padOps (s : State) (ev : Event) : (s.emit ev).padOps = s.padOps := rfl
@[simp] theorem State.emit_trace (s : State) (ev : Event) : (s.emit ev).trace = s.trace ++ [ev] := rfl
@[simp] theorem State.emit_now (s : State) (ev : Event) : (s.emit ev).now = s.now := rfl

/-! ### writeBuf -/

@[simp] theorem State.writeBuf_params (s : State) (i : Nat) (v : Byte) : (s.writeBuf i v).params = s.params := rfl
@[simp] theorem State.writeBuf_timing (s : State) (i : Nat) (v : Byte) : (s.writeBuf i v).timing = s.timing := rfl
@[simp] theorem State.writeBuf_init (s : State) (i : Nat) (v : Byte) : (s.writeBuf i v).init = s.init := rfl
@[simp] theorem State.writeBuf_drvlow (s : State) (i : Nat) (v : Byte) : (s.writeBuf i v).drvlow = s.drvlow := rfl
@[simp] theorem State.writeBuf_err (s : State) (i : Nat) (v : Byte) : (s.writeBuf i v).err = s.err := rfl
@[simp] theorem State.writeBuf_hosterr (s : State) (i : Nat) (v : Byte) : (s.writeBuf i v).hosterr = s.hosterr := rfl
@[simp] theorem State.writeBuf_hcause (s : State) (i : Nat) (v : Byte) : (s.writeBuf i v).hcause = s.hcause := rfl
@[simp] theorem State.writeBuf_result (s : State) (i : Nat) (v : Byte) : (s.writeBuf i v).result = s.result := rfl
@[simp] theorem State.writeBuf_errinfo (s : State) (i : Nat) (v : Byte) : (s.writeBuf i v).errinfo = s.errinfo := rfl
@[simp] theorem State.writeBuf_arg (s : State) (i : Nat) (v : Byte) : (s.writeBuf i v).arg = s.arg := rfl
@[simp] theorem State.writeBuf_bufAddr (s : State) (i : Nat) (v : Byte) : (s.writeBuf i v).bufAddr = s.bufAddr := rfl
@[simp] theorem State.writeBuf_bufLen (s : State) (i : Nat) (v : Byte) : (s.writeBuf i v).bufLen = s.bufLen := rfl
@[simp] theorem State.writeBuf_xferCnt (s : State) (i : Nat) (v : Byte) : (s.writeBuf i v).xferCnt = s.xferCnt := rfl
@[simp] theorem State.writeBuf_buf (s : State) (i : Nat) (v : Byte) : (s.writeBuf i v).buf = s.buf.write i v := rfl
@[simp] theorem State.writeBuf_engine (s : State) (i : Nat) (v : Byte) : (s.writeBuf i v).engine = s.engine := rfl
@[simp] theorem State.writeBuf_host (s : State) (i : Nat) (v : Byte) : (s.writeBuf i v).host = s.host := rfl
@[simp] theorem State.writeBuf_hostData (s : State) (i : Nat) (v : Byte) : (s.writeBuf i v).hostData = s.hostData := rfl
@[simp] theorem State.writeBuf_padScript (s : State) (i : Nat) (v : Byte) : (s.writeBuf i v).padScript = s.padScript := rfl
@[simp] theorem State.writeBuf_padOps (s : State) (i : Nat) (v : Byte) : (s.writeBuf i v).padOps = s.padOps := rfl
@[simp] theorem State.writeBuf_trace (s : State) (i : Nat) (v : Byte) : (s.writeBuf i v).trace = s.trace := rfl
@[simp] theorem State.writeBuf_now (s : State) (i : Nat) (v : Byte) : (s.writeBuf i v).now = s.now := rfl

/-! ### wait -/

@[simp] theorem wait_params (n : Word) (s : State) : (wait n s).params = s.params := rfl
@[simp] theorem wait_timing (n : Word) (s : State) : (wait n s).timing = s.timing := rfl
@[simp] theorem wait_init (n : Word) (s : State) : (wait n s).init = s.init := rfl
@[simp] theorem wait_drvlow (n : Word) (s : State) : (wait n s).drvlow = s.drvlow := rfl
@[simp] theorem wait_err (n : Word) (s : State) : (wait n s).err = s.err := rfl
@[simp] theorem wait_hosterr (n : Word) (s : State) : (wait n s).hosterr = s.hosterr := rfl
@[simp] theorem wait_hcause (n : Word) (s : State) : (wait n s).hcause = s.hcause := rfl
@[simp] theorem wait_result (n : Word) (s : State) : (wait n s).result = s.result := rfl
@[simp] theorem wait_errinfo (n : Word) (s : State) : (wait n s).errinfo = s.errinfo := rfl
@[simp] theorem wait_arg (n : Word) (s : State) : (wait n s).arg = s.arg := rfl
@[simp] theorem wait_bufAddr (n : Word) (s : State) : (wait n s).bufAddr = s.bufAddr := rfl
@[simp] theorem wait_bufLen (n : Word) (s : State) : (wait n s).bufLen = s.bufLen := rfl
@[simp] theorem wait_xferCnt (n : Word) (s : State) : (wait n s).xferCnt = s.xferCnt := rfl
@[simp] theorem wait_buf (n : Word) (s : State) : (wait n s).buf = s.buf := rfl
@[simp] theorem wait_engine (n : Word) (s : State) : (wait n s).engine = s.engine := rfl
@[simp] theorem wait_host (n : Word) (s : State) : (wait n s).host = s.host := rfl
@[simp] theorem wait_hostData (n : Word) (s : State) : (wait n s).hostData = s.hostData := rfl
@[simp] theorem wait_padScript (n : Word) (s : State) : (wait n s).padScript = s.padScript := rfl
@[simp] theorem wait_padOps (n : Word) (s : State) : (wait n s).padOps = s.padOps := rfl
@[simp] theorem wait_trace (n : Word) (s : State) : (wait n s).trace = s.trace ++ [.wait n] := rfl
@[simp] theorem wait_now (n : Word) (s : State) : (wait n s).now = s.now + n.toNat := rfl

/-! ### complete -/

@[simp] theorem complete_params (v : ErrorValue) (r : Byte) (k : Word) (s : State) : (complete v r k s).params = s.params := rfl
@[simp] theorem complete_timing (v : ErrorValue) (r : Byte) (k : Word) (s : State) : (complete v r k s).timing = s.timing := rfl
@[simp] theorem complete_init (v : ErrorValue) (r : Byte) (k : Word) (s : State) : (complete v r k s).init = s.init := rfl
@[simp] theorem complete_drvlow (v : ErrorValue) (r : Byte) (k : Word) (s : State) : (complete v r k s).drvlow = s.drvlow := rfl
@[simp] theorem complete_err (v : ErrorValue) (r : Byte) (k : Word) (s : State) : (complete v r k s).err = v.isError := rfl
@[simp] theorem complete_hosterr (v : ErrorValue) (r : Byte) (k : Word) (s : State) : (complete v r k s).hosterr = s.hosterr := rfl
@[simp] theorem complete_hcause (v : ErrorValue) (r : Byte) (k : Word) (s : State) : (complete v r k s).hcause = s.hcause := rfl
@[simp] theorem complete_result (v : ErrorValue) (r : Byte) (k : Word) (s : State) : (complete v r k s).result = r := rfl
@[simp] theorem complete_errinfo (v : ErrorValue) (r : Byte) (k : Word) (s : State) : (complete v r k s).errinfo = v := rfl
@[simp] theorem complete_arg (v : ErrorValue) (r : Byte) (k : Word) (s : State) : (complete v r k s).arg = s.arg := rfl
@[simp] theorem complete_bufAddr (v : ErrorValue) (r : Byte) (k : Word) (s : State) : (complete v r k s).bufAddr = s.bufAddr := rfl
@[simp] theorem complete_bufLen (v : ErrorValue) (r : Byte) (k : Word) (s : State) : (complete v r k s).bufLen = s.bufLen := rfl
@[simp] theorem complete_xferCnt (v : ErrorValue) (r : Byte) (k : Word) (s : State) : (complete v r k s).xferCnt = k := rfl
@[simp] theorem complete_buf (v : ErrorValue) (r : Byte) (k : Word) (s : State) : (complete v r k s).buf = s.buf := rfl
@[simp] theorem complete_engine (v : ErrorValue) (r : Byte) (k : Word) (s : State) : (complete v r k s).engine = none := rfl
@[simp] theorem complete_host (v : ErrorValue) (r : Byte) (k : Word) (s : State) : (complete v r k s).host = s.host := rfl
@[simp] theorem complete_hostData (v : ErrorValue) (r : Byte) (k : Word) (s : State) : (complete v r k s).hostData = s.hostData := rfl
@[simp] theorem complete_padScript (v : ErrorValue) (r : Byte) (k : Word) (s : State) : (complete v r k s).padScript = s.padScript := rfl
@[simp] theorem complete_padOps (v : ErrorValue) (r : Byte) (k : Word) (s : State) : (complete v r k s).padOps = s.padOps := rfl
@[simp] theorem complete_trace (v : ErrorValue) (r : Byte) (k : Word) (s : State) : (complete v r k s).trace = s.trace := rfl
@[simp] theorem complete_now (v : ErrorValue) (r : Byte) (k : Word) (s : State) : (complete v r k s).now = s.now := rfl

/-! ### refuse -/

@[simp] theorem refuse_params (c : RefusalCause) (s : State) : (refuse c s).params = s.params := rfl
@[simp] theorem refuse_timing (c : RefusalCause) (s : State) : (refuse c s).timing = s.timing := rfl
@[simp] theorem refuse_init (c : RefusalCause) (s : State) : (refuse c s).init = s.init := rfl
@[simp] theorem refuse_drvlow (c : RefusalCause) (s : State) : (refuse c s).drvlow = s.drvlow := rfl
@[simp] theorem refuse_err (c : RefusalCause) (s : State) : (refuse c s).err = s.err := rfl
@[simp] theorem refuse_hosterr (c : RefusalCause) (s : State) : (refuse c s).hosterr = true := rfl
@[simp] theorem refuse_hcause (c : RefusalCause) (s : State) : (refuse c s).hcause = some (s.hcause.getD c) := rfl
@[simp] theorem refuse_result (c : RefusalCause) (s : State) : (refuse c s).result = s.result := rfl
@[simp] theorem refuse_errinfo (c : RefusalCause) (s : State) : (refuse c s).errinfo = s.errinfo := rfl
@[simp] theorem refuse_arg (c : RefusalCause) (s : State) : (refuse c s).arg = s.arg := rfl
@[simp] theorem refuse_bufAddr (c : RefusalCause) (s : State) : (refuse c s).bufAddr = s.bufAddr := rfl
@[simp] theorem refuse_bufLen (c : RefusalCause) (s : State) : (refuse c s).bufLen = s.bufLen := rfl
@[simp] theorem refuse_xferCnt (c : RefusalCause) (s : State) : (refuse c s).xferCnt = s.xferCnt := rfl
@[simp] theorem refuse_buf (c : RefusalCause) (s : State) : (refuse c s).buf = s.buf := rfl
@[simp] theorem refuse_engine (c : RefusalCause) (s : State) : (refuse c s).engine = s.engine := rfl
@[simp] theorem refuse_host (c : RefusalCause) (s : State) : (refuse c s).host = s.host := rfl
@[simp] theorem refuse_hostData (c : RefusalCause) (s : State) : (refuse c s).hostData = s.hostData := rfl
@[simp] theorem refuse_padScript (c : RefusalCause) (s : State) : (refuse c s).padScript = s.padScript := rfl
@[simp] theorem refuse_padOps (c : RefusalCause) (s : State) : (refuse c s).padOps = s.padOps := rfl
@[simp] theorem refuse_trace (c : RefusalCause) (s : State) : (refuse c s).trace = s.trace := rfl
@[simp] theorem refuse_now (c : RefusalCause) (s : State) : (refuse c s).now = s.now := rfl

/-! ### loadPreset -/

@[simp] theorem loadPreset_params (s : State) : (loadPreset s).params = s.params := rfl
@[simp] theorem loadPreset_timing (s : State) : (loadPreset s).timing = s.params.preset := rfl
@[simp] theorem loadPreset_init (s : State) : (loadPreset s).init = s.init := rfl
@[simp] theorem loadPreset_drvlow (s : State) : (loadPreset s).drvlow = s.drvlow := rfl
@[simp] theorem loadPreset_err (s : State) : (loadPreset s).err = s.err := rfl
@[simp] theorem loadPreset_hosterr (s : State) : (loadPreset s).hosterr = s.hosterr := rfl
@[simp] theorem loadPreset_hcause (s : State) : (loadPreset s).hcause = s.hcause := rfl
@[simp] theorem loadPreset_result (s : State) : (loadPreset s).result = s.result := rfl
@[simp] theorem loadPreset_errinfo (s : State) : (loadPreset s).errinfo = s.errinfo := rfl
@[simp] theorem loadPreset_arg (s : State) : (loadPreset s).arg = s.arg := rfl
@[simp] theorem loadPreset_bufAddr (s : State) : (loadPreset s).bufAddr = s.bufAddr := rfl
@[simp] theorem loadPreset_bufLen (s : State) : (loadPreset s).bufLen = s.bufLen := rfl
@[simp] theorem loadPreset_xferCnt (s : State) : (loadPreset s).xferCnt = s.xferCnt := rfl
@[simp] theorem loadPreset_buf (s : State) : (loadPreset s).buf = s.buf := rfl
@[simp] theorem loadPreset_engine (s : State) : (loadPreset s).engine = s.engine := rfl
@[simp] theorem loadPreset_host (s : State) : (loadPreset s).host = s.host := rfl
@[simp] theorem loadPreset_hostData (s : State) : (loadPreset s).hostData = s.hostData := rfl
@[simp] theorem loadPreset_padScript (s : State) : (loadPreset s).padScript = s.padScript := rfl
@[simp] theorem loadPreset_padOps (s : State) : (loadPreset s).padOps = s.padOps := rfl
@[simp] theorem loadPreset_trace (s : State) : (loadPreset s).trace = s.trace := rfl
@[simp] theorem loadPreset_now (s : State) : (loadPreset s).now = s.now := rfl

/-! ### construct -/

@[simp] theorem construct_params (s : State) : (construct s).params = s.params := rfl
@[simp] theorem construct_timing (s : State) : (construct s).timing = s.params.preset := rfl
@[simp] theorem construct_init (s : State) : (construct s).init = true := rfl
@[simp] theorem construct_drvlow (s : State) : (construct s).drvlow = s.drvlow := rfl
@[simp] theorem construct_err (s : State) : (construct s).err = s.err := rfl
@[simp] theorem construct_hosterr (s : State) : (construct s).hosterr = s.hosterr := rfl
@[simp] theorem construct_hcause (s : State) : (construct s).hcause = s.hcause := rfl
@[simp] theorem construct_result (s : State) : (construct s).result = s.result := rfl
@[simp] theorem construct_errinfo (s : State) : (construct s).errinfo = s.errinfo := rfl
@[simp] theorem construct_arg (s : State) : (construct s).arg = s.arg := rfl
@[simp] theorem construct_bufAddr (s : State) : (construct s).bufAddr = s.bufAddr := rfl
@[simp] theorem construct_bufLen (s : State) : (construct s).bufLen = s.bufLen := rfl
@[simp] theorem construct_xferCnt (s : State) : (construct s).xferCnt = s.xferCnt := rfl
@[simp] theorem construct_buf (s : State) : (construct s).buf = s.buf := rfl
@[simp] theorem construct_engine (s : State) : (construct s).engine = s.engine := rfl
@[simp] theorem construct_host (s : State) : (construct s).host = s.host := rfl
@[simp] theorem construct_hostData (s : State) : (construct s).hostData = s.hostData := rfl
@[simp] theorem construct_padScript (s : State) : (construct s).padScript = s.padScript := rfl
@[simp] theorem construct_padOps (s : State) : (construct s).padOps = s.padOps := rfl
@[simp] theorem construct_trace (s : State) : (construct s).trace = s.trace := rfl
@[simp] theorem construct_now (s : State) : (construct s).now = s.now := rfl

/-! ### destroy -/

@[simp] theorem destroy_params (s : State) : (destroy s).params = s.params := rfl
@[simp] theorem destroy_timing (s : State) : (destroy s).timing = s.timing := rfl
@[simp] theorem destroy_init (s : State) : (destroy s).init = false := rfl
@[simp] theorem destroy_drvlow (s : State) : (destroy s).drvlow = false := rfl
@[simp] theorem destroy_err (s : State) : (destroy s).err = s.err := rfl
@[simp] theorem destroy_hosterr (s : State) : (destroy s).hosterr = s.hosterr := rfl
@[simp] theorem destroy_hcause (s : State) : (destroy s).hcause = s.hcause := rfl
@[simp] theorem destroy_result (s : State) : (destroy s).result = s.result := rfl
@[simp] theorem destroy_errinfo (s : State) : (destroy s).errinfo = s.errinfo := rfl
@[simp] theorem destroy_arg (s : State) : (destroy s).arg = s.arg := rfl
@[simp] theorem destroy_bufAddr (s : State) : (destroy s).bufAddr = s.bufAddr := rfl
@[simp] theorem destroy_bufLen (s : State) : (destroy s).bufLen = s.bufLen := rfl
@[simp] theorem destroy_xferCnt (s : State) : (destroy s).xferCnt = s.xferCnt := rfl
@[simp] theorem destroy_buf (s : State) : (destroy s).buf = s.buf := rfl
@[simp] theorem destroy_engine (s : State) : (destroy s).engine = s.engine := rfl
@[simp] theorem destroy_host (s : State) : (destroy s).host = s.host := rfl
@[simp] theorem destroy_hostData (s : State) : (destroy s).hostData = s.hostData := rfl
@[simp] theorem destroy_padScript (s : State) : (destroy s).padScript = s.padScript := rfl
@[simp] theorem destroy_padOps (s : State) : (destroy s).padOps = s.padOps := rfl
@[simp] theorem destroy_trace (s : State) : (destroy s).trace = s.trace ++ [.dropped] := rfl
@[simp] theorem destroy_now (s : State) : (destroy s).now = s.now := rfl

@[simp] theorem completeOk_eq (r : Byte) (k : Word) (s : State) : completeOk r k s = complete .success r k s := rfl
@[simp] theorem raisePin_eq (e : PinErr) (k : Word) (s : State) : raisePin e k s = complete (.pin e) 0#8 k s := rfl
@[simp] theorem raiseCrc_eq (c : Byte) (k : Word) (s : State) :
    raiseCrc c k s = complete (.protocol (.crc c)) c k s := rfl

end Sys2Proof.Machine
end

