-- ==== Sys2Proof/Laws/Pad.lean ====
section
/-! SUPPORT. The pad's answers and the micro-operations: one spec lemma each for Ok and for Err(e) (R10). -/

namespace Sys2Proof.Machine

/-- The answers still to come do not depend on anything but the environment. -/
theorem State.answerAt_congr {s t : State} (h₁ : t.padScript = s.padScript) (h₂ : t.padOps = s.padOps)
    (h₃ : t.params = s.params) (k : Nat) : t.answerAt k = s.answerAt k := by
  simp [State.answerAt, h₁, h₂, h₃]

/-- After `n` answers the `k`-th is the old `n + k`-th. -/
theorem State.answerAt_shift {s t : State} {n : Nat} (h₁ : t.padScript = s.padScript.drop n)
    (h₂ : t.padOps = s.padOps + n) (h₃ : t.params = s.params) (k : Nat) : t.answerAt k = s.answerAt (n + k) := by
  simp [State.answerAt, h₁, h₂, h₃, Nat.add_assoc]

theorem Params.pinCode_lt (p : Params) (e : PinErr) : (p.pinCode e).toNat < 2 ^ p.pinErrW.val := by
  rw [Params.pinCode, BitVec.toNat_setWidth]
  exact lt_of_le_of_lt (Nat.mod_le _ _) (BitVec.isLt _)

/-- A code of `PIN_ERR_W` bits is all of it. -/
theorem Params.pinCode_of_lt {p : Params} {e : PinErr} (h : e.toNat < 2 ^ p.pinErrW.val) : p.pinCode e = e := by
  apply BitVec.eq_of_toNat_eq
  simp [Params.pinCode, Nat.mod_eq_of_lt h]

/-- R38: a code has no bit above `PIN_ERR_W` at the port. -/
theorem State.answerAt_err_lt {s : State} {k : Nat} {e : PinErr} (h : s.answerAt k = .err e) :
    e.toNat < 2 ^ s.params.pinErrW.val := by
  unfold State.answerAt at h
  generalize (s.padScript[k]?).getD (freeAnswer (s.padOps + k)) = a at h
  cases a with
  | ok v => simp [PinAnswer.atPort] at h
  | err x =>
    simp only [PinAnswer.atPort, PinAnswer.err.injEq] at h
    subst h
    exact s.params.pinCode_lt x

/-- R182: a code of `PIN_ERR_W` bits is forwarded unchanged. -/
theorem PinAnswer.atPort_of_lt {p : Params} {e : PinErr} (h : e.toNat < 2 ^ p.pinErrW.val) :
    (PinAnswer.err e).atPort p = .err e := by
  rw [PinAnswer.atPort, Params.pinCode_of_lt h]

theorem PinAnswer.eq_ok_of_isOk {a : PinAnswer} (h : a.isOk = true) : a = .ok a.level := by
  cases a <;> simp_all [PinAnswer.isOk, PinAnswer.level]

theorem pinLow_of_ok {s : State} (h : (s.answerAt 0).isOk = true) :
    pinLow s = .ok () (({ s with drvlow := true }.useAnswers 1).emit .low) := by
  simp only [pinLow]; rw [PinAnswer.eq_ok_of_isOk h]

theorem pinLow_of_err {s : State} {e : PinErr} (h : s.answerAt 0 = .err e) :
    pinLow s = .raised e ((s.useAnswers 1).emit (.lowFail e)) := by
  simp only [pinLow, h]

theorem pinRelease_of_ok {s : State} (h : (s.answerAt 0).isOk = true) :
    pinRelease s = .ok () (({ s with drvlow := false }.useAnswers 1).emit .rel) := by
  simp only [pinRelease]; rw [PinAnswer.eq_ok_of_isOk h]

theorem pinRelease_of_err {s : State} {e : PinErr} (h : s.answerAt 0 = .err e) :
    pinRelease s = .raised e ((s.useAnswers 1).emit (.relFail e)) := by
  simp only [pinRelease, h]

theorem pinQuery_of_ok {s : State} (h : (s.answerAt 0).isOk = true) :
    pinQuery s = .ok (s.answerAt 0).level ((s.useAnswers 1).emit (.sample (s.answerAt 0).level)) := by
  have h' := PinAnswer.eq_ok_of_isOk h
  simp only [pinQuery]; rw [h']; rfl

theorem pinQuery_of_err {s : State} {e : PinErr} (h : s.answerAt 0 = .err e) :
    pinQuery s = .raised e ((s.useAnswers 1).emit (.sampleFail e)) := by
  simp only [pinQuery, h]

end Sys2Proof.Machine
end

