-- ==== Sys2Proof/Laws/Slots.lean ====
section
/-! SUPPORT. What a slot does (R151, R152, R154): one lemma per way it can end. -/

namespace Sys2Proof.Machine

/-! ### afterOps -/

@[simp] theorem traceTime_nil : traceTime [] = 0 := rfl
@[simp] theorem traceTime_cons (ev : Event) (evs : List Event) : traceTime (ev :: evs) = ev.time + traceTime evs := by
  simp [traceTime]
@[simp] theorem traceTime_append (xs ys : List Event) : traceTime (xs ++ ys) = traceTime xs + traceTime ys := by
  simp [traceTime]

@[simp] theorem State.afterOps_timing (s : State) (n evs low) : (s.afterOps n evs low).timing = s.timing := rfl
@[simp] theorem State.afterOps_drvlow (s : State) (n evs low) : (s.afterOps n evs low).drvlow = low := rfl
@[simp] theorem State.afterOps_init (s : State) (n evs low) : (s.afterOps n evs low).init = s.init := rfl
@[simp] theorem State.afterOps_buf (s : State) (n evs low) : (s.afterOps n evs low).buf = s.buf := rfl
@[simp] theorem State.afterOps_engine (s : State) (n evs low) : (s.afterOps n evs low).engine = s.engine := rfl
@[simp] theorem State.afterOps_trace (s : State) (n evs low) : (s.afterOps n evs low).trace = s.trace ++ evs := rfl
@[simp] theorem State.afterOps_bufAddr (s : State) (n evs low) : (s.afterOps n evs low).bufAddr = s.bufAddr := rfl
@[simp] theorem State.afterOps_bufLen (s : State) (n evs low) : (s.afterOps n evs low).bufLen = s.bufLen := rfl

theorem State.afterOps_afterOps (s : State) (n m : Nat) (xs ys : List Event) (l l' : Bool) :
    (s.afterOps n xs l).afterOps m ys l' = s.afterOps (n + m) (xs ++ ys) l' := by
  simp [State.afterOps, Nat.add_assoc]

theorem State.afterOps_zero (s : State) : s.afterOps 0 [] s.drvlow = s := by
  simp [State.afterOps]

@[simp] theorem State.answerAt_afterOps (s : State) (n evs low) (k : Nat) :
    (s.afterOps n evs low).answerAt k = s.answerAt (n + k) :=
  State.answerAt_shift (s := s) (t := s.afterOps n evs low) (n := n) rfl rfl rfl k

theorem State.sampleAt_afterOps (s : State) (m : Nat) (evs low) (k : Nat) :
    (s.afterOps (3 * m) evs low).sampleAt k = s.sampleAt (m + k) := by
  simp [State.sampleAt, Nat.mul_add, Nat.add_assoc]

@[simp] theorem State.answerAt_writeBuf (s : State) (i : Nat) (v : Byte) (k : Nat) :
    (s.writeBuf i v).answerAt k = s.answerAt k := rfl
@[simp] theorem State.sampleAt_writeBuf (s : State) (i : Nat) (v : Byte) (k : Nat) :
    (s.writeBuf i v).sampleAt k = s.sampleAt k := rfl
theorem State.writeBuf_afterOps (s : State) (i : Nat) (v : Byte) (n evs low) :
    (s.afterOps n evs low).writeBuf i v = (s.writeBuf i v).afterOps n evs low := rfl

/-! ### The micro-operations as afterOps -/

theorem pinLow_ok {s : State} (h : (s.answerAt 0).isOk = true) : pinLow s = .ok () (s.afterOps 1 [.low] true) :=
  pinLow_of_ok h

theorem pinLow_err {s : State} {e : PinErr} (h : s.answerAt 0 = .err e) :
    pinLow s = .raised e (s.afterOps 1 [.lowFail e] s.drvlow) := pinLow_of_err h

theorem pinRelease_ok {s : State} (h : (s.answerAt 0).isOk = true) :
    pinRelease s = .ok () (s.afterOps 1 [.rel] false) := pinRelease_of_ok h

theorem pinRelease_err {s : State} {e : PinErr} (h : s.answerAt 0 = .err e) :
    pinRelease s = .raised e (s.afterOps 1 [.relFail e] s.drvlow) := pinRelease_of_err h

theorem pinQuery_ok {s : State} (h : (s.answerAt 0).isOk = true) :
    pinQuery s = .ok (s.answerAt 0).level (s.afterOps 1 [.sample (s.answerAt 0).level] s.drvlow) := pinQuery_of_ok h

theorem pinQuery_err {s : State} {e : PinErr} (h : s.answerAt 0 = .err e) :
    pinQuery s = .raised e (s.afterOps 1 [.sampleFail e] s.drvlow) := pinQuery_of_err h

theorem wait_eq (n : Word) (s : State) : wait n s = s.afterOps 0 [.wait n] s.drvlow := by
  simp [wait, State.emit, State.afterOps, Event.time]

/-! ### Slots -/

/-- R151: a read slot whose three pin micro-operations are answered Ok. -/
theorem readSlot_ok {s : State} (h : ∀ q < 3, (s.answerAt q).isOk = true) :
    readSlot s = .ok (s.sampleAt 0) (s.afterOps 3 (readSlotTrace s.timing (s.sampleAt 0)) false) := by
  have h0 := h 0 (by omega)
  have h1 := h 1 (by omega)
  have h2 := h 2 (by omega)
  simp only [readSlot, PinResult.andThen, pinLow_ok h0, wait_eq, State.afterOps_afterOps, State.afterOps_timing,
    State.afterOps_drvlow]
  rw [pinRelease_ok (by simpa using h1)]
  simp only [State.afterOps_afterOps, State.afterOps_timing, State.afterOps_drvlow]
  rw [pinQuery_ok (by simpa using h2)]
  simp [State.afterOps_afterOps, State.sampleAt, readSlotTrace]

/-- R154: a read slot that ends at its pin micro-operation `q`. -/
theorem readSlot_abort {s : State} {q : Nat} {e : PinErr} (hq : q < 3) (h : ∀ j < q, (s.answerAt j).isOk = true)
    (he : s.answerAt q = .err e) :
    readSlot s = .raised e (s.afterOps (q + 1) (readSlotAbort s.timing q e) (abortDrvlow s.drvlow 0 q)) := by
  match q, hq with
  | 0, _ => simp [readSlot, PinResult.andThen, pinLow_err he, readSlotAbort, abortDrvlow]
  | 1, _ =>
    have h0 := h 0 (by omega)
    simp only [readSlot, PinResult.andThen, pinLow_ok h0, wait_eq, State.afterOps_afterOps, State.afterOps_timing,
      State.afterOps_drvlow]
    rw [pinRelease_err (e := e) (by simpa using he)]
    simp [State.afterOps_afterOps, readSlotAbort, abortDrvlow]
  | 2, _ =>
    have h0 := h 0 (by omega)
    have h1 := h 1 (by omega)
    simp only [readSlot, PinResult.andThen, pinLow_ok h0, wait_eq, State.afterOps_afterOps, State.afterOps_timing,
      State.afterOps_drvlow]
    rw [pinRelease_ok (by simpa using h1)]
    simp only [State.afterOps_afterOps, State.afterOps_timing, State.afterOps_drvlow]
    rw [pinQuery_err (e := e) (by simpa using he)]
    simp [State.afterOps_afterOps, readSlotAbort, abortDrvlow]

/-- R152: a write slot whose two pin micro-operations are answered Ok. -/
theorem writeSlot_ok {s : State} (b : Bool) (h : ∀ q < 2, (s.answerAt q).isOk = true) :
    writeSlot b s = .ok () (s.afterOps 2 (writeSlotTrace s.timing b) false) := by
  have h0 := h 0 (by omega)
  have h1 := h 1 (by omega)
  simp only [writeSlot, PinResult.andThen, pinLow_ok h0, wait_eq, State.afterOps_afterOps, State.afterOps_timing,
    State.afterOps_drvlow]
  rw [pinRelease_ok (by simpa using h1)]
  cases b <;>
    simp [State.afterOps_afterOps, writeSlotTrace, Timing.writeLow, Timing.writeRecovery]

/-- R154: a write slot that ends at its pin micro-operation `q`. -/
theorem writeSlot_abort {s : State} {q : Nat} {e : PinErr} (b : Bool) (hq : q < 2)
    (h : ∀ j < q, (s.answerAt j).isOk = true) (he : s.answerAt q = .err e) :
    writeSlot b s = .raised e (s.afterOps (q + 1) (writeSlotAbort s.timing b q e) (abortDrvlow s.drvlow 0 q)) := by
  match q, hq with
  | 0, _ => simp [writeSlot, PinResult.andThen, pinLow_err he, writeSlotAbort, abortDrvlow]
  | 1, _ =>
    have h0 := h 0 (by omega)
    simp only [writeSlot, PinResult.andThen, pinLow_ok h0, wait_eq, State.afterOps_afterOps, State.afterOps_timing,
      State.afterOps_drvlow]
    rw [pinRelease_err (e := e) (by simpa using he)]
    simp [State.afterOps_afterOps, writeSlotAbort, abortDrvlow, Timing.writeLow]

end Sys2Proof.Machine
end

