-- ==== Sys2Proof/Laws/Bytes.lean ====
section
/-! SUPPORT. What the byte loops do (R161, R162): complete, or ended at a pin micro-operation. -/

namespace Sys2Proof.Machine

theorem State.readSlots_succ (s : State) (evs : List Event) (low : Bool) (m : Nat) :
    readSlotTrace s.timing (s.sampleAt 0) ++ (s.afterOps 3 evs low).readSlots m = s.readSlots (m + 1) := by
  have h : ∀ k, (s.afterOps 3 evs low).sampleAt k = s.sampleAt (k + 1) := fun k => by
    simpa [Nat.add_comm] using s.sampleAt_afterOps 1 evs low k
  simp [State.readSlots, List.range_succ_eq_map, List.flatMap_map, h]

theorem State.readSlots_add (s : State) (n : Nat) (evs : List Event) (low : Bool) (m : Nat) :
    s.readSlots n ++ (s.afterOps (3 * n) evs low).readSlots m = s.readSlots (n + m) := by
  simp [State.readSlots, List.range_add, List.flatMap_map, State.sampleAt_afterOps]

@[simp] theorem State.readSlots_zero (s : State) : s.readSlots 0 = [] := rfl

theorem getLsbD_placeBit (sh : Byte) (v : Bool) (i j : Nat) (hj : j < 8) :
    (placeBit sh v i).getLsbD j = (sh.getLsbD j || (decide (i = j) && v)) := by
  simp only [placeBit, bitByte, BitVec.getLsbD_or, BitVec.getLsbD_shiftLeft]
  cases v
  · simp
  · by_cases h : i = j
    · subst h; simp [hj]
    · by_cases h' : j < i
      · simp [h, h']
      · have : j - i ≠ 0 := by omega
        simp [h, this, BitVec.getLsbD_one]

/-- R161: the loop of `ReadByte()` with every answer Ok; bit `j` of the byte is the old one or the sample for it. -/
theorem readBits_ok (left : Nat) : ∀ (i : Nat) (sh : Byte) (s : State), i + left ≤ 8 →
    (∀ q < 3 * left, (s.answerAt q).isOk = true) →
    ∃ x : Byte, (∀ j < 8, x.getLsbD j = (sh.getLsbD j || (decide (i ≤ j ∧ j < i + left) && s.sampleAt (j - i)))) ∧
      readBits left i sh s =
        .ok x (s.afterOps (3 * left) (s.readSlots left) (if left = 0 then s.drvlow else false)) := by
  induction left with
  | zero =>
    intro i sh s _ _
    refine ⟨sh, fun j _ => ?_, ?_⟩
    · have : ¬(i ≤ j ∧ j < i + 0) := by omega
      rw [decide_eq_false this]; simp
    · simp [readBits, State.afterOps_zero]
  | succ left ih =>
    intro i sh s hi h
    have hs := readSlot_ok (s := s) fun q hq => h q (by omega)
    obtain ⟨x, hx, hr⟩ := ih (i + 1) (placeBit sh (s.sampleAt 0) i)
      (s.afterOps 3 (readSlotTrace s.timing (s.sampleAt 0)) false) (by omega)
      fun q hq => by simpa using h (3 + q) (by omega)
    refine ⟨x, fun j hj => ?_, ?_⟩
    · rw [hx j hj, getLsbD_placeBit _ _ _ _ hj]
      have hsa := s.sampleAt_afterOps 1 (readSlotTrace s.timing (s.sampleAt 0)) false (j - (i + 1))
      simp only [Nat.mul_one] at hsa
      rw [hsa]
      by_cases hij : i = j
      · subst hij; simp
      · by_cases hlt : i + 1 ≤ j
        · have e1 : 1 + (j - (i + 1)) = j - i := by omega
          have e2 : decide (i + 1 ≤ j ∧ j < i + 1 + left) = decide (i ≤ j ∧ j < i + (left + 1)) :=
            decide_eq_decide.2 (by omega)
          rw [e1, e2, decide_eq_false hij]; simp
        · have e2 : ¬(i + 1 ≤ j ∧ j < i + 1 + left) := by omega
          have e3 : ¬(i ≤ j ∧ j < i + (left + 1)) := by omega
          rw [decide_eq_false e2, decide_eq_false e3, decide_eq_false hij]; simp
    · simp only [readBits, hs, PinResult.andThen, hr, State.afterOps_afterOps]
      rw [s.readSlots_succ]
      congr 1
      · congr 1
        · omega
        · simp

/-- R161: the loop of `ReadByte()` that ends at the pin micro-operation `q` of its `m`-th slot. -/
theorem readBits_abort (left : Nat) : ∀ (i : Nat) (sh : Byte) (s : State) (m q : Nat) (e : PinErr), m < left → q < 3 →
    (∀ j < 3 * m + q, (s.answerAt j).isOk = true) → s.answerAt (3 * m + q) = .err e →
    readBits left i sh s = .raised e (s.afterOps (3 * m + q + 1) (s.readSlots m ++ readSlotAbort s.timing q e)
      (abortDrvlow s.drvlow m q)) := by
  induction left with
  | zero => intro i sh s m q e hm; omega
  | succ left ih =>
    intro i sh s m q e hm hq h he
    match m with
    | 0 =>
      have hs := readSlot_abort (s := s) (q := q) (e := e) hq (fun j hj => h j (by omega)) (by simpa using he)
      simp [readBits, hs, PinResult.andThen]
    | m + 1 =>
      have hs := readSlot_ok (s := s) fun j hj => h j (by omega)
      have e1 : 3 * (m + 1) + q = 3 + (3 * m + q) := by omega
      have hr := ih (i + 1) (placeBit sh (s.sampleAt 0) i) (s.afterOps 3 (readSlotTrace s.timing (s.sampleAt 0)) false)
        m q e (by omega) hq (fun j hj => by simpa using h (3 + j) (by omega)) (by simpa [← e1] using he)
      simp only [readBits, hs, PinResult.andThen, hr, State.afterOps_afterOps, State.afterOps_timing,
        State.afterOps_drvlow]
      rw [← List.append_assoc, s.readSlots_succ]
      congr 1
      · congr 1
        · omega
        · match q with
          | 0 => simp [abortDrvlow]
          | 1 => rfl
          | _ + 2 => rfl

/-- R161: `ReadByte()` with its 24 answers Ok. -/
theorem readByte_ok {s : State} (h : ∀ q < 24, (s.answerAt q).isOk = true) :
    ∃ x : Byte, (∀ j < 8, x.getLsbD j = s.sampleAt j) ∧
      readByte s = .ok x (s.afterOps 24 (s.readSlots 8) false) := by
  obtain ⟨x, hx, hr⟩ := readBits_ok 8 0 0#8 s (by omega) (by simpa using h)
  refine ⟨x, fun j hj => ?_, by simpa [readByte] using hr⟩
  rw [hx j hj]
  simp [hj]

theorem readByte_abort {s : State} {m q : Nat} {e : PinErr} (hm : m < 8) (hq : q < 3)
    (h : ∀ j < 3 * m + q, (s.answerAt j).isOk = true) (he : s.answerAt (3 * m + q) = .err e) :
    readByte s = .raised e (s.afterOps (3 * m + q + 1) (s.readSlots m ++ readSlotAbort s.timing q e)
      (abortDrvlow s.drvlow m q)) :=
  readBits_abort 8 0 0#8 s m q e hm hq h he

/-- The trace of write slots `i, .., i+n-1` of `x`. -/
def writeSlots (t : Timing) (x : Byte) (i n : Nat) : List Event :=
  (List.range n).flatMap fun k => writeSlotTrace t (x.getLsbD (i + k))

theorem writeSlots_succ (t : Timing) (x : Byte) (i n : Nat) :
    writeSlots t x i (n + 1) = writeSlotTrace t (x.getLsbD i) ++ writeSlots t x (i + 1) n := by
  simp [writeSlots, List.range_succ_eq_map, List.flatMap_map, Nat.add_comm, Nat.add_left_comm]

theorem writeByteTrace_eq (t : Timing) (x : Byte) : writeByteTrace t x = writeSlots t x 0 8 := by
  simp [writeByteTrace, writeBitsTrace, bitsOf, writeSlots, List.flatMap_map]

/-- R162: the loop of `WriteByte(x)` with every answer Ok. -/
theorem writeBits_ok (x : Byte) (left : Nat) : ∀ (i : Nat) (s : State),
    (∀ q < 2 * left, (s.answerAt q).isOk = true) →
    writeBits x left i s = .ok () (s.afterOps (2 * left) (writeSlots s.timing x i left)
      (if left = 0 then s.drvlow else false)) := by
  induction left with
  | zero => intro i s _; simp [writeBits, writeSlots, State.afterOps_zero]
  | succ left ih =>
    intro i s h
    have hs := writeSlot_ok (s := s) (x.getLsbD i) fun q hq => h q (by omega)
    simp only [writeBits, hs, PinResult.andThen]
    rw [ih (i + 1) _ fun q hq => by simpa using h (2 + q) (by omega)]
    simp only [State.afterOps_afterOps, State.afterOps_timing, State.afterOps_drvlow, ← writeSlots_succ]
    congr 1
    · congr 1
      · omega
      · simp

/-- R162: the loop of `WriteByte(x)` that ends at the pin micro-operation `q` of its `m`-th slot. -/
theorem writeBits_abort (x : Byte) (left : Nat) : ∀ (i : Nat) (s : State) (m q : Nat) (e : PinErr), m < left → q < 2 →
    (∀ j < 2 * m + q, (s.answerAt j).isOk = true) → s.answerAt (2 * m + q) = .err e →
    writeBits x left i s = .raised e (s.afterOps (2 * m + q + 1)
      (writeSlots s.timing x i m ++ writeSlotAbort s.timing (x.getLsbD (i + m)) q e) (abortDrvlow s.drvlow m q)) := by
  induction left with
  | zero => intro i s m q e hm; omega
  | succ left ih =>
    intro i s m q e hm hq h he
    match m with
    | 0 =>
      have hs := writeSlot_abort (s := s) (q := q) (e := e) (x.getLsbD i) hq (fun j hj => h j (by omega))
        (by simpa using he)
      simp [writeBits, hs, PinResult.andThen, writeSlots]
    | m + 1 =>
      have hs := writeSlot_ok (s := s) (x.getLsbD i) fun j hj => h j (by omega)
      have e1 : 2 * (m + 1) + q = 2 + (2 * m + q) := by omega
      simp only [writeBits, hs, PinResult.andThen]
      rw [ih (i + 1) _ m q e (by omega) hq (fun j hj => by simpa using h (2 + j) (by omega)) (by simpa [← e1] using he)]
      simp only [State.afterOps_afterOps, State.afterOps_timing, State.afterOps_drvlow]
      rw [← List.append_assoc, ← writeSlots_succ]
      congr 1
      · congr 1
        · omega
        · congr 3; omega
        · match q with
          | 0 => simp [abortDrvlow]
          | 1 => rfl

theorem writeByte_ok {s : State} (x : Byte) (h : ∀ q < 16, (s.answerAt q).isOk = true) :
    writeByte x s = .ok () (s.afterOps 16 (writeByteTrace s.timing x) false) := by
  simpa [writeByte, writeByteTrace_eq] using writeBits_ok x 8 0 s (by simpa using h)

theorem writeByte_abort {s : State} (x : Byte) {m q : Nat} {e : PinErr} (hm : m < 8) (hq : q < 2)
    (h : ∀ j < 2 * m + q, (s.answerAt j).isOk = true) (he : s.answerAt (2 * m + q) = .err e) :
    writeByte x s = .raised e (s.afterOps (2 * m + q + 1)
      (writeSlots s.timing x 0 m ++ writeSlotAbort s.timing (x.getLsbD m) q e) (abortDrvlow s.drvlow m q)) := by
  simpa [writeByte] using writeBits_abort x 8 0 s m q e hm hq h he

end Sys2Proof.Machine
end

