-- ==== Sys2Proof/Laws/Buffer.lean ====
section
/-! SUPPORT. What the buffer loops do (R66, R163, R164): complete, or ended at a pin micro-operation. -/

namespace Sys2Proof.Machine

/-! ### Reading a range -/

/-- The range is read iff each of its bytes was written; the bytes come in increasing order (R66). -/
theorem readRange_ok {m : Memory} (data : List Byte) : ∀ (a : Nat),
    (∀ j (h : j < data.length), m.read (a + j) = some data[j]) → readRange m a data.length = .ok data := by
  induction data with
  | nil => intro a _; rfl
  | cons v vs ih =>
    intro a h
    have h0 : m.read a = some v := h 0 (Nat.succ_pos _)
    have hr := ih (a + 1) fun j hj => by
      have := h (j + 1) (by simpa using hj)
      simpa [Nat.add_assoc, Nat.add_comm 1 j] using this
    simp only [List.length_cons, readRange, h0, hr]

/-- The first byte of the range that nothing has written stops the read (U6; log 4). -/
theorem readRange_error {m : Memory} (j : Nat) : ∀ (a n : Nat), j < n → (∀ k < j, m.read (a + k) ≠ none) →
    m.read (a + j) = none → readRange m a n = .error (.unwrittenBuf (a + j)) := by
  induction j with
  | zero =>
    intro a n hn _ hnone
    obtain ⟨n, rfl⟩ : ∃ k, n = k + 1 := ⟨n - 1, by omega⟩
    have : m.read a = none := by simpa using hnone
    simp [readRange, this]
  | succ j ih =>
    intro a n hn hw hnone
    obtain ⟨n, rfl⟩ : ∃ k, n = k + 1 := ⟨n - 1, by omega⟩
    have h0 : m.read a ≠ none := by simpa using hw 0 (by omega)
    obtain ⟨v, hv⟩ := Option.ne_none_iff_exists'.1 h0
    have hr := ih (a + 1) n (by omega)
      (fun k hk => by simpa [Nat.add_assoc, Nat.add_comm 1 k] using hw (k + 1) (by omega))
      (by simpa [Nat.add_assoc, Nat.add_comm 1 j] using hnone)
    simp only [readRange, hv, hr, Nat.add_assoc, Nat.add_comm 1 j]

/-! ### RD.BYTES -/

/-- R163: the loop of `RD.BYTES` with every answer Ok. -/
theorem readBytes_ok (a left : Nat) : ∀ (j : Nat) (s : State), (∀ q < 24 * left, (s.answerAt q).isOk = true) →
    ∃ m : Memory,
      (∀ l < left, ∃ x, m.read (a + j + l) = some x ∧ ∀ b < 8, x.getLsbD b = s.sampleAt (8 * l + b)) ∧
      (∀ i, (i < a + j ∨ a + j + left ≤ i) → m.read i = s.buf.read i) ∧
      readBytes a left j s = completeOk 0#8 (BitVec.ofNat 32 (j + left))
        ({ s with buf := m }.afterOps (24 * left) (s.readSlots (8 * left)) (if left = 0 then s.drvlow else false)) := by
  induction left with
  | zero =>
    intro j s _
    exact ⟨s.buf, by intro l hl; omega, fun _ _ => rfl, by simp [readBytes, State.afterOps]⟩
  | succ left ih =>
    intro j s h
    obtain ⟨x, hx, hr⟩ := readByte_ok (s := s) fun q hq => h q (by omega)
    obtain ⟨m, hm1, hm2, hm3⟩ := ih (j + 1) ((s.afterOps 24 (s.readSlots 8) false).writeBuf (a + j) x)
      fun q hq => by simpa using h (24 + q) (by omega)
    have hsa : ∀ k, (s.afterOps 24 (s.readSlots 8) false).sampleAt k = s.sampleAt (8 + k) := fun k => by
      simpa using s.sampleAt_afterOps 8 (s.readSlots 8) false k
    refine ⟨m, ?_, ?_, ?_⟩
    · intro l hl
      match l with
      | 0 =>
        refine ⟨x, ?_, fun b hb => by simpa using hx b hb⟩
        rw [Nat.add_zero, hm2 _ (by omega)]
        simp
      | l + 1 =>
        obtain ⟨y, hy1, hy2⟩ := hm1 l (by omega)
        refine ⟨y, by rw [← hy1]; congr 1; omega, fun b hb => ?_⟩
        rw [hy2 b hb, State.sampleAt_writeBuf, hsa]
        congr 1; omega
    · intro i hi
      rw [hm2 i (by omega)]
      exact Memory.read_write_other _ x (by omega)
    · simp only [readBytes, hr, hm3]
      have hrs : s.readSlots 8 ++ ((s.afterOps 24 (s.readSlots 8) false).writeBuf (a + j) x).readSlots (8 * left)
          = s.readSlots (8 * (left + 1)) := by
        have := s.readSlots_add 8 (s.readSlots 8) false (8 * left)
        simp only [Nat.reduceMul] at this
        rw [show 8 * (left + 1) = 8 + 8 * left by omega, ← this]
        rfl
      rw [← hrs, show j + 1 + left = j + (left + 1) by omega]
      congr 1
      simp only [State.afterOps, State.writeBuf, List.drop_drop, List.append_assoc, traceTime_append, Nat.add_assoc,
        Nat.add_one_ne_zero, if_false, ite_self, Nat.mul_add, Nat.mul_one, Nat.add_comm (24 * left) 24]

/-- R163, R165: the loop of `RD.BYTES` that ends at pin micro-operation `q` of slot `b` of its `k`-th byte. -/
theorem readBytes_abort (a left : Nat) : ∀ (j : Nat) (s : State) (k b q : Nat) (e : PinErr), k < left → b < 8 →
    q < 3 → (∀ p < 24 * k + (3 * b + q), (s.answerAt p).isOk = true) →
    s.answerAt (24 * k + (3 * b + q)) = .err e →
    ∃ m : Memory,
      (∀ l < k, ∃ x, m.read (a + j + l) = some x ∧ ∀ i < 8, x.getLsbD i = s.sampleAt (8 * l + i)) ∧
      (∀ i, (i < a + j ∨ a + j + k ≤ i) → m.read i = s.buf.read i) ∧
      readBytes a left j s = raisePin e (BitVec.ofNat 32 (j + k))
        ({ s with buf := m }.afterOps (24 * k + (3 * b + q) + 1)
          (s.readSlots (8 * k + b) ++ readSlotAbort s.timing q e) (abortDrvlow s.drvlow (8 * k + b) q)) := by
  induction left with
  | zero => intro j s k b q e hk; omega
  | succ left ih =>
    intro j s k b q e hk hb hq h he
    match k with
    | 0 =>
      have hr := readByte_abort (s := s) hb hq (fun p hp => h p (by omega)) (by simpa using he)
      exact ⟨s.buf, by intro l hl; omega, fun _ _ => rfl, by simp [readBytes, hr, State.afterOps]⟩
    | k + 1 =>
      have hsplit : 24 * (k + 1) + (3 * b + q) = 24 + (24 * k + (3 * b + q)) := by omega
      obtain ⟨x, hx, hr⟩ := readByte_ok (s := s) fun p hp => h p (by omega)
      obtain ⟨m, hm1, hm2, hm3⟩ := ih (j + 1) ((s.afterOps 24 (s.readSlots 8) false).writeBuf (a + j) x) k b q e
        (by omega) hb hq (fun p hp => by simpa using h (24 + p) (by omega)) (by simpa [← hsplit] using he)
      have hsa : ∀ k, (s.afterOps 24 (s.readSlots 8) false).sampleAt k = s.sampleAt (8 + k) := fun k => by
        simpa using s.sampleAt_afterOps 8 (s.readSlots 8) false k
      refine ⟨m, ?_, ?_, ?_⟩
      · intro l hl
        match l with
        | 0 =>
          refine ⟨x, ?_, fun i hi => by simpa using hx i hi⟩
          rw [Nat.add_zero, hm2 _ (by omega)]
          simp
        | l + 1 =>
          obtain ⟨y, hy1, hy2⟩ := hm1 l (by omega)
          refine ⟨y, by rw [← hy1]; congr 1; omega, fun i hi => ?_⟩
          rw [hy2 i hi, State.sampleAt_writeBuf, hsa]
          congr 1; omega
      · intro i hi
        rw [hm2 i (by omega)]
        exact Memory.read_write_other _ x (by omega)
      · simp only [readBytes, hr, hm3]
        have hrs : s.readSlots 8 ++ ((s.afterOps 24 (s.readSlots 8) false).writeBuf (a + j) x).readSlots (8 * k + b)
            = s.readSlots (8 * (k + 1) + b) := by
          have := s.readSlots_add 8 (s.readSlots 8) false (8 * k + b)
          simp only [Nat.reduceMul] at this
          rw [show 8 * (k + 1) + b = 8 + (8 * k + b) by omega, ← this]
          rfl
        have hlow : abortDrvlow false (8 * k + b) q = abortDrvlow s.drvlow (8 * (k + 1) + b) q := by
          match q with
          | 0 => simp [abortDrvlow]
          | 1 => rfl
          | _ + 2 => rfl
        rw [← hrs, show j + 1 + k = j + (k + 1) by omega, hsplit]
        congr 1
        simp only [State.afterOps, State.writeBuf, List.drop_drop, List.append_assoc, traceTime_append, Nat.add_assoc,
          hlow]

/-! ### WR.BYTES -/

/-- The trace of the bytes written. -/
def writeBytesTrace (t : Timing) (data : List Byte) : List Event := data.flatMap (writeByteTrace t)

/-- R164: the loop of `WR.BYTES` with every answer Ok. -/
theorem writeBytes_ok (a : Nat) (data : List Byte) : ∀ (j : Nat) (s : State),
    (∀ l (h : l < data.length), s.buf.read (a + j + l) = some data[l]) →
    (∀ q < 16 * data.length, (s.answerAt q).isOk = true) →
    writeBytes a data.length j s = .next (completeOk 0#8 (BitVec.ofNat 32 (j + data.length))
      (s.afterOps (16 * data.length) (writeBytesTrace s.timing data) (if data = [] then s.drvlow else false))) := by
  induction data with
  | nil => intro j s _ _; simp [writeBytes, writeBytesTrace, State.afterOps_zero]
  | cons x xs ih =>
    intro j s hd h
    have h0 : s.readBuf (a + j) = some x := hd 0 (Nat.succ_pos _)
    have hw := writeByte_ok (s := s) x fun q hq => h q (by simp; omega)
    simp only [List.length_cons, writeBytes, h0, hw]
    rw [ih (j + 1) _ (fun l hl => by
        have := hd (l + 1) (by simpa using hl)
        simpa [Nat.add_assoc, Nat.add_comm 1 l] using this)
      (fun q hq => by simpa using h (16 + q) (by simp; omega))]
    simp only [State.afterOps_afterOps, State.afterOps_timing, State.afterOps_drvlow, writeBytesTrace,
      List.flatMap_cons, ite_self, List.cons_ne_nil, if_false,
      show 16 + 16 * xs.length = 16 * (xs.length + 1) by omega, show j + 1 + xs.length = j + (xs.length + 1) by omega]

/-- R164, R165: the loop of `WR.BYTES` that ends at pin micro-operation `q` of slot `b` of its byte `x`, after the
bytes `data`. -/
theorem writeBytes_abort (a left : Nat) (data : List Byte) (x : Byte) : ∀ (j : Nat) (s : State) (b q : Nat)
    (e : PinErr), data.length < left → b < 8 → q < 2 →
    (∀ l (h : l < data.length), s.buf.read (a + j + l) = some data[l]) →
    s.buf.read (a + j + data.length) = some x →
    (∀ p < 16 * data.length + (2 * b + q), (s.answerAt p).isOk = true) →
    s.answerAt (16 * data.length + (2 * b + q)) = .err e →
    writeBytes a left j s = .next (raisePin e (BitVec.ofNat 32 (j + data.length))
      (s.afterOps (16 * data.length + (2 * b + q) + 1)
        (writeBytesTrace s.timing data ++ (writeSlots s.timing x 0 b ++ writeSlotAbort s.timing (x.getLsbD b) q e))
        (abortDrvlow s.drvlow (8 * data.length + b) q))) := by
  induction data generalizing left with
  | nil =>
    intro j s b q e hl hb hq hd hx h he
    obtain ⟨left, rfl⟩ : ∃ k, left = k + 1 := ⟨left - 1, by simp at hl; omega⟩
    have h0 : s.readBuf (a + j) = some x := by simpa [State.readBuf] using hx
    have hw := writeByte_abort (s := s) x hb hq (fun p hp => h p (by simpa using hp)) (by simpa using he)
    simp [writeBytes, h0, hw, writeBytesTrace]
  | cons y ys ih =>
    intro j s b q e hl hb hq hd hx h he
    obtain ⟨left, rfl⟩ : ∃ k, left = k + 1 := ⟨left - 1, by simp at hl; omega⟩
    have h0 : s.readBuf (a + j) = some y := hd 0 (Nat.succ_pos _)
    have hw := writeByte_ok (s := s) y fun p hp => h p (by simp; omega)
    have hsplit : 16 * (ys.length + 1) + (2 * b + q) = 16 + (16 * ys.length + (2 * b + q)) := by omega
    simp only [List.length_cons] at hl hx h he ⊢
    simp only [writeBytes, h0, hw]
    rw [ih left (j + 1) _ b q e (by omega) hb hq (fun l hl => by
        have := hd (l + 1) (by simpa using hl)
        simpa [Nat.add_assoc, Nat.add_comm 1 l] using this)
      (by simpa [Nat.add_assoc, Nat.add_comm 1 ys.length] using hx)
      (fun p hp => by simpa using h (16 + p) (by omega)) (by simpa [← hsplit] using he)]
    have hlow : abortDrvlow false (8 * ys.length + b) q = abortDrvlow s.drvlow (8 * (ys.length + 1) + b) q := by
      match q with
      | 0 => simp [abortDrvlow]
      | 1 => rfl
      | _ + 2 => rfl
    simp only [State.afterOps_afterOps, State.afterOps_timing, State.afterOps_drvlow, writeBytesTrace,
      List.flatMap_cons, List.append_assoc, hsplit, hlow, Nat.add_assoc,
      show j + (1 + ys.length) = j + (ys.length + 1) by omega]

/-- R164: the loop of `WR.BYTES` that reaches a byte nothing has written (U6; log 4). -/
theorem writeBytes_unwritten (a left : Nat) (data : List Byte) : ∀ (j : Nat) (s : State), data.length < left →
    (∀ l (h : l < data.length), s.buf.read (a + j + l) = some data[l]) →
    s.buf.read (a + j + data.length) = none → (∀ p < 16 * data.length, (s.answerAt p).isOk = true) →
    writeBytes a left j s = .fault (.unwrittenBuf (a + j + data.length)) := by
  induction data generalizing left with
  | nil =>
    intro j s hl _ hx _
    obtain ⟨left, rfl⟩ : ∃ k, left = k + 1 := ⟨left - 1, by simp at hl; omega⟩
    have h0 : s.readBuf (a + j) = none := by simpa [State.readBuf] using hx
    simp [writeBytes, h0]
  | cons y ys ih =>
    intro j s hl hd hx h
    obtain ⟨left, rfl⟩ : ∃ k, left = k + 1 := ⟨left - 1, by simp at hl; omega⟩
    have h0 : s.readBuf (a + j) = some y := hd 0 (Nat.succ_pos _)
    have hw := writeByte_ok (s := s) y fun p hp => h p (by simp; omega)
    simp only [List.length_cons] at hl hx h ⊢
    simp only [writeBytes, h0, hw]
    rw [ih left (j + 1) _ (by omega) (fun l hl => by
        have := hd (l + 1) (by simpa using hl)
        simpa [Nat.add_assoc, Nat.add_comm 1 l] using this)
      (by simpa [Nat.add_assoc, Nat.add_comm 1 ys.length] using hx)
      (fun p hp => by simpa using h (16 + p) (by omega))]
    simp only [Nat.add_assoc, Nat.add_comm 1 ys.length]

end Sys2Proof.Machine
end

