-- ==== Sys2Proof/Laws/Decode.lean ====
section
/-! SUPPORT. The fields of an encoded word, and the words the decoder accepts (R80, R81, R85). -/

namespace Sys2Proof

@[simp] theorem opcField_encode (i : Instr) : opcField (encode i) = i.opc := by
  simp only [opcField, encode]
  ext k hk
  simp [hk, show k < 32 by omega]

@[simp] theorem immField_encode (i : Instr) : immField (encode i) = i.imm8 := by
  simp only [immField, encode]
  ext k hk
  simp [BitVec.getLsbD_eq_getElem hk, show 8 + k < 32 by omega]

@[simp] theorem rsvField_encode (i : Instr) : rsvField (encode i) = 0#16 := by
  simp only [rsvField, encode]
  ext k hk
  have h₁ : i.opc.getLsbD (16 + k) = false := BitVec.getLsbD_of_ge _ _ (by omega)
  have h₂ : i.imm8.getLsbD (16 + k - 8) = false := BitVec.getLsbD_of_ge _ _ (by omega)
  simp [h₁, h₂]

/-- A word whose reserved bits are 0 is its opcode and its immediate (R80, R88). -/
theorem word_of_fields {w : Word} (h : rsvField w = 0#16) :
    w = (opcField w).setWidth 32 ||| ((immField w).setWidth 32 <<< 8) := by
  ext k hk
  have hk32 : k < 32 := hk
  by_cases h16 : k < 16
  · by_cases h8 : k < 8
    · simp [opcField, h8, BitVec.getLsbD_eq_getElem hk]
    · simp [opcField, immField, h8, show k - 8 < 8 by omega, show 8 + (k - 8) = k by omega,
        BitVec.getLsbD_eq_getElem hk]
  · have := congrArg (fun v => v.getLsbD (k - 16)) h
    simp [rsvField, show k - 16 < 16 by omega, show 16 + (k - 16) = k by omega, BitVec.getLsbD_eq_getElem hk] at this
    have h₁ : (opcField w).getLsbD k = false := BitVec.getLsbD_of_ge _ _ (by omega)
    have h₂ : (immField w).getLsbD (k - 8) = false := BitVec.getLsbD_of_ge _ _ (by omega)
    simp [this, h₁, h₂]

/-! ### The opcode map (R82) -/

theorem opcodeRow_opc {opc imm : Byte} {i : Instr} (h : opcodeRow opc imm = some i) : i.opc = opc := by
  unfold opcodeRow at h
  split at h <;> simp at h <;> subst h <;> rfl

/-- An admitted immediate is the command's operand, no bit of it lost (R81, R83). -/
theorem imm_of_admits {opc imm : Byte} {i : Instr} (h : opcodeRow opc imm = some i)
    (ha : i.format.admits imm = true) : i.imm8 = imm := by
  unfold opcodeRow at h
  split at h <;> simp at h <;> subst h <;> simp [Instr.format, Format.admits] at ha <;> simp [Instr.imm8, ha]
  all_goals (revert ha; revert imm; decide)

theorem immField_high (w : Word) : (immField w).extractLsb' 1 7 = w.extractLsb' 9 7 := by
  ext k hk
  simp [immField, show 1 + k < 8 by omega, show 8 + (1 + k) = 9 + k by omega]

end Sys2Proof
end

