-- ==== Sys2Proof/Laws/Accept.lean ====
section
/-! SUPPORT. Acceptance (R86): when a command runs its body, and what a refused one does. -/

namespace Sys2Proof.Machine

@[simp] theorem State.busy_of_idle {s : State} (h : s.engine = none) : s.busy = false := by
  simp [State.busy, h]

@[simp] theorem refuse_eq (c : RefusalCause) (s : State) : refuse c s = s.refusedWith c := by
  cases h : s.hcause <;> simp [refuse, State.refusedWith, h]

theorem complete_eq (v : ErrorValue) (r : Byte) (k : Word) (s : State) : complete v r k s = s.completedWith v r k := by
  cases v <;> simp [complete, State.completedWith, ErrorValue.isError, ErrorValue.kind]

/-- R86: the idle block accepts a command that needs no driver and no buffer. -/
theorem accepted_any {i : Instr} {s : State} (body : State → Out) (he : s.engine = none) (hn : driverNeed i = .any)
    (hb : usesBuffer i = false) : accepted i s body = body s := by
  simp [accepted, acceptance, he, driverRefusal, hn, hb]

/-- R86: the idle block accepts a buffer command of the CRC unit whose range fits. -/
theorem accepted_any_buffer {i : Instr} {s : State} (body : State → Out) (he : s.engine = none)
    (hn : driverNeed i = .any) (hb : s.bufAddr.toNat + s.bufLen.toNat ≤ s.params.bufSize) :
    accepted i s body = body s := by
  simp [accepted, acceptance, he, driverRefusal, hn, State.bufFits, hb]

/-- R86: the idle block with a driver accepts a driver command without a buffer. -/
theorem accepted_driver {i : Instr} {s : State} (body : State → Out) (he : s.engine = none) (hi : s.init = true)
    (hn : driverNeed i = .present) (hb : usesBuffer i = false) : accepted i s body = body s := by
  simp [accepted, acceptance, he, driverRefusal, hn, hi, hb]

/-- R86: the idle block with a driver accepts a buffer transfer whose range fits. -/
theorem accepted_driver_buffer {i : Instr} {s : State} (body : State → Out) (he : s.engine = none)
    (hi : s.init = true) (hn : driverNeed i = .present)
    (hb : s.bufAddr.toNat + s.bufLen.toNat ≤ s.params.bufSize) : accepted i s body = body s := by
  simp [accepted, acceptance, he, driverRefusal, hn, hi, State.bufFits, hb]

/-- R86: `INIT` is accepted by the idle block without a driver. -/
theorem accepted_init {s : State} (body : State → Out) (he : s.engine = none) (hi : s.init = false) :
    accepted .init s body = body s := by
  simp [accepted, acceptance, he, driverRefusal, driverNeed, hi, usesBuffer]

/-- Everything `accepted` can do. -/
theorem accepted_cases (i : Instr) (s : State) (body : State → Out) :
    (∃ c, acceptance i s = some c ∧ accepted i s body = .next (s.refusedWith c)) ∨
    (acceptance i s = none ∧ accepted i s body = body s) := by
  cases h : acceptance i s with
  | none => exact .inr ⟨rfl, by simp [accepted, h]⟩
  | some c => exact .inl ⟨c, rfl, by simp [accepted, h]⟩

/-- An accepted command found the block idle. -/
theorem idle_of_accepted {i : Instr} {s : State} (h : acceptance i s = none) : s.engine = none := by
  cases he : s.engine with
  | none => rfl
  | some e => simp [acceptance, State.busy, he] at h

/-! ### The table of R86 against the decoder and the acceptance checks -/

theorem opcodeRow_none (opc imm : Byte) : opcodeRow opc imm = none ↔ opc ∉ opcodeList := by
  constructor
  · intro h hm
    simp only [opcodeList, List.mem_cons, List.not_mem_nil, or_false] at hm
    rcases hm with h' | h' | h' | h' | h' | h' | h' | h' | h' | h' | h' | h' | h' | h' | h' | h' | h' <;> subst h' <;>
      simp [opcodeRow] at h
  · intro h
    unfold opcodeRow
    split <;> simp_all [opcodeList]

theorem admits_iff {opc imm : Byte} {i : Instr} (h : opcodeRow opc imm = some i) :
    i.format.admits imm = true ↔
      ¬ ((opc ∉ [0x11#8, 0x51#8, 0x41#8] ∧ imm ≠ 0#8) ∨ (opc = 0x41#8 ∧ imm.extractLsb' 1 7 ≠ 0#7)) := by
  unfold opcodeRow at h
  split at h <;> simp at h <;> subst h <;> simp [Instr.format, Format.admits]

/-- The decoder's test of the reserved bits is the one of R85. -/
theorem reserved_iff {w : Word} {i : Instr} (h : opcodeRow (opcField w) (immField w) = some i) :
    (rsvField w = 0#16 ∧ i.format.admits (immField w) = true) ↔ ¬ reservedBitSet w := by
  rw [admits_iff h, immField_high]
  simp only [reservedBitSet, rsvField, opcField, immField]
  tauto

theorem opc_mem (i : Instr) : i.opc ∈ opcodeList := by
  cases i <;> simp [Instr.opc]

theorem not_reservedBitSet_encode (i : Instr) : ¬ reservedBitSet (encode i) := by
  have h1 := rsvField_encode i
  have h2 := opcField_encode i
  have h3 := immField_encode i
  simp only [rsvField, opcField, immField] at h1 h2 h3
  have h4 : (encode i).extractLsb' 9 7 = i.imm8.extractLsb' 1 7 := by
    rw [← immField_high, immField_encode]
  simp only [reservedBitSet, h1, h2, h3, h4]
  cases i <;> simp [Instr.opc, Instr.imm8]
  case wrBit b => cases b <;> decide

/-- R86: for the word of a command, the table's cause is that of the checks 1, 4 and 5. -/
theorem refusalCauseOf_encode (i : Instr) (s : State) : refusalCauseOf (encode i) s = acceptance i s := by
  have h2 : (encode i).extractLsb' 0 8 = i.opc := opcField_encode i
  simp only [refusalCauseOf, h2, opc_mem, not_true, if_false, not_reservedBitSet_encode]
  simp only [acceptance, driverRefusal, State.bufFits]
  cases hb : s.busy <;> simp
  cases i <;> cases hi : s.init <;> simp [Instr.opc, driverNeed, usesBuffer]

end Sys2Proof.Machine
end

