-- ==== Sys2Proof/Laws/Crc.lean ====
section
/-! SUPPORT. The CRC step is linear and maps only 0 to 0 (R102, R105, R109). -/

namespace Sys2Proof.Machine

theorem xor_swap (a b c : Byte) : a ^^^ (b ^^^ c) = b ^^^ (a ^^^ c) := by
  rw [← BitVec.xor_assoc, BitVec.xor_comm a b, BitVec.xor_assoc]

theorem crcShift_xor (a b : Byte) : crcShift (a ^^^ b) = crcShift a ^^^ crcShift b := by
  have h : (a ^^^ b) >>> 1 = a >>> 1 ^^^ b >>> 1 := by ext i; simp [BitVec.getElem_ushiftRight]
  simp only [crcShift, BitVec.getLsbD_xor, h]
  have h' : a >>> 1 ^^^ 0x8C#8 ^^^ (b >>> 1 ^^^ 0x8C#8) = a >>> 1 ^^^ b >>> 1 := by
    rw [BitVec.xor_assoc, xor_swap 0x8C#8, BitVec.xor_self, BitVec.xor_zero]
  cases a.getLsbD 0 <;> cases b.getLsbD 0 <;> simp only [Bool.xor_false, Bool.xor_true, Bool.not_false, Bool.not_true,
    if_true, Bool.false_eq_true, if_false, h']
  · rw [BitVec.xor_assoc]
  · rw [BitVec.xor_assoc, BitVec.xor_assoc, BitVec.xor_comm (b >>> 1)]

theorem crcShift_eq_zero : ∀ r : Byte, crcShift r = 0#8 → r = 0#8 := by decide

theorem crcShifts_xor (n : Nat) : ∀ a b : Byte, crcShifts n (a ^^^ b) = crcShifts n a ^^^ crcShifts n b := by
  induction n with
  | zero => intro a b; rfl
  | succ n ih => intro a b; simp [crcShifts, crcShift_xor, ih]

theorem crcShifts_eq_zero (n : Nat) : ∀ r : Byte, crcShifts n r = 0#8 → r = 0#8 := by
  induction n with
  | zero => intro r h; exact h
  | succ n ih => intro r h; exact crcShift_eq_zero r (ih _ h)

/-- R108, R109 law 1: a byte step that consumes the register's own value gives 0. -/
theorem crcByte_self (c : Byte) : crcByte c c = 0#8 := by
  simp only [crcByte, BitVec.xor_self]; decide

/-- R109 law 2: only that byte gives 0. -/
theorem crcByte_eq_zero {c b : Byte} (h : crcByte c b = 0#8) : b = c := by
  have := crcShifts_eq_zero 8 _ h
  exact (BitVec.xor_eq_zero_iff.1 this).symm

/-- R109 law 3: the fold over a concatenation is the fold of the second part seeded by the first. -/
theorem crcAppend_append (s : Byte) (xs ys : List Byte) : crcAppend s (xs ++ ys) = crcAppend (crcAppend s xs) ys := by
  simp [crcAppend]

theorem crcByte_xor (a b c d : Byte) : crcByte (a ^^^ c) (b ^^^ d) = crcByte a b ^^^ crcByte c d := by
  rw [crcByte, crcByte, crcByte, ← crcShifts_xor]
  congr 1
  rw [BitVec.xor_assoc, BitVec.xor_assoc, xor_swap c]

end Sys2Proof.Machine
end

