-- ==== Sys2Proof/Laws/Shape.lean ====
section
/-! SUPPORT. Everything a command can do (R10, R13, R186): one lemma for the fallible pieces, one for `exec`. -/

namespace Sys2Proof.Machine

/-- What a fallible piece run from `s` leaves: some answers used, some events, some `DRVLOW`; an error is that of the
last answer used, and every answer before it was Ok. -/
def PinResult.From {α : Type} (s : State) : PinResult α → Prop
  | .ok _ t => ∃ n evs low, t = s.afterOps n evs low ∧ (∀ p < n, (s.answerAt p).isOk = true) ∧
      low = driveAfter s.drvlow evs
  | .raised e t => ∃ q evs low, t = s.afterOps (q + 1) evs low ∧ s.answerAt q = .err e ∧
      (∀ p < q, (s.answerAt p).isOk = true) ∧ low = driveAfter s.drvlow evs

theorem driveAfter_append (b : Bool) (xs ys : List Event) :
    driveAfter b (xs ++ ys) = driveAfter (driveAfter b xs) ys := List.foldl_append

theorem PinResult.From.andThen {α β : Type} {s : State} {r : PinResult α} {k : α → State → PinResult β}
    (h : r.From s) (hk : ∀ v t, (k v t).From t) : (r.andThen k).From s := by
  match r, h with
  | .raised e t, h => exact h
  | .ok v t, ⟨n, evs, low, ht, hn, hl⟩ =>
    subst ht
    have hk' := hk v (s.afterOps n evs low)
    simp only [PinResult.andThen]
    match k v (s.afterOps n evs low), hk' with
    | .ok w u, ⟨n', evs', low', hu, hn', hl'⟩ =>
      refine ⟨n + n', evs ++ evs', low', by rw [hu, State.afterOps_afterOps], fun p hp => ?_, by
        rw [driveAfter_append, ← hl]; exact hl'⟩
      by_cases hpn : p < n
      · exact hn p hpn
      · have := hn' (p - n) (by omega)
        simpa [show n + (p - n) = p by omega] using this
    | .raised e u, ⟨q, evs', low', hu, he, hq, hl'⟩ =>
      refine ⟨n + q, evs ++ evs', low', by rw [hu, State.afterOps_afterOps, Nat.add_assoc], by simpa using he,
        fun p hp => ?_, by rw [driveAfter_append, ← hl]; exact hl'⟩
      by_cases hpn : p < n
      · exact hn p hpn
      · have := hq (p - n) (by omega)
        simpa [show n + (p - n) = p by omega] using this

theorem PinResult.From.after_wait {α : Type} {s : State} {n : Word} {r : PinResult α} (h : r.From (wait n s)) :
    r.From s := by
  rw [wait_eq] at h
  match r, h with
  | .ok v t, ⟨m, evs, low, ht, hm, hl⟩ =>
    exact ⟨m, [Event.wait n] ++ evs, low, by rw [ht, State.afterOps_afterOps, Nat.zero_add], by simpa using hm, hl⟩
  | .raised e t, ⟨q, evs, low, ht, he, hq, hl⟩ =>
    exact ⟨q, [Event.wait n] ++ evs, low, by rw [ht, State.afterOps_afterOps, Nat.zero_add], by simpa using he,
      by simpa using hq, hl⟩

theorem PinResult.From.ok_self {α : Type} (v : α) (s : State) : (PinResult.ok v s).From s :=
  ⟨0, [], s.drvlow, s.afterOps_zero.symm, (by intro p hp; omega), rfl⟩

theorem pinLow_from (s : State) : (pinLow s).From s := by
  cases h : s.answerAt 0 with
  | ok v =>
    rw [pinLow_ok (by rw [h]; rfl)]
    exact ⟨1, _, _, rfl, (by intro p hp; obtain rfl : p = 0 := by omega
                             rw [h]; rfl), rfl⟩
  | err e =>
    rw [pinLow_err h]
    exact ⟨0, _, _, rfl, h, (by intro p hp; omega), rfl⟩

theorem pinRelease_from (s : State) : (pinRelease s).From s := by
  cases h : s.answerAt 0 with
  | ok v =>
    rw [pinRelease_ok (by rw [h]; rfl)]
    exact ⟨1, _, _, rfl, (by intro p hp; obtain rfl : p = 0 := by omega
                             rw [h]; rfl), rfl⟩
  | err e =>
    rw [pinRelease_err h]
    exact ⟨0, _, _, rfl, h, (by intro p hp; omega), rfl⟩

theorem pinQuery_from (s : State) : (pinQuery s).From s := by
  cases h : s.answerAt 0 with
  | ok v =>
    rw [pinQuery_ok (by rw [h]; rfl)]
    exact ⟨1, _, _, rfl, (by intro p hp; obtain rfl : p = 0 := by omega
                             rw [h]; rfl), rfl⟩
  | err e =>
    rw [pinQuery_err h]
    exact ⟨0, _, _, rfl, h, (by intro p hp; omega), rfl⟩

theorem readSlot_from (s : State) : (readSlot s).From s :=
  (pinLow_from s).andThen fun _ _ => .after_wait <| (pinRelease_from _).andThen fun _ _ => .after_wait <|
    (pinQuery_from _).andThen fun v _ => .after_wait (.ok_self v _)

theorem writeSlot_from (b : Bool) (s : State) : (writeSlot b s).From s :=
  (pinLow_from s).andThen fun _ _ => .after_wait <| (pinRelease_from _).andThen fun _ _ => .after_wait (.ok_self _ _)

theorem readBits_from (left : Nat) : ∀ (i : Nat) (sh : Byte) (s : State), (readBits left i sh s).From s := by
  induction left with
  | zero => intro i sh s; exact .ok_self _ _
  | succ left ih => intro i sh s; exact (readSlot_from s).andThen fun v t => ih _ _ t

theorem writeBits_from (x : Byte) (left : Nat) : ∀ (i : Nat) (s : State), (writeBits x left i s).From s := by
  induction left with
  | zero => intro i s; exact .ok_self _ _
  | succ left ih => intro i s; exact (writeSlot_from _ s).andThen fun v t => ih _ t

theorem readByte_from (s : State) : (readByte s).From s := readBits_from _ _ _ s

theorem writeByte_from (x : Byte) (s : State) : (writeByte x s).From s := writeBits_from _ _ _ s

end Sys2Proof.Machine
end

