-- ==== Sys2Proof/Laws/Effect.lean ====
section
/-! SUPPORT. Everything `exec` can do (R84, R86, R186): a refusal, the stop at an unwritten byte, or one completion with
an effect that the command allows. -/

namespace Sys2Proof.Machine

/-- What a completed command did: the values it left in the fields that any command may write. -/
structure CommandEffect where
  buf : Memory
  timing : Timing
  init : Bool
  answers : Nat
  events : List Event
  low : Bool
  error : ErrorValue
  result : Byte
  count : Word

/-- The state a completed command leaves. -/
def CommandEffect.apply (c : CommandEffect) (s : State) : State :=
  ({ s with buf := c.buf, timing := c.timing, init := c.init }.afterOps c.answers c.events c.low).completedWith
    c.error c.result c.count

/-- The effects command `i` can have in state `s`. -/
structure CommandEffect.Legal (c : CommandEffect) (i : Instr) (s : State) : Prop where
  buf_same : i ≠ .rdBytes → c.buf = s.buf
  buf_wf : s.buf.wf → c.buf.wf
  buf_outside : ∀ a, (a < s.bufAddr.toNat ∨ s.bufAddr.toNat + s.bufLen.toNat ≤ a) → c.buf.read a = s.buf.read a
  buf_range : ∀ n, s.bufAddr.toNat + s.bufLen.toNat ≤ n → (∀ x ∈ s.buf, x.1 < n) → ∀ x ∈ c.buf, x.1 < n
  timing : c.timing = s.timing ∨ (i = .init ∨ i = .tPreset) ∧ c.timing = s.params.preset
  init : c.init = s.init ∨ i = .init ∧ c.init = true ∨ i = .drop ∧ c.init = false ∧ c.low = false
  init_low : i = .init → c.low = s.drvlow ∨ c.low = false
  low : i ∈ [.crcCalc, .crcCheck, .tPreset, .isHigh, .isLow, .delay] ∨ (∃ seed, i = .crcAppend seed) → c.low = s.drvlow
  answers : i ∈ [.crcCalc, .crcCheck, .tPreset, .drop, .delay] ∨ (∃ seed, i = .crcAppend seed) → c.answers = 0
  pin_result : ∀ e, c.error = .pin e → c.result = 0#8
  protocol_count : ∀ p, c.error = .protocol p → c.count = s.bufLen
  drive : c.low = driveAfter s.drvlow c.events
  events : i ∈ [.crcCalc, .crcCheck, .tPreset] ∨ (∃ seed, i = .crcAppend seed) → c.events = []
  error : match c.error with
    | .success => ∀ p < c.answers, (s.answerAt p).isOk = true
    | .pin e => ∃ q, c.answers = q + 1 ∧ s.answerAt q = .err e ∧ ∀ p < q, (s.answerAt p).isOk = true
    | .protocol p => i = .crcCheck ∧ ∃ x, x ≠ 0#8 ∧ p = .crc x ∧ c.result = x

/-- Ends a command whose fallible piece leaves `s` by answers and events alone. -/
theorem PinResult.From.finish {α : Type} {s : State} {r : PinResult α} (h : r.From s) (res : α → Byte) (k : Word) :
    ∃ n evs low v x c, r.finish (fun a t => completeOk (res a) k t) = (s.afterOps n evs low).completedWith v x c ∧
      low = driveAfter s.drvlow evs ∧ (∀ e, v = .pin e → x = 0#8) ∧
      match v with
      | .success => ∀ p < n, (s.answerAt p).isOk = true
      | .pin e => ∃ q, n = q + 1 ∧ s.answerAt q = .err e ∧ ∀ p < q, (s.answerAt p).isOk = true
      | .protocol _ => False := by
  match r, h with
  | .ok a t, ⟨n, evs, low, ht, hn, hl⟩ =>
    exact ⟨n, evs, low, .success, _, _, by rw [PinResult.finish, ht, completeOk, complete_eq], hl, by simp, hn⟩
  | .raised e t, ⟨q, evs, low, ht, he, hq, hl⟩ =>
    exact ⟨q + 1, evs, low, .pin e, _, _, by rw [PinResult.finish, ht, raisePin, complete_eq], hl, fun _ _ => rfl, q,
      rfl, he, hq⟩

/-- A driver command without a buffer, `INIT` and `DROP`: its effect is legal if it only uses answers. -/
theorem exec_effect_finish {i : Instr} {s : State} {α : Type} {r : PinResult α} (h : r.From s) (res : α → Byte)
    (k : Word)
    (hi : (∃ b, i = .wrBit b) ∨ (∃ x, i = .wrByte x) ∨ i ∈ [.setHigh, .setLow, .rdBit, .rdByte]) :
    ∃ c : CommandEffect, c.Legal i s ∧ r.finish (fun a t => completeOk (res a) k t) = c.apply s := by
  obtain ⟨n, evs, low, v, x, c, hr, hl, hx, hv⟩ := h.finish res k
  refine ⟨⟨s.buf, s.timing, s.init, n, evs, low, v, x, c⟩, ?_, by rw [hr]; rfl⟩
  have hne : i ≠ .init ∧ (¬ (i ∈ [.crcCalc, .crcCheck, .tPreset, .isHigh, .isLow, .delay] ∨
      ∃ seed, i = .crcAppend seed)) ∧ i ≠ .drop := by
    rcases hi with ⟨b, rfl⟩ | ⟨b, rfl⟩ | hi
    · simp
    · simp
    · simp only [List.mem_cons, List.not_mem_nil, or_false] at hi
      rcases hi with rfl | rfl | rfl | rfl <;> simp
  constructor
  case error =>
    cases v with
    | success => exact hv
    | pin e => exact hv
    | protocol p => exact hv.elim
  case pin_result => exact hx
  case protocol_count =>
    rintro p rfl
    exact hv.elim
  case init_low => exact fun h => absurd h hne.1
  case low => exact fun h => absurd h hne.2.1
  case answers =>
    refine fun h => absurd ?_ hne.2.1
    simp only [List.mem_cons, List.not_mem_nil, or_false] at h ⊢
    have := hne.2.2
    tauto
  case events =>
    refine fun h => absurd ?_ hne.2.1
    simp only [List.mem_cons, List.not_mem_nil, or_false] at h ⊢
    tauto
  all_goals
    first | exact fun _ => rfl | exact id | exact fun _ _ => rfl | exact .inl rfl | exact fun _ _ h => h | exact hl

/-- `IS.HIGH`, `IS.LOW`: the query touches neither `DRVLOW` nor a register but those of the completion. -/
theorem exec_effect_query {i : Instr} (s : State) (res : Bool → Byte) (hi : i = .isHigh ∨ i = .isLow) :
    ∃ c : CommandEffect, c.Legal i s ∧
      (pinQuery s).finish (fun a t => completeOk (res a) 0#32 t) = c.apply s := by
  have hne : i ≠ .init ∧ i ≠ .drop ∧ ¬ (i ∈ [.crcCalc, .crcCheck, .tPreset, .drop, .delay] ∨
      ∃ seed, i = .crcAppend seed) := by
    rcases hi with rfl | rfl <;> simp
  cases h : s.answerAt 0 with
  | ok l =>
    refine ⟨⟨s.buf, s.timing, s.init, 1, [.sample l], s.drvlow, .success, res l, 0#32⟩, ?_, ?_⟩
    · constructor
      case error =>
        intro p hp
        obtain rfl : p = 0 := by simp only at hp; omega
        rw [h]; rfl
      case init_low => exact fun h => absurd h hne.1
      case answers => exact fun h => absurd h hne.2.2
      case events =>
        refine fun h => absurd ?_ hne.2.2
        simp only [List.mem_cons, List.not_mem_nil, or_false] at h ⊢
        tauto
      all_goals
        first | exact fun _ => rfl | exact id | exact fun _ _ => rfl | exact .inl rfl | exact fun _ _ h => h | rfl | simp
    · rw [pinQuery_ok (by rw [h]; rfl), h]
      simp only [PinResult.finish, completeOk, complete_eq]
      rfl
  | err e =>
    refine ⟨⟨s.buf, s.timing, s.init, 1, [.sampleFail e], s.drvlow, .pin e, 0#8, 0#32⟩, ?_, ?_⟩
    · constructor
      case error => exact ⟨0, rfl, h, by intro p hp; omega⟩
      case init_low => exact fun h => absurd h hne.1
      case answers => exact fun h => absurd h hne.2.2
      case events =>
        refine fun h => absurd ?_ hne.2.2
        simp only [List.mem_cons, List.not_mem_nil, or_false] at h ⊢
        tauto
      all_goals
        first | exact fun _ => rfl | exact id | exact fun _ _ => rfl | exact .inl rfl | exact fun _ _ h => h | rfl | simp
    · rw [pinQuery_err h]
      simp only [PinResult.finish, raisePin, complete_eq]
      rfl

/-- The loop of `RD.BYTES`: it stores inside the range and uses answers. -/
theorem readBytes_effect (a left : Nat) : ∀ (j : Nat) (s : State), ∃ (m : Memory) (n : Nat) (evs : List Event)
    (low : Bool) (v : ErrorValue) (k : Word),
    readBytes a left j s = ({ s with buf := m }.afterOps n evs low).completedWith v 0#8 k ∧
    low = driveAfter s.drvlow evs ∧
    (s.buf.wf → m.wf) ∧ (∀ i, (i < a + j ∨ a + j + left ≤ i) → m.read i = s.buf.read i) ∧
    (∀ N, a + j + left ≤ N → (∀ x ∈ s.buf, x.1 < N) → ∀ x ∈ m, x.1 < N) ∧
    match v with
    | .success => ∀ p < n, (s.answerAt p).isOk = true
    | .pin e => ∃ q, n = q + 1 ∧ s.answerAt q = .err e ∧ ∀ p < q, (s.answerAt p).isOk = true
    | .protocol _ => False := by
  induction left with
  | zero =>
    intro j s
    refine ⟨s.buf, 0, [], s.drvlow, .success, BitVec.ofNat 32 j, ?_, rfl, id, fun _ _ => rfl, fun _ _ h => h, ?_⟩
    · rw [readBytes, completeOk, complete_eq]; simp [State.afterOps]
    · intro p hp; omega
  | succ left ih =>
    intro j s
    have hf := readByte_from s
    simp only [readBytes]
    match readByte s, hf with
    | .raised e t, ⟨q, evs, low, ht, he, hq, hl⟩ =>
      refine ⟨s.buf, q + 1, evs, low, .pin e, BitVec.ofNat 32 j, ?_, hl, id, fun _ _ => rfl,
        fun _ _ h => h, q, rfl, he, hq⟩
      rw [ht]; simp only [raisePin, complete_eq]
    | .ok x t, ⟨n, evs, low, ht, hn, hl⟩ =>
      subst ht
      obtain ⟨m, n', evs', low', v, k, hr, hl', hwf, hout, hrange, hv⟩ :=
        ih (j + 1) ((s.afterOps n evs low).writeBuf (a + j) x)
      refine ⟨m, n + n', evs ++ evs', low', v, k, ?_, by rw [driveAfter_append, ← hl]; exact hl',
        fun h => hwf (Memory.write_wf _ _ h), fun i hi => ?_, fun N hN h => hrange N (by omega) (Memory.write_range (by omega) h), ?_⟩
      · simp only [hr]
        simp [State.afterOps, State.writeBuf, State.completedWith, Nat.add_assoc]
      · rw [hout i (by omega)]
        exact Memory.read_write_other _ x (by omega)
      · cases v with
        | protocol p => exact hv
        | success =>
          intro p hp
          by_cases hpn : p < n
          · exact hn p hpn
          · have := hv (p - n) (by omega)
            simpa [show n + (p - n) = p by omega] using this
        | pin e =>
          obtain ⟨q, hq1, hq2, hq3⟩ := hv
          refine ⟨n + q, by omega, by simpa using hq2, fun p hp => ?_⟩
          by_cases hpn : p < n
          · exact hn p hpn
          · have := hq3 (p - n) (by omega)
            simpa [show n + (p - n) = p by omega] using this

/-- The loop of `WR.BYTES`: it uses answers and changes nothing else, or stops at an unwritten byte. -/
theorem writeBytes_effect (a left : Nat) : ∀ (j : Nat) (s : State),
    (∃ i, writeBytes a left j s = .fault (.unwrittenBuf i)) ∨ ∃ (n : Nat) (evs : List Event)
    (low : Bool) (v : ErrorValue) (k : Word),
    writeBytes a left j s = .next ((s.afterOps n evs low).completedWith v 0#8 k) ∧
    low = driveAfter s.drvlow evs ∧
    match v with
    | .success => ∀ p < n, (s.answerAt p).isOk = true
    | .pin e => ∃ q, n = q + 1 ∧ s.answerAt q = .err e ∧ ∀ p < q, (s.answerAt p).isOk = true
    | .protocol _ => False := by
  induction left with
  | zero =>
    intro j s
    refine .inr ⟨0, [], s.drvlow, .success, BitVec.ofNat 32 j, ?_, rfl, ?_⟩
    · rw [writeBytes, completeOk, complete_eq, State.afterOps_zero]
    · intro p hp; omega
  | succ left ih =>
    intro j s
    simp only [writeBytes]
    cases s.readBuf (a + j) with
    | none => exact .inl ⟨_, rfl⟩
    | some x =>
      have hf := writeByte_from x s
      simp only
      match writeByte x s, hf with
      | .raised e t, ⟨q, evs, low, ht, he, hq, hl⟩ =>
        refine .inr ⟨q + 1, evs, low, .pin e, BitVec.ofNat 32 j, ?_, hl, q, rfl, he, hq⟩
        rw [ht]; simp only [raisePin, complete_eq]
      | .ok x t, ⟨n, evs, low, ht, hn, hl⟩ =>
        subst ht
        rcases ih (j + 1) (s.afterOps n evs low) with hi | ⟨n', evs', low', v, k, hr, hl', hv⟩
        · exact .inl hi
        refine .inr ⟨n + n', evs ++ evs', low', v, k, ?_, by rw [driveAfter_append, ← hl]; exact hl', ?_⟩
        · simp only [hr, State.afterOps_afterOps]
        · cases v with
          | protocol p => exact hv
          | success =>
            intro p hp
            by_cases hpn : p < n
            · exact hn p hpn
            · have := hv (p - n) (by omega)
              simpa [show n + (p - n) = p by omega] using this
          | pin e =>
            obtain ⟨q, hq1, hq2, hq3⟩ := hv
            refine ⟨n + q, by omega, by simpa using hq2, fun p hp => ?_⟩
            by_cases hpn : p < n
            · exact hn p hpn
            · have := hq3 (p - n) (by omega)
              simpa [show n + (p - n) = p by omega] using this

/-- The commands of the CRC unit. -/
theorem crc_effect {i : Instr} (s : State) (v : ErrorValue) (r : Byte) (k : Word)
    (hi : i = .crcCalc ∨ i = .crcCheck ∨ ∃ seed, i = .crcAppend seed)
    (hv : v = .success ∨ i = .crcCheck ∧ r ≠ 0#8 ∧ v = .protocol (.crc r)) (hk : k = s.bufLen) :
    ∃ c : CommandEffect, c.Legal i s ∧ complete v r k s = c.apply s := by
  have hne : i ≠ .init ∧ i ≠ .drop := by rcases hi with rfl | rfl | ⟨seed, rfl⟩ <;> simp
  refine ⟨⟨s.buf, s.timing, s.init, 0, [], s.drvlow, v, r, k⟩, ?_, ?_⟩
  · constructor
    case error =>
      rcases hv with rfl | ⟨rfl, hr, rfl⟩
      · intro p hp; simp only at hp; omega
      · exact ⟨rfl, r, hr, rfl, rfl⟩
    case pin_result => rcases hv with rfl | ⟨-, -, rfl⟩ <;> simp
    case protocol_count => exact fun _ _ => hk
    case init_low => exact fun h => absurd h hne.1
    all_goals
      first | exact fun _ => rfl | exact id | exact fun _ _ => rfl | exact .inl rfl | exact fun _ _ h => h | rfl
  · rw [complete_eq]; simp [CommandEffect.apply, State.afterOps]

theorem withBuffer_cases (s : State) (k : List Byte → State) :
    (∃ i, withBuffer s k = .fault (.unwrittenBuf i)) ∨ ∃ data, withBuffer s k = .next (k data) := by
  have key : ∀ (n a : Nat) (f : Fault), readRange s.buf a n = .error f → ∃ i, f = .unwrittenBuf i := by
    intro n
    induction n with
    | zero => intro a f h; simp [readRange] at h
    | succ n ih =>
      intro a f h
      simp only [readRange] at h
      split at h
      · cases h; exact ⟨_, rfl⟩
      · split at h
        · simp at h
        · next hf => cases h; exact ih _ _ hf
  simp only [withBuffer]
  cases h : readRange s.buf s.bufAddr.toNat s.bufLen.toNat with
  | ok data => exact .inr ⟨data, rfl⟩
  | error f =>
    obtain ⟨i, rfl⟩ := key _ _ _ h
    exact .inl ⟨i, rfl⟩

/-- R14: a command that the checks refuse leaves the two marks. -/
theorem exec_refused {i : Instr} {s : State} {c : RefusalCause} (h : acceptance i s = some c) :
    exec i s = .next (s.refusedWith c) := by
  cases i <;> simp [exec, execCrcCalc, execCrcAppend, execCrcCheck, execTPreset, execInit, execDrop, execSetHigh,
    execSetLow, execIsHigh, execIsLow, execDelay, execRdBit, execWrBit, execRdByte, execWrByte, execRdBytes,
    execWrBytes, accepted, h]

/-- R84, R86, R186: an accepted command stops at an unwritten byte or completes with a legal effect. -/
theorem exec_effect (i : Instr) (s : State) (h : acceptance i s = none) :
    (∃ a, exec i s = .fault (.unwrittenBuf a)) ∨ ∃ c : CommandEffect, c.Legal i s ∧ exec i s = .next (c.apply s) := by
  have acc : ∀ body, accepted i s body = body s := fun body => by simp [accepted, h]
  have lift : ∀ t : State, (∃ c : CommandEffect, c.Legal i s ∧ t = c.apply s) →
      ∃ c : CommandEffect, c.Legal i s ∧ (Host.Outcome.next t : Out) = .next (c.apply s) :=
    fun t ⟨c, hc, ht⟩ => ⟨c, hc, by rw [ht]⟩
  cases i with
  | crcCalc =>
    simp only [exec, execCrcCalc, acc]
    rcases withBuffer_cases s _ with ⟨a, ha⟩ | ⟨data, hd⟩
    · exact .inl ⟨a, ha⟩
    · rw [hd]; exact .inr (lift _ (crc_effect s _ _ _ (.inl rfl) (.inl rfl) rfl))
  | crcAppend seed =>
    simp only [exec, execCrcAppend, acc]
    rcases withBuffer_cases s _ with ⟨a, ha⟩ | ⟨data, hd⟩
    · exact .inl ⟨a, ha⟩
    · rw [hd]; exact .inr (lift _ (crc_effect s _ _ _ (.inr (.inr ⟨_, rfl⟩)) (.inl rfl) rfl))
  | crcCheck =>
    simp only [exec, execCrcCheck, acc]
    rcases withBuffer_cases s _ with ⟨a, ha⟩ | ⟨data, hd⟩
    · exact .inl ⟨a, ha⟩
    · rw [hd]
      refine .inr (lift _ ?_)
      simp only [crcVerdict]
      split
      · exact crc_effect s _ _ _ (.inr (.inl rfl)) (.inl rfl) rfl
      · next hc => exact crc_effect s _ _ _ (.inr (.inl rfl)) (.inr ⟨rfl, hc, rfl⟩) rfl
  | tPreset =>
    simp only [exec, execTPreset, acc]
    refine .inr (lift _ ⟨⟨s.buf, s.params.preset, s.init, 0, [], s.drvlow, .success, 0#8, 0#32⟩, ?_, ?_⟩)
    · constructor
      case error => intro p hp; simp only at hp; omega
      case timing => exact .inr ⟨.inr rfl, rfl⟩
      case init_low => exact fun h => by simp at h
      all_goals
        first | exact fun _ => rfl | exact id | exact fun _ _ => rfl | exact .inl rfl | exact fun _ _ h => h | rfl | simp
    · rw [completeOk, complete_eq]; simp [CommandEffect.apply, State.afterOps, loadPreset]
  | init =>
    simp only [exec, execInit, acc]
    refine .inr (lift _ ?_)
    cases ha : s.answerAt 0 with
    | ok l =>
      refine ⟨⟨s.buf, s.params.preset, true, 1, [.rel], false, .success, 0#8, 0#32⟩, ?_, ?_⟩
      · constructor
        case error =>
          intro p hp
          obtain rfl : p = 0 := by simp only at hp; omega
          rw [ha]; rfl
        case timing => exact .inr ⟨.inl rfl, rfl⟩
        case init => exact .inr (.inl ⟨rfl, rfl⟩)
        case init_low => exact fun _ => .inr rfl
        case low => intro h; simp at h
        case answers => intro h; simp at h
        case events => intro h; simp at h
        all_goals first | exact fun _ => rfl | exact id | exact fun _ _ => rfl | exact fun _ _ h => h | rfl | simp
      · rw [pinRelease_ok (by rw [ha]; rfl)]
        simp only [PinResult.finish, completeOk, complete_eq]
        rfl
    | err e =>
      refine ⟨⟨s.buf, s.timing, s.init, 1, [.relFail e], s.drvlow, .pin e, 0#8, 0#32⟩, ?_, ?_⟩
      · constructor
        case error => exact ⟨0, rfl, ha, by intro p hp; omega⟩
        case init_low => exact fun _ => .inl rfl
        case low => intro h; simp at h
        case answers => intro h; simp at h
        case events => intro h; simp at h
        all_goals
          first | exact fun _ => rfl | exact id | exact fun _ _ => rfl | exact .inl rfl | exact fun _ _ h => h | rfl | simp
      · rw [pinRelease_err ha]
        simp only [PinResult.finish, raisePin, complete_eq]
        rfl
  | drop =>
    simp only [exec, execDrop, acc]
    refine .inr (lift _ ⟨⟨s.buf, s.timing, false, 0, [.dropped], false, .success, 0#8, 0#32⟩, ?_, ?_⟩)
    · constructor
      case error => intro p hp; simp only at hp; omega
      case init => exact .inr (.inr ⟨rfl, rfl, rfl⟩)
      case init_low => exact fun h => by simp at h
      case low => intro h; simp at h
      case events => intro h; simp at h
      all_goals
        first | exact fun _ => rfl | exact id | exact fun _ _ => rfl | exact .inl rfl | exact fun _ _ h => h | rfl | simp
    · rw [completeOk, complete_eq]
      simp [CommandEffect.apply, State.afterOps, destroy, State.emit, Event.time]
  | delay =>
    simp only [exec, execDelay, acc]
    refine .inr (lift _ ⟨⟨s.buf, s.timing, s.init, 0, [.wait s.arg], s.drvlow, .success, 0#8, 0#32⟩, ?_, ?_⟩)
    · constructor
      case error => intro p hp; simp only at hp; omega
      case init_low => exact fun h => by simp at h
      case events => intro h; simp at h
      all_goals
        first | exact fun _ => rfl | exact id | exact fun _ _ => rfl | exact .inl rfl | exact fun _ _ h => h | rfl | simp
    · rw [completeOk, complete_eq, wait_eq]; rfl
  | setHigh =>
    simp only [exec, execSetHigh, acc]
    exact .inr (lift _ (exec_effect_finish (pinRelease_from s) (fun _ => 0#8) 0#32 (by simp)))
  | setLow =>
    simp only [exec, execSetLow, acc]
    exact .inr (lift _ (exec_effect_finish (pinLow_from s) (fun _ => 0#8) 0#32 (by simp)))
  | isHigh =>
    simp only [exec, execIsHigh, acc]
    exact .inr (lift _ (exec_effect_query s bitByte (.inl rfl)))
  | isLow =>
    simp only [exec, execIsLow, acc]
    exact .inr (lift _ (exec_effect_query s (fun v => bitByte (!v)) (.inr rfl)))
  | rdBit =>
    simp only [exec, execRdBit, acc]
    exact .inr (lift _ (exec_effect_finish (readSlot_from s) bitByte 0#32 (by simp)))
  | wrBit b =>
    simp only [exec, execWrBit, acc]
    exact .inr (lift _ (exec_effect_finish (writeSlot_from b s) (fun _ => 0#8) 0#32 (by simp)))
  | rdByte =>
    simp only [exec, execRdByte, acc]
    exact .inr (lift _ (exec_effect_finish (readByte_from s) id 1#32 (by simp)))
  | wrByte x =>
    simp only [exec, execWrByte, acc]
    exact .inr (lift _ (exec_effect_finish (writeByte_from x s) (fun _ => 0#8) 1#32 (by simp)))
  | rdBytes =>
    simp only [exec, execRdBytes, acc]
    obtain ⟨m, n, evs, low, v, k, hr, hl, hwf, hout, hrange, hv⟩ := readBytes_effect s.bufAddr.toNat s.bufLen.toNat 0 s
    refine .inr (lift _ ⟨⟨m, s.timing, s.init, n, evs, low, v, 0#8, k⟩, ?_, by rw [hr]; rfl⟩)
    constructor
    case error =>
      cases v with
      | success => exact hv
      | pin e => exact hv
      | protocol p => exact hv.elim
    case protocol_count =>
      rintro p rfl
      exact hv.elim
    case pin_result => exact fun _ _ => rfl
    case buf_same => intro h; simp at h
    case buf_outside => simpa using hout
    case buf_range => simpa using hrange
    case init_low => intro h; simp at h
    case low => intro h; simp at h
    case answers => intro h; simp at h
    case events => intro h; simp at h
    all_goals first | exact hl | exact hwf | exact .inl rfl
  | wrBytes =>
    simp only [exec, execWrBytes, acc]
    rcases writeBytes_effect s.bufAddr.toNat s.bufLen.toNat 0 s with hi | ⟨n, evs, low, v, k, hr, hl, hv⟩
    · exact .inl hi
    · rw [hr]
      refine .inr (lift _ ⟨⟨s.buf, s.timing, s.init, n, evs, low, v, 0#8, k⟩, ?_, rfl⟩)
      constructor
      case error =>
        cases v with
        | success => exact hv
        | pin e => exact hv
        | protocol p => exact hv.elim
      case protocol_count =>
        rintro p rfl
        exact hv.elim
      case init_low => intro h; simp at h
      case low => intro h; simp at h
      case answers => intro h; simp at h
      case events => intro h; simp at h
      all_goals
        first | exact fun _ => rfl | exact id | exact fun _ _ => rfl | exact .inl rfl | exact fun _ _ h => h | exact hl

end Sys2Proof.Machine
end

