-- ==== Sys2Proof/Laws/Engine.lean ====
section
/-! SUPPORT. Everything one step of the engine can do (R34), and that its position moves by exactly one. -/

namespace Sys2Proof.Machine

/-! ### Position -/

/-- The number of micro-operations in one round of the running command. -/
def Engine.round (e : Engine) : Nat :=
  match e.cmd with
  | .crcCalc | .crcAppend _ | .crcCheck | .init | .setHigh | .setLow | .isHigh | .isLow | .delay => 1
  | .tPreset | .drop => 0
  | .rdBit | .rdByte | .rdBytes => 6
  | .wrBit _ | .wrByte _ | .wrBytes => 4

theorem Engine.ops_length (e : Engine) (t : Timing) : (e.ops t).length = e.round := by
  cases h : e.cmd <;> simp [Engine.ops, Engine.round, h, readSlotOps, writeSlotOps]

/-- The position is at a micro-operation of the command (R34). -/
def Engine.At (e : Engine) : Prop := e.byteIdx < e.bytes ∧ e.bitIdx < e.bits ∧ e.step < e.round

/-- The position is past the last micro-operation. -/
def Engine.Done (e : Engine) : Prop := e.byteIdx = e.bytes ∧ e.bitIdx = 0 ∧ e.step = 0

/-- The number of micro-operations done so far. -/
def Engine.pos (e : Engine) : Nat := (e.byteIdx * e.bits + e.bitIdx) * e.round + e.step

theorem Engine.bits_pos (e : Engine) : 0 < e.bits := by
  cases h : e.cmd <;> simp [Engine.bits, h]

theorem Engine.next_none_of_done {e : Engine} (h : e.Done) (t : Timing) : e.next t = none := by
  simp [Engine.next, h.1]

theorem Engine.next_some_of_at {e : Engine} (h : e.At) (t : Timing) : ∃ op, e.next t = some op := by
  have hl : e.step < (e.ops t).length := by rw [e.ops_length]; exact h.2.2
  exact ⟨_, by rw [Engine.next, if_pos h.1, List.getElem?_eq_getElem hl]⟩

/-- `e'` is `e` at another point of the same command. -/
structure Engine.Same (e e' : Engine) : Prop where
  cmd : e'.cmd = e.cmd
  arg : e'.arg = e.arg
  bufAddr : e'.bufAddr = e.bufAddr
  bufLen : e'.bufLen = e.bufLen

theorem Engine.Same.refl (e : Engine) : e.Same e := ⟨rfl, rfl, rfl, rfl⟩

theorem Engine.Same.trans {a b c : Engine} (h : a.Same b) (h' : b.Same c) : a.Same c :=
  ⟨h'.1.trans h.1, h'.2.trans h.2, h'.3.trans h.3, h'.4.trans h.4⟩

theorem Engine.Same.bits {e e' : Engine} (h : e.Same e') : e'.bits = e.bits := by
  simp [Engine.bits, h.cmd]
theorem Engine.Same.round {e e' : Engine} (h : e.Same e') : e'.round = e.round := by
  simp [Engine.round, h.cmd]
theorem Engine.Same.bytes {e e' : Engine} (h : e.Same e') : e'.bytes = e.bytes := by
  simp [Engine.bytes, h.cmd, h.bufLen]

@[simp] theorem Engine.arrive_byteIdx (e : Engine) (t : Timing) : (e.arrive t).byteIdx = e.byteIdx := by
  simp only [Engine.arrive]; split <;> rfl
@[simp] theorem Engine.arrive_bitIdx (e : Engine) (t : Timing) : (e.arrive t).bitIdx = e.bitIdx := by
  simp only [Engine.arrive]; split <;> rfl
@[simp] theorem Engine.arrive_step (e : Engine) (t : Timing) : (e.arrive t).step = e.step := by
  simp only [Engine.arrive]; split <;> rfl
@[simp] theorem Engine.arrive_sh (e : Engine) (t : Timing) : (e.arrive t).sh = e.sh := by
  simp only [Engine.arrive]; split <;> rfl
@[simp] theorem Engine.arrive_crc (e : Engine) (t : Timing) : (e.arrive t).crc = e.crc := by
  simp only [Engine.arrive]; split <;> rfl
theorem Engine.arrive_same (e : Engine) (t : Timing) : e.Same (e.arrive t) := by
  simp only [Engine.arrive]; split <;> exact ⟨rfl, rfl, rfl, rfl⟩

/-- The next micro-operation does not depend on the delay counter, and in no command on the CRC register. -/
theorem Engine.next_congr {e e' : Engine} (h : e.Same e') (h1 : e'.byteIdx = e.byteIdx) (h2 : e'.bitIdx = e.bitIdx)
    (h3 : e'.step = e.step) (h4 : e'.sh = e.sh) (t : Timing) : e'.next t = e.next t := by
  have : e'.ops t = e.ops t := by
    simp [Engine.ops, h.cmd, h.arg, h2, h4]
  simp [Engine.next, h.bytes, this, h1, h3]

@[simp] theorem Engine.arrive_next (e : Engine) (t : Timing) : (e.arrive t).next t = e.next t :=
  Engine.next_congr (e.arrive_same t) (by simp) (by simp) (by simp) (by simp) t

/-- R43: on arrival the delay counter is the wait that is next. -/
theorem Engine.arrive_delay (e : Engine) (t : Timing) : (e.arrive t).delay = match (e.arrive t).next t with
    | some (.wait n) => n
    | _ => 0#Config.durW := by
  rw [Engine.arrive_next]
  unfold Engine.arrive
  cases e.next t with
  | none => rfl
  | some op => cases op <;> rfl

theorem Engine.At.congr {e e' : Engine} (h : e.Same e') (h1 : e'.byteIdx = e.byteIdx) (h2 : e'.bitIdx = e.bitIdx)
    (h3 : e'.step = e.step) (ha : e.At) : e'.At := by
  simpa [Engine.At, h.bits, h.bytes, h.round, h1, h2, h3] using ha

/-! ### Moving on -/

/-- Moving on (R34): the position advances by one, nothing but `BUF` changes outside the transient state, and `BUF` only
where `RD.BYTES` has a complete byte (R66). -/
theorem moveOn_spec {e : Engine} {s : State} (h : e.At) :
    ∃ (e' : Engine) (m : Memory), moveOn e s = { s with buf := m, engine := some (e'.arrive s.timing) } ∧ e.Same e' ∧
      (e'.At ∨ e'.Done) ∧ e'.pos = e.pos + 1 ∧
      (m = s.buf ∨ e.cmd = .rdBytes ∧ m = s.buf.write (e.bufAddr.toNat + e.byteIdx) e.sh) := by
  obtain ⟨h1, h2, h3⟩ := h
  simp only [moveOn, e.ops_length]
  split
  · next hs =>
    refine ⟨_, s.buf, rfl, ⟨rfl, rfl, rfl, rfl⟩, .inl ⟨h1, h2, hs⟩, ?_, .inl rfl⟩
    show (e.byteIdx * e.bits + e.bitIdx) * e.round + (e.step + 1) = e.pos + 1
    simp only [Engine.pos]; omega
  · next hs =>
    have hr : e.round = e.step + 1 := by omega
    split
    · next hb =>
      refine ⟨_, s.buf, rfl, ⟨rfl, rfl, rfl, rfl⟩, .inl ⟨h1, hb, by simp only; exact (by omega : 0 < e.round)⟩, ?_, .inl rfl⟩
      show (e.byteIdx * e.bits + (e.bitIdx + 1)) * e.round + 0 = e.pos + 1
      simp only [Engine.pos]
      rw [show e.byteIdx * e.bits + (e.bitIdx + 1) = (e.byteIdx * e.bits + e.bitIdx) + 1 by omega, Nat.add_mul]
      omega
    · next hb =>
      have hbits : e.bits = e.bitIdx + 1 := by omega
      have hpos : ((e.byteIdx + 1) * e.bits + 0) * e.round + 0 = e.pos + 1 := by
        simp only [Engine.pos]
        rw [Nat.add_mul e.byteIdx 1 e.bits, show e.byteIdx * e.bits + 1 * e.bits + 0
          = (e.byteIdx * e.bits + e.bitIdx) + 1 by omega, Nat.add_mul]
        omega
      have hAt : ∀ e' : Engine, e.Same e' → e'.byteIdx = e.byteIdx + 1 → e'.bitIdx = 0 → e'.step = 0 →
          e'.At ∨ e'.Done := by
        intro e' hs' q1 q2 q3
        by_cases hlast : e.byteIdx + 1 < e.bytes
        · exact .inl ⟨by rw [hs'.bytes, q1]; exact hlast, by rw [hs'.bits, q2]; exact e.bits_pos, by rw [hs'.round, q3]; omega⟩
        · exact .inr ⟨by rw [hs'.bytes, q1]; omega, q2, q3⟩
      simp only [endByte]
      split
      · next hc =>
        exact ⟨_, _, rfl, ⟨rfl, rfl, rfl, rfl⟩, hAt _ ⟨rfl, rfl, rfl, rfl⟩ rfl rfl rfl, hpos, .inr ⟨hc, rfl⟩⟩
      · exact ⟨_, s.buf, rfl, ⟨rfl, rfl, rfl, rfl⟩, hAt _ ⟨rfl, rfl, rfl, rfl⟩ rfl rfl rfl, hpos, .inl rfl⟩

/-! ### Runs -/

theorem run_succ (k : Nat) (s : State) : Host.Core.run Sys2Proof.core (k + 1) s = match step s with
    | .next t => Host.Core.run Sys2Proof.core k t
    | .fault r => .fault r
    | .refused r => .refused r := by
  simp only [Host.Core.run]
  have : Sys2Proof.core.step s = step s := rfl
  rw [this]
  cases step s <;> rfl

theorem run_of_next {k : Nat} {s t : State} (h : step s = .next t) :
    Host.Core.run Sys2Proof.core (k + 1) s = Host.Core.run Sys2Proof.core k t := by
  rw [run_succ, h]

theorem run_of_fault {k : Nat} {s : State} {r : Fault} (h : step s = .fault r) :
    Host.Core.run Sys2Proof.core (k + 1) s = .fault r := by
  rw [run_succ, h]

/-! ### One step -/

theorem fetchByte_cases (e : Engine) (s : State) :
    (fetchByte e s = .error (.unwrittenBuf (e.bufAddr.toNat + e.byteIdx)) ∧ e.cmd = .wrBytes ∧
      s.readBuf (e.bufAddr.toNat + e.byteIdx) = none) ∨ ∃ x, fetchByte e s = .ok { e with sh := x } := by
  simp only [fetchByte]
  split
  · next hc =>
    split
    · cases s.readBuf (e.bufAddr.toNat + e.byteIdx) with
      | none => exact .inl ⟨rfl, hc, rfl⟩
      | some x => exact .inr ⟨x, rfl⟩
    · exact .inr ⟨e.sh, rfl⟩
  · exact .inr ⟨e.sh, rfl⟩

/-- Where the engine stops for a byte of `BUF`, the command is one that reads it, and the byte is in its range. -/
theorem Engine.meetsUnwritten {e : Engine} {s : State} (hr : readsBuf e.cmd = true) (hb : e.byteIdx < e.bytes)
    (hn : s.readBuf (e.bufAddr.toNat + e.byteIdx) = none) : e.MeetsUnwritten s (e.bufAddr.toNat + e.byteIdx) := by
  refine ⟨hr, ⟨Nat.le_add_right _ _, ?_⟩, hn⟩
  have : e.bytes = e.bufLen.toNat := by cases h : e.cmd <;> simp_all [readsBuf, Engine.bytes]
  omega

/-- Everything a step of the engine can do: stop at an unwritten byte, complete after the last micro-operation, end with
the error of the pin micro-operation it made, or go on after one micro-operation. -/
theorem engineStep_cases (e : Engine) (s : State) :
    (∃ i, engineStep e s = .fault (.unwrittenBuf i) ∧ e.MeetsUnwritten s i) ∨
    (e.next s.timing = none ∧ engineStep e s = .next (finishCommand e s)) ∨
    (∃ er ev, engineStep e s = .next (raisePin er e.failCount (s.afterOps 1 [ev] s.drvlow)) ∧ Event.time ev = 0 ∧
      s.answerAt 0 = .err er ∧ e.next s.timing ≠ none ∧ driveAfter s.drvlow [ev] = s.drvlow) ∨
    (∃ sh crc n evs low, engineStep e s = .next (moveOn { e with sh := sh, crc := crc } (s.afterOps n evs low)) ∧
      e.next s.timing ≠ none ∧ n ≤ 1 ∧ evs.length ≤ 1 ∧
      (low = s.drvlow ∨ low = false ∨ low = true ∧ e.next s.timing = some .pinLow) ∧ low = driveAfter s.drvlow evs) := by
  simp only [engineStep]
  cases hn : e.next s.timing with
  | none => exact .inr (.inl ⟨rfl, rfl⟩)
  | some op =>
    have hb : e.byteIdx < e.bytes := by
      by_contra hb
      simp [Engine.next, hb] at hn
    refine .imp_right (fun h => .inr h) ?_
    cases op with
    | wait n =>
      exact .inr (.inr ⟨e.sh, e.crc, 0, [.wait e.delay], s.drvlow, by simp only [wait_eq], by simp, by omega, by simp,
        .inl rfl, rfl⟩)
    | pinLow =>
      rcases fetchByte_cases e s with ⟨hi, hc, hn⟩ | ⟨x, hx⟩
      · rw [hi]; exact .inl ⟨_, rfl, e.meetsUnwritten (by rw [hc]; rfl) hb hn⟩
      · rw [hx]
        cases ha : s.answerAt 0 with
        | ok v =>
          refine .inr (.inr ⟨x, e.crc, 1, [.low], true, ?_, by simp, by omega, by simp, .inr (.inr ⟨rfl, rfl⟩), rfl⟩)
          simp only [Engine.after, pinLow_ok (s := s) (by rw [ha]; rfl)]
        | err er =>
          refine .inr (.inl ⟨er, .lowFail er, ?_, rfl, rfl, by simp, rfl⟩)
          simp only [Engine.after, pinLow_err ha]; rfl
    | pinRelease =>
      cases ha : s.answerAt 0 with
      | ok v =>
        refine .inr (.inr ⟨e.sh, e.crc, 1, [.rel], false, ?_, by simp, by omega, by simp, .inr (.inl rfl), rfl⟩)
        simp only [Engine.after, pinRelease_ok (s := s) (by rw [ha]; rfl)]
      | err er =>
        refine .inr (.inl ⟨er, .relFail er, ?_, rfl, rfl, by simp, rfl⟩)
        simp only [Engine.after, pinRelease_err ha]
    | pinQuery =>
      cases ha : s.answerAt 0 with
      | ok v =>
        refine .inr (.inr ⟨placeBit e.sh v e.bitIdx, e.crc, 1, [.sample v], s.drvlow, ?_, by simp, by omega, by simp,
          .inl rfl, rfl⟩)
        have hq := pinQuery_ok (s := s) (by rw [ha]; rfl)
        rw [ha] at hq
        rw [hq]; rfl
      | err er =>
        refine .inr (.inl ⟨er, .sampleFail er, ?_, rfl, rfl, by simp, rfl⟩)
        simp only [Engine.after, pinQuery_err ha]
    | foldByte =>
      have hc : readsBuf e.cmd = true := by
        have hm := List.mem_of_getElem? (show (e.ops s.timing)[e.step]? = some MicroOp.foldByte by
          simpa [Engine.next, hb] using hn)
        cases h : e.cmd <;> simp [Engine.ops, h, readSlotOps, writeSlotOps] at hm <;> rfl
      simp only
      cases hr : s.readBuf (e.bufAddr.toNat + e.byteIdx) with
      | none => exact .inl ⟨_, rfl, e.meetsUnwritten hc hb hr⟩
      | some b =>
        refine .inr (.inr ⟨e.sh, crcByte e.crc b, 0, [], s.drvlow, ?_, by simp, by omega, by simp, .inl rfl, rfl⟩)
        simp only [State.afterOps_zero]

/-- The success completion (R186), field by field. -/
theorem finishCommand_spec (e : Engine) (s : State) : ∃ (t : Timing) (ini : Bool) (evs : List Event) (low : Bool)
    (v : ErrorValue) (r : Byte) (k : Word),
    finishCommand e s = ({ s with timing := t, init := ini }.afterOps 0 evs low).completedWith v r k ∧
    (t = s.timing ∨ (e.cmd = .init ∨ e.cmd = .tPreset) ∧ t = s.params.preset) ∧
    (ini = s.init ∧ low = s.drvlow ∨ e.cmd = .init ∧ ini = true ∧ low = s.drvlow ∨
      e.cmd = .drop ∧ ini = false ∧ low = false) ∧
    (evs = [] ∨ evs = [.dropped]) ∧ low = driveAfter s.drvlow evs ∧
    (v = .success ∨ e.cmd = .crcCheck ∧ r ≠ 0#8 ∧ v = .protocol (.crc r)) := by
  have base : ∀ (v : ErrorValue) (r : Byte) (k : Word),
      complete v r k s = (({ s with timing := s.timing, init := s.init } : State).afterOps 0 [] s.drvlow).completedWith v r k :=
    fun v r k => by rw [complete_eq]; simp [State.afterOps]
  cases hc : e.cmd with
  | tPreset =>
    refine ⟨s.params.preset, s.init, [], s.drvlow, .success, 0#8, 0#32, ?_, .inr ⟨.inr rfl, rfl⟩, .inl ⟨rfl, rfl⟩, .inl rfl, rfl, .inl rfl⟩
    simp only [finishCommand, hc, completeOk, complete_eq]; simp [State.afterOps, loadPreset]
  | init =>
    refine ⟨s.params.preset, true, [], s.drvlow, .success, 0#8, 0#32, ?_, .inr ⟨.inl rfl, rfl⟩, .inr (.inl ⟨rfl, rfl, rfl⟩), .inl rfl, rfl, .inl rfl⟩
    simp only [finishCommand, hc, completeOk, complete_eq]; simp [State.afterOps, construct, loadPreset]
  | drop =>
    refine ⟨s.timing, false, [.dropped], false, .success, 0#8, 0#32, ?_, .inl rfl, .inr (.inr ⟨rfl, rfl, rfl⟩), .inr rfl, rfl, .inl rfl⟩
    simp only [finishCommand, hc, completeOk, complete_eq]; simp [State.afterOps, destroy, State.emit, Event.time]
  | crcCheck =>
    by_cases h0 : e.crc = 0#8
    · refine ⟨s.timing, s.init, [], s.drvlow, .success, 0#8, e.bufLen, ?_, .inl rfl, .inl ⟨rfl, rfl⟩, .inl rfl, rfl, .inl rfl⟩
      simp only [finishCommand, hc, crcVerdict, if_pos h0, completeOk]; exact base _ _ _
    · refine ⟨s.timing, s.init, [], s.drvlow, .protocol (.crc e.crc), e.crc, e.bufLen, ?_, .inl rfl, .inl ⟨rfl, rfl⟩,
        .inl rfl, rfl, .inr ⟨rfl, h0, rfl⟩⟩
      simp only [finishCommand, hc, crcVerdict, if_neg h0, raiseCrc]; exact base _ _ _
  | _ =>
    simp only [finishCommand, hc, completeOk]
    exact ⟨s.timing, s.init, [], s.drvlow, .success, _, _, base _ _ _, .inl rfl, .inl ⟨rfl, rfl⟩, .inl rfl, rfl, .inl rfl⟩

end Sys2Proof.Machine
end

