-- ==== Sys2Proof/Laws/HostPort.lean ====
section
/-! SUPPORT. Everything a host action can do (R61, R64, R73, R86, R90). -/

namespace Sys2Proof.Machine

/-! ### The address port (R38, R61) -/

theorem Params.portAddr_of_lt {p : Params} {a : HostAddr} (h : a < 2 ^ p.hostAW) : p.portAddr a = a :=
  Nat.mod_eq_of_lt h

/-- The port carries every address of the default map. -/
theorem Params.portAddr_default {p : Params} {a : HostAddr} (h : a < 0x200) : p.portAddr a = a :=
  portAddr_of_lt (lt_of_lt_of_le h (Nat.pow_le_pow_right (n := 2) (i := 9) (by decide) (Nat.le_max_left _ _)))

/-- R61: `HOST_AW` covers the window, whatever `BUF_SIZE`. -/
theorem Params.portAddr_window {p : Params} {i : Nat} (h : i < p.bufSize) : p.portAddr (0x100 + i) = 0x100 + i := by
  have hw : 0x100 + i ≤ Config.bufWindow + p.bufSize - 1 := by simp only [Config.bufWindow]; omega
  exact portAddr_of_lt (lt_of_le_of_lt hw (lt_of_lt_of_le Nat.lt_log2_self
    (Nat.pow_le_pow_right (by decide) (Nat.le_max_right _ _))))

/-- What an access at a register's offset reaches (R61). -/
theorem target_word {p : Params} {a : HostAddr} (h : a < 0x200) : target p .word a = (Reg.ofOffset a).map .reg := by
  simp only [target, Params.portAddr_default h]

/-- What an access in the window reaches (R63). -/
theorem target_window {p : Params} {i : Nat} (h : i < p.bufSize) : target p .byte (0x100 + i) = some (.buf i) := by
  simp [target, Params.portAddr_window h, Config.bufWindow, h]

/-! ### Host actions -/

/-- Moving on writes the transient state and `BUF` alone, at any position. -/
theorem moveOn_any (e : Engine) (s : State) : ∃ (e' : Engine) (m : Memory), moveOn e s = { s with buf := m, engine := some e' } := by
  simp only [moveOn]
  split
  · exact ⟨_, s.buf, rfl⟩
  · split
    · exact ⟨_, s.buf, rfl⟩
    · simp only [endByte]; split
      · exact ⟨_, _, rfl⟩
      · exact ⟨_, s.buf, rfl⟩

/-- Everything a write to `CMD` can do (R86). -/
theorem issue_cases (w : Word) (s : State) : (∃ c, issue w s = s.refusedWith c) ∨
   ∃ i, decode w = .ok i ∧ acceptance i s = none ∧ issue w s = latch i s := by
  simp only [issue]
  split
  · exact .inl ⟨_, refuse_eq _ _⟩
  · cases hd : decode w with
    | error d => exact .inl ⟨_, refuse_eq _ _⟩
    | ok i =>
      simp only
      cases ha : acceptance i s with
      | some c => exact .inl ⟨_, refuse_eq _ _⟩
      | none => exact .inr ⟨i, rfl, ha, rfl⟩

/-- Everything a host write can do (R61, R64, R73): a refusal, a command latched, a byte stored, an operand register
or a timing register written. -/
theorem hostWrite_cases (size : AccessSize) (addr : HostAddr) (v : Word) (s : State) :
    (∃ c, hostWrite size addr v s = s.refusedWith c) ∨
    (s.busy = false ∧ ∃ i, size = .word ∧ s.params.portAddr addr = 0 ∧ decode v = .ok i ∧ acceptance i s = none ∧ hostWrite size addr v s = latch i s) ∨
    (s.busy = false ∧ ∃ i < s.params.bufSize, hostWrite size addr v s = s.writeBuf i (v.setWidth 8)) ∨
    (s.busy = false ∧ ∃ a b c, hostWrite size addr v s = { s with arg := a, bufAddr := b, bufLen := c}) ∨
    (s.busy = false ∧ size = .word ∧ 0x20 ≤ s.params.portAddr addr ∧ s.params.portAddr addr ≤ 0x34 ∧ ∃ t, hostWrite size addr v s = { s with timing := t}) := by
  cases size with
  | half => exact .inl ⟨_, by simp [hostWrite, target]; rfl⟩
  | byte =>
    simp only [hostWrite, target]
    split
    · exact .inl ⟨_, refuse_eq _ _⟩
    · next h => split at h <;> simp at h
    · next i h =>
      split at h
      · next hr =>
        simp at h
        by_cases hb : s.busy = true
        · exact .inl ⟨_, by rw [if_pos hb, refuse_eq]⟩
        · rw [if_neg hb]
          exact .inr (.inr (.inl ⟨by simpa using hb, i, by omega, rfl⟩))
      · simp at h
  | word =>
    simp only [hostWrite, target]
    generalize s.params.portAddr addr = off
    cases ho : Reg.ofOffset off with
    | none => exact .inl ⟨_, by simp; rfl⟩
    | some r =>
      simp only [Option.map]
      cases hro : r.readOnly
      · by_cases hbt : s.busy = true
        · exact .inl ⟨_, by rw [if_neg (by simp), if_pos hbt, refuse_eq]⟩
        · have hb : s.busy = false := by simpa using hbt
          rw [if_neg (by simp), if_neg hbt]
          unfold Reg.ofOffset at ho
          split at ho <;> simp at ho <;> subst ho <;> simp [Reg.readOnly] at hro <;> simp only [writeReg]
          · rcases issue_cases v s with h | ⟨i, h1, h2, h3⟩
            · exact .inl h
            · exact .inr (.inl ⟨hb, i, by trivial, by trivial, h1, h2, h3⟩)
          · exact .inr (.inr (.inr (.inl ⟨hb, _, _, _, rfl⟩)))
          · exact .inr (.inr (.inr (.inl ⟨hb, _, _, _, rfl⟩)))
          · exact .inr (.inr (.inr (.inl ⟨hb, _, _, _, rfl⟩)))
          all_goals exact .inr (.inr (.inr (.inr ⟨hb, by trivial, by decide, by decide, _, rfl⟩)))
      · exact .inl ⟨_, by simp; rfl⟩

/-- Everything a host read can do (R63, R64). -/
theorem hostRead_cases (size : AccessSize) (addr : HostAddr) (s : State) :
    (∃ i, hostRead size addr s = .fault (.unwrittenBuf i)) ∨ (∃ d, hostRead size addr s = .next { s with hostData := d}) ∨
    (∃ c d, hostRead size addr s = .next { s.refusedWith c with hostData := d}) := by
  simp only [hostRead]
  split
  · exact .inr (.inr ⟨_, _, by rw [refuse_eq]⟩)
  · exact .inr (.inl ⟨_, rfl⟩)
  · split
    · exact .inl ⟨_, rfl⟩
    · exact .inr (.inl ⟨_, rfl⟩)

/-- Everything a poll of `STATUS` can do (R90): read it, and while it says busy let the engine take its turn and poll
again. -/
theorem pollStatus_cases (s : State) :
    (s.engine = none ∧ pollStatus s = .next { s with hostData := s.statusWord }) ∨
    (∃ e, s.engine = some e ∧ pollStatus s = engineTurn { s with hostData := s.statusWord, host := .poll :: s.host }) := by
  cases h : s.engine with
  | none => exact .inl ⟨rfl, by simp [pollStatus, State.busy, h]⟩
  | some e => exact .inr ⟨e, rfl, by simp [pollStatus, State.busy, h]⟩

/-- Everything a command line can do (R90). -/
theorem callCommand_cases (w : Word) (s : State) :
   (∃ c, callCommand w s = .next (s.refusedWith c)) ∨ (∃ i, decode w = .ok i ∧ acceptance i s = none ∧ callCommand w s = exec i s) := by
  simp only [callCommand]
  cases hd : decode w with
  | error d => exact .inl ⟨_, by simp only [refuse_eq]; rfl⟩
  | ok i =>
    cases ha : acceptance i s with
    | some c => exact .inl ⟨c, exec_refused ha⟩
    | none => exact .inr ⟨i, rfl, ha, rfl⟩

end Sys2Proof.Machine
end

