-- ==== Sys2Proof/Laws/Micro.lean ====
section
/-! SUPPORT. The engine's micro-steps against the pieces of the meanings (R34, R68, D28): a slot and a byte, run step by
step, reach what `readSlot`, `writeSlot`, `readByte`, `writeByte` give in one piece. -/

namespace Sys2Proof.Machine

/-- Some number of steps from `s` has the outcome `o`. -/
def Ends (s : State) (o : Out) : Prop := ∃ k, Host.Core.run Sys2Proof.core k s = o

theorem Ends.done (s : State) : Ends s (.next s) := ⟨0, rfl⟩

theorem Ends.step {s t : State} {o : Out} (h : step s = .next t) (ht : Ends t o) : Ends s o := by
  obtain ⟨k, hk⟩ := ht
  exact ⟨k + 1, by rw [run_of_next h, hk]⟩

theorem Ends.fault {s : State} {f : Fault} (h : Machine.step s = .fault f) : Ends s (.fault f) :=
  ⟨1, run_of_fault h⟩

/-- `s` while the sequencer is at `e`. -/
def State.withEngine (s : State) (e : Engine) : State := { s with engine := some e }

@[simp] theorem State.withEngine_timing (s : State) (e : Engine) : (s.withEngine e).timing = s.timing := rfl
@[simp] theorem State.withEngine_drvlow (s : State) (e : Engine) : (s.withEngine e).drvlow = s.drvlow := rfl
@[simp] theorem State.withEngine_answerAt (s : State) (e : Engine) (k : Nat) :
    (s.withEngine e).answerAt k = s.answerAt k := rfl
@[simp] theorem State.withEngine_readBuf (s : State) (e : Engine) (i : Nat) :
    (s.withEngine e).readBuf i = s.readBuf i := rfl
@[simp] theorem State.withEngine_withEngine (s : State) (e e' : Engine) :
    (s.withEngine e).withEngine e' = s.withEngine e' := rfl
@[simp] theorem State.withEngine_host (s : State) (e : Engine) : (s.withEngine e).host = s.host := rfl
@[simp] theorem State.afterOps_host (s : State) (n evs low) : (s.afterOps n evs low).host = s.host := rfl
theorem State.withEngine_afterOps (s : State) (e : Engine) (n evs low) :
    (s.withEngine e).afterOps n evs low = (s.afterOps n evs low).withEngine e := rfl

@[simp] theorem raisePin_withEngine (er : PinErr) (k : Word) (s : State) (e : Engine) :
    raisePin er k (s.withEngine e) = raisePin er k s := rfl
@[simp] theorem complete_withEngine (v : ErrorValue) (r : Byte) (k : Word) (s : State) (e : Engine) :
    complete v r k (s.withEngine e) = complete v r k s := rfl

/-- The sequencer arrives at `e` (R43). -/
def State.enter (s : State) (e : Engine) : State := s.withEngine (e.arrive s.timing)

@[simp] theorem State.withEngine_enter (s : State) (e e' : Engine) : (s.withEngine e').enter e = s.enter e := rfl

/-- Arriving does not depend on the delay counter before. -/
theorem State.enter_with_delay (s : State) (e : Engine) (d : Word) : s.enter { e with delay := d } = s.enter e := by
  have : Engine.arrive { e with delay := d } s.timing = e.arrive s.timing := by
    simp only [Engine.arrive]
    rw [Engine.next_congr (e := e) (e' := { e with delay := d }) ⟨rfl, rfl, rfl, rfl⟩ rfl rfl rfl rfl]
  rw [State.enter, this]; rfl

theorem State.enter_congr {s : State} {e e' : Engine} (h : e.Same e') (h1 : e'.byteIdx = e.byteIdx)
    (h2 : e'.bitIdx = e.bitIdx) (h3 : e'.step = e.step) (h4 : e'.sh = e.sh) (h5 : e'.crc = e.crc) :
    s.enter e' = s.enter e := by
  obtain ⟨a, b, c, d⟩ := h
  have : e' = { e with delay := e'.delay } := by cases e; cases e'; simp_all
  rw [this]
  exact s.enter_with_delay e _

/-- In the middle of a round, moving on is the next step of the same round. -/
theorem moveOn_within {e : Engine} {s : State} (h : e.step + 1 < e.round) :
    moveOn e s = s.enter { e with step := e.step + 1 } := by
  rw [moveOn, Engine.ops_length, if_pos h]; rfl

/-- At the end of a slot that is not the last of its byte. -/
theorem moveOn_next_bit {e : Engine} {s : State} (h : e.round ≤ e.step + 1) (h' : e.bitIdx + 1 < e.bits) :
    moveOn e s = s.enter { e with step := 0, bitIdx := e.bitIdx + 1 } := by
  rw [moveOn, Engine.ops_length, if_neg (by omega), if_pos h']; rfl

/-- At the end of the last slot of a byte of `RD.BYTES`. -/
theorem moveOn_stored {e : Engine} {s : State} (h : e.round ≤ e.step + 1) (h' : e.bits ≤ e.bitIdx + 1)
    (hc : e.cmd = .rdBytes) : moveOn e s = (s.writeBuf (e.bufAddr.toNat + e.byteIdx) e.sh).enter
      { e with step := 0, bitIdx := 0, byteIdx := e.byteIdx + 1, sh := 0#8 } := by
  rw [moveOn, Engine.ops_length, if_neg (by omega), if_neg (by omega), endByte]
  simp only [hc]
  rfl

/-- At the end of the last round of a byte of any other command. -/
theorem moveOn_next_byte {e : Engine} {s : State} (h : e.round ≤ e.step + 1) (h' : e.bits ≤ e.bitIdx + 1)
    (hc : e.cmd ≠ .rdBytes) :
    moveOn e s = s.enter { e with step := 0, bitIdx := 0, byteIdx := e.byteIdx + 1 } := by
  rw [moveOn, Engine.ops_length, if_neg (by omega), if_neg (by omega), endByte]
  split
  · next h => exact absurd h hc
  · rfl

/-- Moving on does not look at the transient state in `s`, nor at the delay counter. -/
theorem moveOn_congr {e : Engine} {s : State} (e' : Engine) (d : Word) :
    moveOn { e with delay := d } (s.withEngine e') = moveOn e s := by
  by_cases h : e.step + 1 < e.round
  · rw [moveOn_within h, moveOn_within (e := { e with delay := d }) h, State.withEngine_enter,
      ← State.enter_with_delay _ { e with step := e.step + 1 } d]
  · by_cases h' : e.bitIdx + 1 < e.bits
    · rw [moveOn_next_bit (by omega) h', moveOn_next_bit (e := { e with delay := d }) (Nat.not_lt.1 h) h',
        State.withEngine_enter, ← State.enter_with_delay _ { e with step := 0, bitIdx := e.bitIdx + 1 } d]
    · by_cases hc : e.cmd = .rdBytes
      · rw [moveOn_stored (by omega) (by omega) hc,
          moveOn_stored (e := { e with delay := d }) (Nat.not_lt.1 h) (Nat.not_lt.1 h') hc]
        exact State.enter_with_delay _ { e with step := 0, bitIdx := 0, byteIdx := e.byteIdx + 1, sh := 0#8 } d
      · rw [moveOn_next_byte (by omega) (by omega) hc,
          moveOn_next_byte (e := { e with delay := d }) (Nat.not_lt.1 h) (Nat.not_lt.1 h') hc]
        exact State.enter_with_delay _ { e with step := 0, bitIdx := 0, byteIdx := e.byteIdx + 1 } d

/-- On arrival at anything but a `Wait` the delay counter is 0. -/
theorem State.enter_of_not_wait {s : State} {e : Engine} (h : ∀ n, e.next s.timing ≠ some (.wait n)) :
    s.enter e = s.withEngine { e with delay := 0#32 } := by
  rw [State.enter, Engine.arrive]
  split
  · next n hn => exact absurd hn (h n)
  · rfl

theorem Engine.next_with_delay (e : Engine) (d : Word) (t : Timing) :
    ({ e with delay := d } : Engine).next t = e.next t :=
  Engine.next_congr ⟨rfl, rfl, rfl, rfl⟩ rfl rfl rfl rfl t

/-- One step of the engine with no host action pending. -/
theorem step_withEngine {s : State} (h : s.host = []) (e : Engine) :
    step (s.withEngine e) = engineStep e (s.withEngine e) := by
  simp [step, h, engineTurn, State.withEngine]

/-- A `Wait` that is next advances the time by its own length (R12, R43). -/
theorem step_wait {s : State} {e : Engine} {n : Word} (hh : s.host = []) (hn : e.next s.timing = some (.wait n)) :
    step (s.enter e) = .next (moveOn e (s.afterOps 0 [.wait n] s.drvlow)) := by
  have ha : e.arrive s.timing = { e with delay := n } := by simp only [Engine.arrive, hn]
  rw [State.enter, ha, step_withEngine hh]
  simp only [engineStep, State.withEngine_timing, Engine.next_with_delay, hn, wait_eq, State.withEngine_drvlow,
    State.withEngine_afterOps]
  rw [moveOn_congr]

/-- A pin micro-operation that is next: its effect is that of the shared operation (R10). -/
theorem step_release {s : State} {e : Engine} (hh : s.host = []) (hn : e.next s.timing = some .pinRelease) :
    step (s.enter e) = .next (e.after (pinRelease s) fun _ => e) := by
  rw [State.enter_of_not_wait (by simp [hn]), step_withEngine hh]
  simp only [engineStep, State.withEngine_timing, Engine.next_with_delay, hn]
  cases ha : s.answerAt 0 with
  | ok v =>
    have hs : (s.answerAt 0).isOk = true := by rw [ha]; rfl
    rw [pinRelease_ok hs, pinRelease_ok (s := s.withEngine _) hs]
    simp only [Engine.after, State.withEngine_afterOps, moveOn_congr]
  | err er =>
    rw [pinRelease_err ha, pinRelease_err (s := s.withEngine _) ha]
    rfl

theorem step_query {s : State} {e : Engine} (hh : s.host = []) (hn : e.next s.timing = some .pinQuery) :
    step (s.enter e) = .next (e.after (pinQuery s) fun v => { e with sh := placeBit e.sh v e.bitIdx }) := by
  rw [State.enter_of_not_wait (by simp [hn]), step_withEngine hh]
  simp only [engineStep, State.withEngine_timing, Engine.next_with_delay, hn]
  cases ha : s.answerAt 0 with
  | ok v =>
    have h1 := pinQuery_ok (s := s) (by rw [ha]; rfl)
    have h2 := pinQuery_ok (s := s.withEngine { e with delay := 0#32 }) (by rw [State.withEngine_answerAt, ha]; rfl)
    rw [h1, h2]
    simp only [Engine.after, State.withEngine_answerAt, State.withEngine_drvlow, State.withEngine_afterOps]
    exact congrArg Host.Outcome.next
      (moveOn_congr (e := { e with sh := placeBit e.sh (s.answerAt 0).level e.bitIdx }) _ 0#32)
  | err er =>
    rw [pinQuery_err ha, pinQuery_err (s := s.withEngine _) ha]
    rfl

/-- Before a slot of `WR.BYTES` the byte is read; another command has its shift register. -/
theorem fetchByte_congr (e e' : Engine) (s : State) (d : Word) :
    fetchByte { e with delay := d } (s.withEngine e') = match fetchByte e s with
      | .ok f => .ok { f with delay := d }
      | .error f => .error f := by
  simp only [fetchByte, State.withEngine_readBuf]
  split
  · by_cases hb : e.bitIdx = 0
    · simp only [if_pos hb]
      cases s.readBuf (e.bufAddr.toNat + e.byteIdx) <;> rfl
    · simp only [if_neg hb]
  · rfl

theorem fetchByte_same {e f : Engine} {s : State} (h : fetchByte e s = .ok f) : f = { e with sh := f.sh } := by
  rcases fetchByte_cases e s with ⟨hi, -⟩ | ⟨x, hx⟩
  · rw [hi] at h; cases h
  · rw [hx] at h; cases h; rfl

theorem step_low {s : State} {e : Engine} (hh : s.host = []) (hn : e.next s.timing = some .pinLow) :
    step (s.enter e) = match fetchByte e s with
      | .ok f => .next (f.after (pinLow s) fun _ => f)
      | .error f => .fault f := by
  rw [State.enter_of_not_wait (by simp [hn]), step_withEngine hh]
  simp only [engineStep, State.withEngine_timing, Engine.next_with_delay, hn, fetchByte_congr]
  cases fetchByte e s with
  | error f => rfl
  | ok f =>
    simp only
    cases ha : s.answerAt 0 with
    | ok v =>
      have hs : (s.answerAt 0).isOk = true := by rw [ha]; rfl
      rw [pinLow_ok hs, pinLow_ok (s := s.withEngine _) hs]
      simp only [Engine.after, State.withEngine_afterOps, moveOn_congr]
    | err er =>
      rw [pinLow_err ha, pinLow_err (s := s.withEngine _) ha]
      rfl

theorem step_fold {s : State} {e : Engine} (hh : s.host = []) (hn : e.next s.timing = some .foldByte) :
    step (s.enter e) = match s.readBuf (e.bufAddr.toNat + e.byteIdx) with
      | some b => .next (moveOn { e with crc := crcByte e.crc b } s)
      | none => .fault (.unwrittenBuf (e.bufAddr.toNat + e.byteIdx)) := by
  rw [State.enter_of_not_wait (by simp [hn]), step_withEngine hh]
  simp only [engineStep, State.withEngine_timing, Engine.next_with_delay, hn, State.withEngine_readBuf]
  cases s.readBuf (e.bufAddr.toNat + e.byteIdx) with
  | none => rfl
  | some b => exact congrArg Host.Outcome.next (moveOn_congr (e := { e with crc := crcByte e.crc b }) _ 0#32)

/-- After the last micro-operation the command completes (R186). -/
theorem step_finish {s : State} {e : Engine} (hh : s.host = []) (hn : e.next s.timing = none) :
    step (s.enter e) = .next (finishCommand e s) := by
  rw [State.enter_of_not_wait (by simp [hn]), step_withEngine hh]
  simp only [engineStep, State.withEngine_timing, Engine.next_with_delay, hn]
  congr 1

/-! ### Slots and bytes -/

/-- A fallible piece in one go against the micro-steps from `s₀`: where it succeeds the engine gets to `k`, where it
raises the engine completes with that error and count `c`. -/
def PinResult.Leads {α : Type} (r : PinResult α) (s₀ : State) (c : Word) (k : α → State → State) : Prop :=
  match r with
  | .ok v t => ∀ o, Ends (k v t) o → Ends s₀ o
  | .raised e t => Ends s₀ (.next (raisePin e c t))

theorem PinResult.Leads.andThen {α β : Type} {s s₀ : State} {r : PinResult α} {c : Word} {k : α → State → State}
    {f : α → State → PinResult β} {k' : β → State → State} (hr : r.From s) (h : r.Leads s₀ c k)
    (hf : ∀ v n evs low, (f v (s.afterOps n evs low)).Leads (k v (s.afterOps n evs low)) c k') :
    (r.andThen f).Leads s₀ c k' := by
  match r, hr, h with
  | .raised e t, _, h => exact h
  | .ok v t, ⟨n, evs, low, ht, _⟩, h =>
    subst ht
    have := hf v n evs low
    simp only [PinResult.andThen]
    match f v (s.afterOps n evs low), this with
    | .ok w u, hu => exact fun o ho => h o (hu o ho)
    | .raised e u, hu => exact h _ hu

theorem PinResult.Leads.after_step {α : Type} {s₀ s₁ : State} {r : PinResult α} {c : Word} {k : α → State → State}
    (h : Machine.step s₀ = .next s₁) (hr : r.Leads s₁ c k) : r.Leads s₀ c k := by
  match r, hr with
  | .ok v t, hr => exact fun o ho => .step h (hr o ho)
  | .raised e t, hr => exact .step h hr

/-- A pin micro-operation of the running command. -/
theorem leads_after {α : Type} {s₀ : State} {e : Engine} {r : PinResult α} {k : α → Engine} {c : Word}
    (h : step s₀ = .next (e.after r k)) (hc : e.failCount = c) : r.Leads s₀ c fun v t => moveOn (k v) t := by
  subst hc
  match r, h with
  | .ok v t, h => exact fun o ho => .step h ho
  | .raised er t, h => exact .step h (.done _)

theorem PinResult.Leads.congr {α : Type} {s₀ : State} {r : PinResult α} {c : Word} {k k' : α → State → State}
    {s : State} (hr : r.From s) (h : r.Leads s₀ c k)
    (hk : ∀ v n evs low, k v (s.afterOps n evs low) = k' v (s.afterOps n evs low)) : r.Leads s₀ c k' := by
  match r, hr, h with
  | .raised e t, _, h => exact h
  | .ok v t, ⟨n, evs, low, ht, _⟩, h =>
    subst ht
    intro o ho
    exact h o (by rw [hk]; exact ho)

/-- The commands made of read slots. -/
def Engine.reads (e : Engine) : Prop := e.cmd = .rdBit ∨ e.cmd = .rdByte ∨ e.cmd = .rdBytes

theorem Engine.reads.next {e : Engine} (h : e.reads) (hb : e.byteIdx < e.bytes) (t : Timing) :
    e.next t = (readSlotOps t)[e.step]? := by
  have : e.ops t = readSlotOps t := by rcases h with h | h | h <;> simp [Engine.ops, h]
  simp [Engine.next, hb, this]

theorem Engine.reads.round {e : Engine} (h : e.reads) : e.round = 6 := by
  rcases h with h | h | h <;> simp [Engine.round, h]

theorem Engine.reads.fetch {e : Engine} (h : e.reads) (s : State) : fetchByte e s = .ok e := by
  rcases h with h | h | h <;> simp [fetchByte, h]

/-- R34, R151: a read slot, micro-step by micro-step. -/
theorem readSlot_leads {s : State} {e : Engine} (hh : s.host = []) (hr : e.reads) (hb : e.byteIdx < e.bytes)
    (h0 : e.step = 0) : (readSlot s).Leads (s.enter e) e.failCount
      fun v t => moveOn { e with step := 5, sh := placeBit e.sh v e.bitIdx } t := by
  have hn : ∀ (k : Nat) (t : Timing), ({ e with step := k } : Engine).next t = (readSlotOps t)[k]? :=
    fun k t => Engine.reads.next (e := { e with step := k }) hr hb t
  have he : e = { e with step := 0 } := by cases e; simp_all
  have hround : ∀ k, ({ e with step := k } : Engine).round = 6 := fun k => Engine.reads.round (e := { e with step := k }) hr
  have hlow : step (s.enter e) = .next (e.after (pinLow s) fun _ => e) := by
    rw [step_low hh (by rw [he, hn]; rfl), hr.fetch]
  refine (leads_after hlow rfl).andThen (pinLow_from s) fun _ n evs low => ?_
  have hs1 : moveOn e (s.afterOps n evs low) = (s.afterOps n evs low).enter { e with step := 1 } := by
    rw [moveOn_within (by rw [h0, hr.round]; omega), h0]
  simp only [hs1]
  refine .after_step (step_wait (n := s.timing.a) hh (by rw [hn]; rfl)) ?_
  rw [moveOn_within (by rw [hround]; simp), ← wait_eq, State.afterOps_timing]
  simp only
  generalize hw : wait s.timing.a (s.afterOps n evs low) = s2
  have hh2 : s2.host = [] := by rw [← hw]; exact hh
  have ht2 : s2.timing = s.timing := by rw [← hw]; rfl
  refine (leads_after (step_release (e := { e with step := 2 }) hh2 (by rw [hn]; rfl)) rfl).andThen
    (pinRelease_from s2) fun _ n evs low => ?_
  rw [moveOn_within (by rw [hround]; simp)]
  refine .after_step (step_wait (n := s2.timing.e) hh2 (by rw [hn]; rfl)) ?_
  rw [moveOn_within (by rw [hround]; simp), ← wait_eq, State.afterOps_timing]
  simp only
  generalize hw : wait s2.timing.e (s2.afterOps n evs low) = s3
  have hh3 : s3.host = [] := by rw [← hw]; exact hh2
  refine (leads_after (step_query (e := { e with step := 4 }) hh3 (by rw [hn]; rfl)) rfl).andThen
    (pinQuery_from s3) fun v n evs low => ?_
  rw [moveOn_within (by rw [Engine.reads.round (by exact hr)]; simp)]
  refine .after_step (step_wait (n := s3.timing.f) hh3
    (by rw [Engine.reads.next (by exact hr) (by exact hb)]; rfl)) ?_
  rw [← wait_eq, State.afterOps_timing]
  exact fun o ho => ho

/-- R34, R152: a write slot, micro-step by micro-step; `f` is `e` with the byte of `WR.BYTES` read. -/
theorem writeSlot_leads {s : State} {e f : Engine} {b : Bool} (hh : s.host = []) (hf : fetchByte e s = .ok f)
    (hlow : e.next s.timing = some .pinLow) (ho : ∀ t, f.ops t = writeSlotOps t b) (hr : f.round = 4)
    (hb : f.byteIdx < f.bytes) (h0 : f.step = 0) :
    (writeSlot b s).Leads (s.enter e) e.failCount fun _ t => moveOn { f with step := 3 } t := by
  have hn : ∀ (k : Nat) (t : Timing), ({ f with step := k } : Engine).next t = (writeSlotOps t b)[k]? := fun k t => by
    have h1 : ({ f with step := k } : Engine).bytes = f.bytes := rfl
    have h2 : ({ f with step := k } : Engine).ops t = f.ops t := rfl
    simp [Engine.next, h1, h2, hb, ho]
  have hround : ∀ k, ({ f with step := k } : Engine).round = 4 := fun k => hr
  have hcount : f.failCount = e.failCount := by rw [fetchByte_same hf]; rfl
  have hlow : step (s.enter e) = .next (f.after (pinLow s) fun _ => f) := by
    rw [step_low hh hlow, hf]
  refine (leads_after hlow hcount).andThen (pinLow_from s) fun _ n evs low => ?_
  have hs1 : moveOn f (s.afterOps n evs low) = (s.afterOps n evs low).enter { f with step := 1 } := by
    rw [moveOn_within (by rw [h0, hr]; omega), h0]
  simp only [hs1]
  refine .after_step (step_wait (n := s.timing.writeLow b) hh (by rw [hn]; rfl)) ?_
  rw [moveOn_within (by rw [hround]; simp), ← wait_eq, State.afterOps_timing]
  simp only
  generalize hw : wait (s.timing.writeLow b) (s.afterOps n evs low) = s2
  have hh2 : s2.host = [] := by rw [← hw]; exact hh
  refine (leads_after (step_release (e := { f with step := 2 }) hh2 (by rw [hn]; rfl)) hcount).andThen
    (pinRelease_from s2) fun _ n evs low => ?_
  rw [moveOn_within (by rw [hround]; simp)]
  refine .after_step (step_wait (n := s2.timing.writeRecovery b) hh2 (by rw [hn]; rfl)) ?_
  rw [← wait_eq, State.afterOps_timing]
  exact fun o ho => ho

/-- R34, R161: the loop of `ReadByte()`, micro-step by micro-step. -/
theorem readBits_leads (left : Nat) : ∀ (s : State) (e : Engine), s.host = [] → e.reads → e.bits = 8 →
    e.byteIdx < e.bytes → e.step = 0 → e.bitIdx + (left + 1) = 8 →
    (readBits (left + 1) e.bitIdx e.sh s).Leads (s.enter e) e.failCount
      fun x t => moveOn { e with step := 5, bitIdx := 7, sh := x } t := by
  induction left with
  | zero =>
    intro s e hh hr h8 hb h0 hi
    refine (readSlot_leads hh hr hb h0).andThen (readSlot_from s) fun v n evs low => ?_
    intro o ho
    have : e.bitIdx = 7 := by omega
    rw [this] at ho ⊢
    exact ho
  | succ left ih =>
    intro s e hh hr h8 hb h0 hi
    refine (readSlot_leads hh hr hb h0).andThen (readSlot_from s) fun v n evs low => ?_
    have := ih (s.afterOps n evs low) { e with step := 0, bitIdx := e.bitIdx + 1, sh := placeBit e.sh v e.bitIdx }
      hh hr h8 hb rfl (by simp only; omega)
    rw [moveOn_next_bit (by rw [Engine.reads.round (by exact hr)]) (by show e.bitIdx + 1 < e.bits; omega)]
    exact this

theorem readByte_leads {s : State} {e : Engine} (hh : s.host = []) (hr : e.reads) (h8 : e.bits = 8)
    (hb : e.byteIdx < e.bytes) (h0 : e.step = 0) (hi : e.bitIdx = 0) (hs : e.sh = 0#8) :
    (readByte s).Leads (s.enter e) e.failCount fun x t => moveOn { e with step := 5, bitIdx := 7, sh := x } t := by
  have := readBits_leads 7 s e hh hr h8 hb h0 (by omega)
  rw [hi, hs] at this
  exact this

/-- The commands that send a byte. -/
def Engine.sends (e : Engine) : Prop := (∃ x, e.cmd = .wrByte x) ∨ e.cmd = .wrBytes

theorem Engine.sends.ops {e : Engine} (h : e.sends) (t : Timing) :
    e.ops t = writeSlotOps t (e.sh.getLsbD e.bitIdx) := by
  rcases h with ⟨x, h⟩ | h <;> simp [Engine.ops, h]

theorem Engine.sends.round {e : Engine} (h : e.sends) : e.round = 4 := by
  rcases h with ⟨x, h⟩ | h <;> simp [Engine.round, h]

theorem Engine.sends.bits {e : Engine} (h : e.sends) : e.bits = 8 := by
  rcases h with ⟨x, h⟩ | h <;> simp [Engine.bits, h]

theorem Engine.sends.next_low {e : Engine} (h : e.sends) (hb : e.byteIdx < e.bytes) (h0 : e.step = 0) (t : Timing) :
    e.next t = some .pinLow := by
  simp [Engine.next, hb, h.ops, h0, writeSlotOps]

theorem fetchByte_later {e : Engine} (h : e.bitIdx ≠ 0) (s : State) : fetchByte e s = .ok e := by
  simp only [fetchByte]
  split
  · rw [if_neg h]
  · rfl

/-- R34, R162: the loop of `WriteByte(x)`, micro-step by micro-step. -/
theorem writeBits_leads (left : Nat) : ∀ (s : State) (e f : Engine), s.host = [] → e.sends → fetchByte e s = .ok f →
    e.byteIdx < e.bytes → e.step = 0 → e.bitIdx + (left + 1) = 8 →
    (writeBits f.sh (left + 1) e.bitIdx s).Leads (s.enter e) e.failCount
      fun _ t => moveOn { f with step := 3, bitIdx := 7 } t := by
  induction left with
  | zero =>
    intro s e f hh hr hf hb h0 hi
    have hfe := fetchByte_same hf
    have hr' : f.sends := by rw [hfe]; exact hr
    have hfi : f.bitIdx = e.bitIdx := by rw [hfe]
    refine (writeSlot_leads hh hf (hr.next_low hb h0 _) (fun t => by rw [hr'.ops, hfi]) hr'.round
      (by rw [hfe]; exact hb) (by rw [hfe]; exact h0)).andThen (writeSlot_from _ s) fun v n evs low => ?_
    intro o ho
    have : f.bitIdx = 7 := by omega
    have hf7 : ({ f with step := 3 } : Engine) = { f with step := 3, bitIdx := 7 } := by rw [← this]
    rw [hf7]
    exact ho
  | succ left ih =>
    intro s e f hh hr hf hb h0 hi
    have hfe := fetchByte_same hf
    have hr' : f.sends := by rw [hfe]; exact hr
    have hfi : f.bitIdx = e.bitIdx := by rw [hfe]
    have hfb : f.byteIdx < f.bytes := by rw [hfe]; exact hb
    have hc : f.failCount = e.failCount := by rw [hfe]; rfl
    refine (writeSlot_leads hh hf (hr.next_low hb h0 _) (fun t => by rw [hr'.ops, hfi]) hr'.round
      hfb (by rw [hfe]; exact h0)).andThen (writeSlot_from _ s) fun v n evs low => ?_
    have := ih (s.afterOps n evs low) { f with step := 0, bitIdx := f.bitIdx + 1 } { f with step := 0, bitIdx := f.bitIdx + 1 }
      hh hr' (fetchByte_later (by simp) _) hfb rfl (by simp only; omega)
    rw [moveOn_next_bit (by show f.round ≤ 3 + 1; rw [hr'.round])
      (by show f.bitIdx + 1 < f.bits; rw [hr'.bits]; omega)]
    rw [← hc, ← hfi]
    exact this

theorem writeByte_leads {s : State} {e : Engine} {x : Byte} (hh : s.host = []) (hr : e.sends)
    (hf : fetchByte e s = .ok { e with sh := x }) (hb : e.byteIdx < e.bytes) (h0 : e.step = 0) (hi : e.bitIdx = 0) :
    (writeByte x s).Leads (s.enter e) e.failCount
      fun _ t => moveOn { e with step := 3, bitIdx := 7, sh := x } t := by
  have := writeBits_leads 7 s e _ hh hr hf hb h0 (by omega)
  rw [hi] at this
  exact this

end Sys2Proof.Machine
end

