-- ==== Sys2Proof/Laws/PerInstr.lean ====
section
/-! SUPPORT. Per instruction: the command's word is in its own row of the opcode table (R81, R82), and its fields are the
ones R80 places. -/

namespace Sys2Proof.Laws.TableRow

/-- The word of the command, under its row's mask, is the row's match word; `rsv` is 0 and the operand is `imm8`. -/
def Statement (i : Instr) : Prop :=
  encode i &&& i.format.mask = i.rowMatch ∧ rsvField (encode i) = 0#16 ∧ immField (encode i) = i.imm8 ∧
    opcField (encode i) = i.opc

theorem crcCalc : Statement .crcCalc := ⟨by decide, rsvField_encode _, immField_encode _, opcField_encode _⟩

theorem crcAppend (seed : Byte) : Statement (.crcAppend seed) :=
  ⟨by revert seed; decide, rsvField_encode _, immField_encode _, opcField_encode _⟩

theorem crcCheck : Statement .crcCheck := ⟨by decide, rsvField_encode _, immField_encode _, opcField_encode _⟩

theorem tPreset : Statement .tPreset := ⟨by decide, rsvField_encode _, immField_encode _, opcField_encode _⟩

theorem init : Statement .init := ⟨by decide, rsvField_encode _, immField_encode _, opcField_encode _⟩

theorem drop : Statement .drop := ⟨by decide, rsvField_encode _, immField_encode _, opcField_encode _⟩

theorem setHigh : Statement .setHigh := ⟨by decide, rsvField_encode _, immField_encode _, opcField_encode _⟩

theorem setLow : Statement .setLow := ⟨by decide, rsvField_encode _, immField_encode _, opcField_encode _⟩

theorem isHigh : Statement .isHigh := ⟨by decide, rsvField_encode _, immField_encode _, opcField_encode _⟩

theorem isLow : Statement .isLow := ⟨by decide, rsvField_encode _, immField_encode _, opcField_encode _⟩

theorem delay : Statement .delay := ⟨by decide, rsvField_encode _, immField_encode _, opcField_encode _⟩

theorem rdBit : Statement .rdBit := ⟨by decide, rsvField_encode _, immField_encode _, opcField_encode _⟩

theorem wrBit (b : Bool) : Statement (.wrBit b) :=
  ⟨by cases b <;> decide, rsvField_encode _, immField_encode _, opcField_encode _⟩

theorem rdByte : Statement .rdByte := ⟨by decide, rsvField_encode _, immField_encode _, opcField_encode _⟩

theorem wrByte (x : Byte) : Statement (.wrByte x) :=
  ⟨by revert x; decide, rsvField_encode _, immField_encode _, opcField_encode _⟩

theorem rdBytes : Statement .rdBytes := ⟨by decide, rsvField_encode _, immField_encode _, opcField_encode _⟩

theorem wrBytes : Statement .wrBytes := ⟨by decide, rsvField_encode _, immField_encode _, opcField_encode _⟩

end Sys2Proof.Laws.TableRow
end

