-- ==== Sys2Proof/Tests/Slice0.lean ====
section
/-! SUPPORT. Small tests of one step each. Expected values are those of spec/95_test_vectors.md (S, V, P numbers in the
docstrings) or of the encoding tables of 30_encoding.md; none was produced by the model. -/

namespace Sys2Proof.Machine

/-! ### Helpers -/

/-- A block with a driver and a script of pad answers. -/
def ready (script : List PinAnswer) : State := { State.reset with init := true, padScript := script }

def oks (n : Nat) : List PinAnswer := List.replicate n (.ok true)

/-- The answers of complete read slots with the given samples. -/
def sampling (bits : List Bool) : List PinAnswer := bits.flatMap fun v => [.ok true, .ok true, .ok v]

/-- `data` in `BUF` from index `a` on, and as the buffer operand. -/
def State.holding (s : State) (a : Nat) (data : List Byte) : State :=
  { s with
    buf := data.zipIdx.map (fun x => (a + x.2, x.1))
    bufAddr := BitVec.ofNat 32 a
    bufLen := BitVec.ofNat 32 data.length }

def State.after (o : Out) : Option State :=
  match o with
  | .next t => some t
  | .fault _ | .refused _ => none

/-- What a test looks at: `STATUS`, `ERRINFO`, `RESULT`, `XFER_CNT`. -/
def State.regs (s : State) : Word × Word × Byte × Word := (s.statusWord, s.errinfo.word, s.result, s.xferCnt)

def regsAfter (o : Out) : Option (Word × Word × Byte × Word) := (State.after o).map State.regs
def traceAfter (o : Out) : Option (List Event) := (State.after o).map State.trace
def timeAfter (o : Out) : Option Nat := (State.after o).map State.now

/-- One host action from `s`. -/
def act (a : HostAction) (s : State) : Out := step { s with host := [a] }

def s1row1 : List Byte := [0x63#8, 0x01#8, 0x4B#8, 0x46#8, 0x7F#8, 0xFF#8, 0x0D#8, 0x10#8]

/-! ### Well-formed lines (R88, R89) -/

/-- Format N takes no operand. -/
theorem test_wf_operand_on_format_n : SourceLine.wf ⟨.init, some 0⟩ = false := by decide
/-- An alias takes none. -/
theorem test_wf_operand_on_alias : SourceLine.wf ⟨.wr1, some 1⟩ = false := by decide
/-- Format B needs its bit. -/
theorem test_wf_bit_missing : SourceLine.wf ⟨.wrBit, none⟩ = false := by decide
/-- Format B takes 0 or 1. -/
theorem test_wf_bit_too_large : SourceLine.wf ⟨.wrBit, some 2⟩ = false := by decide
/-- Format I needs its byte. -/
theorem test_wf_byte_missing : SourceLine.wf ⟨.wrByte, none⟩ = false := by decide
/-- Format I takes 0..255. -/
theorem test_wf_byte_too_large : SourceLine.wf ⟨.crcAppend, some 256⟩ = false := by decide
theorem test_wf_accepts : SourceLine.wf ⟨.init, none⟩ = true ∧ SourceLine.wf ⟨.wrBit, some 1⟩ = true ∧
    SourceLine.wf ⟨.wrByte, some 255⟩ = true ∧ SourceLine.wf ⟨.wr0, none⟩ = true := by decide
/-- R88: the word of `WR.BYTE 0xCC` (P1). -/
theorem test_line_word : SourceLine.word ⟨.wrByte, some 0xCC⟩ = some 0x0000CC51#32 := by decide

/-! ### Decoding: words written out from R80 to R83 -/

theorem test_decode_crcCalc : decode 0x00000010#32 = .ok .crcCalc := rfl
theorem test_decode_crcAppend : decode 0x00005E11#32 = .ok (.crcAppend 0x5E#8) := rfl
theorem test_decode_crcCheck : decode 0x00000012#32 = .ok .crcCheck := rfl
theorem test_decode_tPreset : decode 0x00000020#32 = .ok .tPreset := rfl
theorem test_decode_init : decode 0x00000030#32 = .ok .init := rfl
theorem test_decode_drop : decode 0x00000031#32 = .ok .drop := rfl
theorem test_decode_setHigh : decode 0x00000032#32 = .ok .setHigh := rfl
theorem test_decode_setLow : decode 0x00000033#32 = .ok .setLow := rfl
theorem test_decode_isHigh : decode 0x00000034#32 = .ok .isHigh := rfl
theorem test_decode_isLow : decode 0x00000035#32 = .ok .isLow := rfl
theorem test_decode_delay : decode 0x00000036#32 = .ok .delay := rfl
theorem test_decode_rdBit : decode 0x00000040#32 = .ok .rdBit := rfl
theorem test_decode_wrBit : decode 0x00000141#32 = .ok (.wrBit true) ∧ decode 0x00000041#32 = .ok (.wrBit false) :=
  ⟨rfl, rfl⟩
theorem test_decode_rdByte : decode 0x00000050#32 = .ok .rdByte := rfl
theorem test_decode_wrByte : decode 0x0000FF51#32 = .ok (.wrByte 0xFF#8) := rfl
theorem test_decode_rdBytes : decode 0x00000052#32 = .ok .rdBytes := rfl
theorem test_decode_wrBytes : decode 0x00000053#32 = .ok .wrBytes := rfl
/-- V6: reserved fields. -/
theorem test_decode_reserved : decode 0x00000130#32 = .error .reservedField ∧
    decode 0x00000241#32 = .error .reservedField ∧ decode 0x00010040#32 = .error .reservedField ∧
    decode 0x00010012#32 = .error .reservedField := ⟨rfl, rfl, rfl, rfl⟩
/-- V6: unassigned opcodes, checked before the reserved fields. -/
theorem test_decode_illegal : decode 0x00000000#32 = .error .illegalOpcode ∧
    decode 0x000000FF#32 = .error .illegalOpcode ∧ decode 0x00000037#32 = .error .illegalOpcode ∧
    decode 0x0001FF99#32 = .error .illegalOpcode := ⟨rfl, rfl, rfl, rfl⟩

/-! ### CRC unit (S1, S4, V1) -/

theorem test_crc_single_bytes : crcByte 0#8 0x01#8 = 0x5E#8 ∧ crcByte 0#8 0x80#8 = 0x8C#8 ∧
    crcByte 0#8 0xCC#8 = 0x69#8 ∧ crcByte 0#8 0xFF#8 = 0x35#8 ∧ crcByte 0x5E#8 0x00#8 = 0xC4#8 := by decide
/-- S1 row 1; the driver is absent and `STATUS` stays 0. -/
theorem test_crcCalc : regsAfter (exec .crcCalc (State.reset.holding 0 s1row1)) = some (0#32, 0#32, 0x15#8, 8#32) := by
  decide +kernel
/-- V1: `BUF_ADDR` 4, `BUF_LEN` 4, seed 0x90. -/
theorem test_crcAppend : regsAfter (exec (.crcAppend 0x90#8)
    { State.reset.holding 0 s1row1 with bufAddr := 4#32, bufLen := 4#32 }) = some (0#32, 0#32, 0x15#8, 4#32) := by decide +kernel
/-- V1: the checksum byte 21 passes. -/
theorem test_crcCheck_ok : regsAfter (exec .crcCheck (State.reset.holding 0 (s1row1 ++ [0x15#8])))
    = some (0#32, 0#32, 0#8, 9#32) := by decide +kernel
/-- S4, V1: 22 instead of 21 reports 0xE2. -/
theorem test_crcCheck_err : regsAfter (exec .crcCheck (State.reset.holding 0 (s1row1 ++ [0x16#8])))
    = some (0x00000004#32, 0x0000E242#32, 0xE2#8, 9#32) := by decide +kernel
/-- V1: no 32-bit wrap in the range check; the refusal leaves the result registers. -/
theorem test_crcCalc_range : regsAfter (exec .crcCalc { State.reset with bufAddr := 0xFFFFFFFF#32, bufLen := 2#32 })
    = some (0x00000610#32, 0#32, 0#8, 0#32) := by decide

/-! ### Timing configuration (V2) -/

/-- `ST T_A, 1` then `T.PRESET`: 6000 again. -/
theorem test_tPreset :
    (State.after (exec .tPreset { State.reset with timing := { Params.default.preset with a := 1#32 } })).map (fun t => (t.timing.a, t.statusWord)) = some (6000#32, 0#32) := by decide
theorem test_store_timing : (State.after (act (.write .word 0x30 0#32) State.reset)).map (fun t => t.timing)
    = some { Params.default.preset with e := 0#32 } := by decide

/-! ### Driver (S8, V3) -/

theorem test_init_ok : regsAfter (exec .init { State.reset with padScript := [.ok false] })
    = some (0x00000002#32, 0#32, 0#8, 0#32) ∧
    traceAfter (exec .init { State.reset with padScript := [.ok false] }) = some [.dropped, .rel] := by decide
theorem test_init_err : regsAfter (exec .init { State.reset with padScript := [.err 0x11#16] })
    = some (0x00000004#32, 0x00110001#32, 0#8, 0#32) ∧
    traceAfter (exec .init { State.reset with padScript := [.err 0x11#16] }) = some [.dropped, .relFail 17#16] := by decide
/-- A second `INIT` is refused. -/
theorem test_init_again : regsAfter (exec .init (ready [])) = some (0x00000512#32, 0#32, 0#8, 0#32) := by decide
theorem test_drop : regsAfter (exec .drop { ready [] with drvlow := true }) = some (0#32, 0#32, 0#8, 0#32) ∧
    traceAfter (exec .drop { ready [] with drvlow := true }) = some [.dropped, .dropped] := by decide
theorem test_setHigh : regsAfter (exec .setHigh { ready [.ok true] with drvlow := true })
    = some (0x00000002#32, 0#32, 0#8, 0#32) := by decide
theorem test_setLow_ok : regsAfter (exec .setLow (ready [.ok true])) = some (0x0000000A#32, 0#32, 0#8, 0#32) := by decide
theorem test_setLow_err : regsAfter (exec .setLow (ready [.err 9#16]))
    = some (0x00000006#32, 0x00090001#32, 0#8, 0#32) := by decide
/-- `SET.LOW` without a driver. -/
theorem test_setLow_not_init : regsAfter (exec .setLow State.reset) = some (0x00000410#32, 0#32, 0#8, 0#32) := by decide
theorem test_isHigh : regsAfter (exec .isHigh (ready [.ok true])) = some (0x00000002#32, 0#32, 1#8, 0#32) ∧
    regsAfter (exec .isHigh (ready [.err 0xFF#16])) = some (0x00000006#32, 0x00FF0001#32, 0#8, 0#32) := by decide
theorem test_isLow : regsAfter (exec .isLow (ready [.ok true])) = some (0x00000002#32, 0#32, 0#8, 0#32) ∧
    regsAfter (exec .isLow (ready [.ok false])) = some (0x00000002#32, 0#32, 1#8, 0#32) := by decide
/-- R37, the optional ideal wire (log 23): a line the block pulls low is sampled low. -/
theorem test_isHigh_ideal_wire : regsAfter (exec .isHigh
    { ready [.ok ({ ready [] with drvlow := true }.idealLevel false)] with drvlow := true })
    = some (0x0000000A#32, 0#32, 0#8, 0#32) := by decide
theorem test_delay : regsAfter (exec .delay { ready [] with arg := 480000#32 }) = some (0x00000002#32, 0#32, 0#8, 0#32) ∧
    timeAfter (exec .delay { ready [] with arg := 0xFFFFFFFF#32 }) = some 4294967295 := by decide

/-! ### Slots (S6, V4) -/

theorem test_rdBit : regsAfter (exec .rdBit (ready (sampling [true]))) = some (0x00000002#32, 0#32, 1#8, 0#32) ∧
    traceAfter (exec .rdBit (ready (sampling [true]))) = some [.dropped, .low, .wait 6000#32, .rel, .wait 9000#32,
      .sample true, .wait 55000#32] := by decide
/-- The release fails: the line is left low. -/
theorem test_rdBit_err : regsAfter (exec .rdBit (ready [.ok true, .err 0x2A#16]))
    = some (0x0000000E#32, 0x002A0001#32, 0#8, 0#32) ∧
    traceAfter (exec .rdBit (ready [.ok true, .err 0x2A#16])) = some [.dropped, .low, .wait 6000#32, .relFail 42#16] := by
  decide
theorem test_wrBit_1 : traceAfter (exec (.wrBit true) (ready (oks 2)))
    = some [.dropped, .low, .wait 6000#32, .rel, .wait 64000#32] := by decide
theorem test_wrBit_0 : traceAfter (exec (.wrBit false) (ready (oks 2)))
    = some [.dropped, .low, .wait 60000#32, .rel, .wait 10000#32] := by decide

/-! ### Bytes (V5) -/

/-- V5.4. -/
theorem test_rdByte : regsAfter (exec .rdByte (ready (sampling [true, false, true, false, true, false, true, false])))
    = some (0x00000002#32, 0#32, 0x55#8, 1#32) := by decide
/-- V5.9: the bits received are discarded. -/
theorem test_rdByte_err : regsAfter (exec .rdByte (ready (sampling [true, true, true, true, true] ++ [.err 8#16])))
    = some (0x00000006#32, 0x00080001#32, 0#8, 0#32) ∧
    timeAfter (exec .rdByte (ready (sampling [true, true, true, true, true] ++ [.err 8#16]))) = some 350000 := by decide
/-- V5.1: `W0 W0 W1 W1 W0 W0 W1 W1`. -/
theorem test_wrByte : traceAfter (exec (.wrByte 0xCC#8) (ready (oks 16))) = some
    ([.dropped] ++ [false, false, true, true, false, false, true, true].flatMap fun b =>
      if b then [.low, .wait 6000#32, .rel, .wait 64000#32] else [.low, .wait 60000#32, .rel, .wait 10000#32]) := by
  decide
/-- V5.3: 26000 ns. -/
theorem test_wrByte_time : timeAfter (exec (.wrByte 0xA5#8)
    { ready (oks 16) with timing := ⟨1000#32, 2000#32, 3000#32, 500#32, 0#32, 0#32⟩ }) = some 26000 := by decide
/-- V5.5. -/
theorem test_rdBytes : (State.after (exec .rdBytes { ready (sampling [false, true, true, true, true, true, false, true,
    true, true, false, false, true, true, false, false]) with bufLen := 2#32 })).map
      (fun t => (t.buf, t.xferCnt, t.now)) = some ([(0, 0xBE#8), (1, 0x33#8)], 2#32, 1120000) := by decide
/-- V5.6: the failure at pin micro-operation 35. -/
theorem test_rdBytes_err : (State.after (exec .rdBytes ((ready (sampling [false, true, true, true, true, true, false, true,
    true, true, false] ++ [.ok true, .ok true, .err 5#16])).holding 0 [0xAA#8, 0xAB#8]))).map
      (fun t => (t.buf, t.regs, t.now)) = some ([(0, 0xBE#8), (1, 0xAB#8)],
        (0x00000006#32, 0x00050001#32, 0#8, 1#32), 785000) := by decide
/-- V5.8. -/
theorem test_wrBytes : (State.after (exec .wrBytes ((ready (oks 32)).holding 0 [0xCC#8, 0x44#8]))).map
      (fun t => (t.trace, t.xferCnt, t.now)) = some
      ([.dropped] ++ [false, false, true, true, false, false, true, true, false, false, true, false, false, false, true,
        false].flatMap (fun b =>
          if b then [.low, .wait 6000#32, .rel, .wait 64000#32] else [.low, .wait 60000#32, .rel, .wait 10000#32]),
        2#32, 1120000) := by decide
/-- V5.7. -/
theorem test_wrBytes_empty : (State.after (exec .wrBytes (ready []))).map (fun t => (t.trace, t.regs, t.now))
    = some ([.dropped], (0x00000002#32, 0#32, 0#8, 0#32), 0) := by decide

/-! ### Host accesses (V2, V6, V7) -/

/-- V6, the priority vector: `NOT_INIT` before `BUF_RANGE`. -/
theorem test_priority : regsAfter (act (.write .word 0 0x00000052#32) { State.reset with bufAddr := 300#32 })
    = some (0x00000410#32, 0#32, 0#8, 0#32) := by decide
/-- V7: `LD STATUS` during a `DELAY`. -/
theorem test_status_busy : (State.after (act (.read .word 4) (latch .delay { ready [] with arg := 1000000#32 }))).map
    (fun t => t.hostData) = some 0x00000003#32 := by decide
/-- V7: a command while busy is refused and the `DELAY` goes on. -/
theorem test_issue_busy : (State.after (act (.write .word 0 0x00000040#32) (latch .delay { ready [] with arg := 5#32 }))).map
    (fun t => (t.hcause, t.engine.map (·.cmd))) = some (some .busyWrite, some .delay) := by decide
/-- V7: a write to a read-only register, a word access in the window, an unmapped offset. -/
theorem test_bad_access : (State.after (act (.write .word 4 0#32) State.reset)).map (·.hcause) = some (some .badAccess) ∧
    (State.after (act (.read .word 0x100) State.reset)).map (fun t => (t.hostData, t.hcause))
      = some (0#32, some .badAccess) ∧
    (State.after (act (.read .word 0x38) State.reset)).map (·.hcause) = some (some .badAccess) ∧
    (State.after (act (.write .half 0x20 1#32) State.reset)).map (·.hcause) = some (some .badAccess) := by decide
/-- V7: `STB 5, 0x7F`; `LDB 5`. -/
theorem test_window : (State.after (act (.write .byte 0x105 0x7F#32) State.reset)).map (·.buf) = some [(5, 0x7F#8)] ∧
    (State.after (act (.read .byte 0x105) { State.reset with buf := [(5, 0x7F#8)] })).map (·.hostData)
      = some 0x0000007F#32 := by decide
/-- R90, from the spec's words: after a bare write to `CMD` a command line is refused, and its polling lets the running
`DELAY` end before the next line, reading `STATUS` with `BUSY` = 1 and last with `BUSY` = 0. -/
theorem test_poll : ((State.after (Host.Core.run Sys2Proof.core 2 { latch .delay (ready []) with
      host := [.call 0x40#32, .pass] })).map fun t => (t.hostData, t.busy, t.host))
      = some (0x00000113#32, true, [.poll, .pass]) ∧
    ((State.after (Host.Core.run Sys2Proof.core 4 { latch .delay (ready []) with
      host := [.call 0x40#32, .pass] })).map fun t => (t.hostData, t.busy, t.host))
      = some (0x00000112#32, false, [.pass]) := by decide
/-- The first micro-operation of `INIT` issued by a write to `CMD`. -/
theorem test_micro : (State.after (step (latch .init { State.reset with padScript := [.ok true] }))).map
    (fun t => (t.trace, t.busy, t.init)) = some ([.dropped, .rel], true, false) := by decide

/-! ### Parameters (R8, D5, D6, D7) -/

/-- The reset state with `BUF_SIZE` = `n` and `PIN_ERR_W` = `w`. -/
def sized (n : Nat) (w : Fin 17) : State := State.resetFor { Params.default with bufSize := n, pinErrW := w }

/-- The value column of R8. -/
theorem test_params_default : State.reset.params.bufSize = 256 ∧ State.reset.params.pinErrW.val = 8 ∧
    State.reset.params.hostAW = 9 ∧ State.reset.params.presetA = 6000#32 := by decide
/-- R61: with another `BUF_SIZE` the window is 0x100 .. 0x100 + `BUF_SIZE` - 1 and `HOST_AW` grows to cover it. -/
theorem test_params_bufSize : (sized 1024 8).params.hostAW = 11 ∧ (sized 16 8).params.hostAW = 9 ∧
    (State.after (act (.write .byte 0x4FF 7#32) (sized 1024 8))).map (·.buf) = some [(1023, 7#8)] ∧
    (State.after (act (.write .byte 0x110 7#32) (sized 16 8))).map (·.hcause) = some (some .badAccess) ∧
    refusalCauseOf 0x10#32 { sized 16 8 with bufAddr := 16#32, bufLen := 1#32 } = some .bufRange ∧
    refusalCauseOf 0x10#32 { sized 1024 8 with bufAddr := 1023#32, bufLen := 1#32 } = none := by decide
/-- R38, R182: the port carries `PIN_ERR_W` bits of a code, and the block forwards them unchanged. -/
theorem test_params_pinErrW :
    (State.after (exec .init { sized 256 12 with padScript := [.err 0xABC#16] })).map (·.errinfo.word)
      = some 0x0ABC0001#32 ∧
    (State.after (exec .init { sized 256 4 with padScript := [.err 0xABC#16] })).map (·.errinfo.word)
      = some 0x000C0001#32 := by decide
/-- R30, U9: a code in bits 23:16 reads back; a 1 in a reserved bit, which bits there are by `PIN_ERR_W`, does not. -/
theorem test_errinfo_ofWord :
    ErrorValue.ofWord Params.default 0x00FF0001#32 = some (.pin 0xFF#16) ∧
    ErrorValue.ofWord Params.default 0xFF000001#32 = none ∧ ErrorValue.ofWord Params.default 0x00000005#32 = none ∧
    ErrorValue.ofWord (sized 256 4).params 0x00FF0001#32 = none ∧
    ErrorValue.ofWord Params.default 0x00000003#32 = none ∧ ErrorValue.ofWord Params.default 0x00000072#32 = none := by
  decide
/-- R125: the preset of the block is what `T.PRESET` and reset load. -/
theorem test_params_preset :
    let s := State.resetFor { Params.default with presetC := 61000#32 }
    (State.after (exec .tPreset { s with timing := Params.default.preset })).map (·.timing.c) = some 61000#32 ∧
    (State.after (act .reset { s with timing := Params.default.preset })).map (·.timing.c) = some 61000#32 := by decide

/-! ### Witnesses: for each obligation with hypotheses, states and operands that meet them all, per clause -/

/-- `s` with one host action pending. -/
def State.asked (s : State) (a : HostAction) : State := { s with host := [a] }

/-- An engine in the middle of a slot, reached from reset: `RD.BIT` after its `PinLow`. -/
def midSlot : State := ((State.after (step (latch .rdBit (ready (sampling [true]))))).getD State.reset)

theorem test_hyp_ResetLeavesTheResetValues : (midSlot.asked .reset).host = [.reset] ∧ midSlot.busy = true := by decide

theorem test_hyp_IdleBlockDoesNothingByItself : State.reset.engine = none ∧ State.reset.host = [] ∧
    (State.reset.asked .pass).engine = none ∧ (State.reset.asked .pass).host = [.pass] := by decide

/-- A command line; its poll with the block idle, and with a command running. -/
theorem test_hyp_StepRunsTheDecodedCommand : ((ready (oks 2)).asked (.call 0x00000141#32)).host = [.call 0x00000141#32] ∧
    decode 0x00000141#32 = .ok (.wrBit true) ∧
    (State.reset.asked .poll).host = [.poll] ∧ (State.reset.asked .poll).busy = false ∧
    (midSlot.asked .poll).host = [.poll] ∧ (midSlot.asked .poll).busy = true := ⟨rfl, rfl, rfl, rfl, rfl, rfl⟩

/-- One step with an event, one without, one of an idle block. -/
theorem test_hyp_EngineStepIsAtMostOneMicroOperation :
    midSlot.host = [] ∧ (∃ t, step midSlot = .next t ∧ t.trace ≠ midSlot.trace) ∧
    (∃ t, step (latch .tPreset State.reset) = .next t) ∧ ∃ t, step State.reset = .next t :=
  ⟨by decide, ⟨_, rfl, by decide⟩, ⟨_, rfl⟩, ⟨_, rfl⟩⟩

/-- The invariant of an idle block with a byte in `BUF`, and of a block with `WR.BYTES` just latched; the command that
comes to a byte nothing has written. -/
theorem test_hyp_EveryRunningCommandEnds : ((ready []).holding 255 [0x01#8]).Inv ∧
    (latch .wrBytes ((ready []).holding 255 [0x01#8])).Inv ∧
    (latch .wrBytes ((ready []).holding 255 [0x01#8])).busy = true ∧
    step ((latch .crcCalc { State.reset with bufLen := 1#32 }).asked .poll) = .fault (.unwrittenBuf 0) := by
  refine ⟨⟨by decide, by decide, by decide, ?_, ?_, by decide, by decide, ?_⟩,
    ⟨by decide, by decide, by decide, ?_, ?_, by decide, by decide, ?_⟩, by decide, rfl⟩
  · intro p h; cases h
  · intro e h; cases h
  · intro e h; cases h
  · intro p h; cases h
  · intro e h; cases h
  · intro e h
    cases h
    exact ⟨by decide, by decide, by decide, by decide, by decide⟩

theorem test_hyp_EveryStepKeepsTheInvariant : State.reset.Inv ∧ (∃ t, step (latch .init State.reset) = .next t) ∧
    ∃ t, step (State.reset.asked (.write .byte 0x1FF 1#32)) = .next t := by
  refine ⟨⟨by decide, by decide, by decide, ?_, ?_, by decide, by decide, ?_⟩, ⟨_, rfl⟩, ⟨_, rfl⟩⟩
  · intro p h; cases h
  · intro e h; cases h
  · intro e h; cases h

/-- A mnemonic of each kind of operand, and the largest byte; a line that is well formed and one that is not. -/
theorem test_hyp_AssemblerLinesGiveTheirWords : Mnemonic.init ∉ [Mnemonic.wrBit, .crcAppend, .wrByte] ∧
    Mnemonic.wrByte ∈ [Mnemonic.crcAppend, .wrByte] ∧ 255 ≤ 255 ∧ SourceLine.wf ⟨.wrByte, some 255⟩ = true ∧
    SourceLine.wf ⟨.wrByte, some 256⟩ = false := by decide

/-- A word accepted, and one refused with each cause that a write to `CMD` can have. -/
theorem test_hyp_AcceptanceChecksAreMadeInOrder :
    (State.reset.asked (.write .word 0 0x30#32)).host = [.write .word 0 0x30#32] ∧
    refusalCauseOf 0x30#32 (State.reset.asked (.write .word 0 0x30#32)) = none ∧
    refusalCauseOf 0x30#32 midSlot = some .busyWrite ∧ refusalCauseOf 0x37#32 State.reset = some .illegalOpcode ∧
    refusalCauseOf 0x130#32 State.reset = some .reservedField ∧ refusalCauseOf 0x33#32 State.reset = some .notInit ∧
    refusalCauseOf 0x30#32 (ready []) = some .alreadyInit ∧
    refusalCauseOf 0x52#32 { ready [] with bufAddr := 256#32, bufLen := 1#32 } = some .bufRange ∧
    refusalCauseOf 0x52#32 { ready [] with bufAddr := 256#32, bufLen := 0#32 } = none := by decide

/-- A refused command line, a refused bare word, and an accepted command line that fails. -/
theorem test_hyp_RefusalsAndErrorsNeverMix :
    (∃ t, step (State.reset.asked (.call 0x33#32)) = .next t ∧ t.hosterr = true) ∧
    refusalCauseOf 0x33#32 (State.reset.asked (.call 0x33#32)) = some .notInit ∧
    (∃ t, step (State.reset.asked (.write .word 0x00 0x33#32)) = .next t ∧ t.hosterr = true) ∧
    refusalCauseOf 0x33#32 ((ready [.err 1#16]).asked (.call 0x33#32)) = none ∧
    ∃ t, step ((ready [.err 1#16]).asked (.call 0x33#32)) = .next t ∧ t.err = true :=
  ⟨⟨_, rfl, rfl⟩, rfl, ⟨_, rfl, rfl⟩, rfl, ⟨_, rfl, rfl⟩⟩

theorem test_hyp_FirstRefusalCauseIsKept : ∃ t,
    step { State.reset.refusedWith .badAccess with host := [.call 0x37#32] } = .next t ∧
    (State.reset.refusedWith .badAccess).hosterr = true ∧ (State.reset.refusedWith .badAccess).hcause ≠ none :=
  ⟨_, rfl, by decide, by decide⟩

theorem test_hyp_CrcLaws : (0x00#8 : Byte) ≠ crcCalculate [0x01#8] ∧
    bufferHolds (State.reset.holding 0 [0x01#8, 0x5E#8]) ([0x01#8] ++ [0x5E#8]) ∧ 0x5E#8 = crcCalculate [0x01#8] ∧
    bufferHolds (State.reset.holding 0 [0x01#8, 0x5F#8]) ([0x01#8] ++ [0x5F#8]) ∧ 0x5F#8 ≠ crcCalculate [0x01#8] := by
  decide

/-- One byte at the end of `BUF`, and the empty range at `BUF_SIZE`. -/
theorem test_hyp_CrcCommandsReturnTheChecksum :
    bufferHolds (State.reset.holding 255 [0x01#8]) [0x01#8] ∧ (State.reset.holding 255 [0x01#8]).engine = none ∧
    bufferHolds (State.reset.holding 256 []) [] ∧
    { State.reset with bufAddr := 256#32, bufLen := 1#32 }.bufAddr.toNat + 1 > State.reset.params.bufSize := by decide

/-- Both outcomes of `CRC.CHECK`. -/
theorem test_hyp_CrcCheckSucceedsIffZero :
    bufferHolds (State.reset.holding 0 [0x01#8, 0x5E#8]) [0x01#8, 0x5E#8] ∧
    [0x01#8, 0x5E#8].foldl crcByte 0#8 = 0#8 ∧
    bufferHolds (State.reset.holding 0 [0x01#8]) [0x01#8] ∧ [0x01#8].foldl crcByte 0#8 ≠ 0#8 := by decide +kernel

/-- The empty range at the start and at the end of `BUF`. -/
theorem test_hyp_EmptyInputGivesTheSeed :
    let s := { State.reset with bufAddr := 256#32 }
    s.engine = none ∧ s.bufLen = 0#32 ∧ s.bufAddr.toNat ≤ s.params.bufSize ∧
    State.reset.engine = none ∧ State.reset.bufLen = 0#32 ∧
    State.reset.bufAddr.toNat ≤ State.reset.params.bufSize := by decide

/-- The second of two bytes has not been written, with a driver and the pad Ok for the first; without a driver. -/
theorem test_hyp_CommandsStopAtAnUnwrittenByte :
    let s := { (ready (oks 16)).holding 254 [0x01#8] with bufLen := 2#32 }
    let z := { State.reset with bufLen := 1#32 }
    s.engine = none ∧ s.bufAddr.toNat + s.bufLen.toNat ≤ s.params.bufSize ∧ 1 < s.bufLen.toNat ∧
    (∀ k < 1, s.readBuf (s.bufAddr.toNat + k) ≠ none) ∧ s.readBuf (s.bufAddr.toNat + 1) = none ∧
    s.init = true ∧ (∀ q < 16 * 1, (s.answerAt q).isOk = true) ∧
    z.engine = none ∧ z.bufAddr.toNat + z.bufLen.toNat ≤ z.params.bufSize ∧ 0 < z.bufLen.toNat ∧
    z.readBuf (z.bufAddr.toNat + 0) = none := by decide

/-- Two states that differ in the driver, the line, the script and the rest of `BUF`. -/
theorem test_hyp_CrcDependsOnlyOnItsOperands :
    let s₁ := State.reset.holding 0 [0x01#8]
    let s₂ := { ready [.err 1#16] with drvlow := true, buf := [(0, 0x01#8), (9, 0x02#8)], bufLen := 1#32 }
    s₁.engine = none ∧ s₂.engine = none ∧ s₁.bufAddr = s₂.bufAddr ∧ s₁.bufLen = s₂.bufLen ∧
    (∀ j < s₁.bufLen.toNat, s₁.readBuf (s₁.bufAddr.toNat + j) = s₂.readBuf (s₁.bufAddr.toNat + j)) ∧
    s₁.bufAddr.toNat + s₁.bufLen.toNat ≤ s₁.params.bufSize ∧
    s₁.bufAddr.toNat + s₁.bufLen.toNat ≤ s₂.params.bufSize ∧ (regsAfter (exec .crcCalc s₁)).isSome ∧
    (regsAfter (exec .crcCheck s₁)).isSome ∧ (regsAfter (exec (.crcAppend 7#8) s₁)).isSome := by decide

/-- The idle block of every statement whose only hypothesis is that the engine is idle. -/
theorem test_hyp_PresetLoadsTheSixDurations : State.reset.engine = none ∧ (ready []).engine = none := by decide

/-- The first and the last timing register, idle and busy. -/
theorem test_hyp_TimingRegisterTakesTheWrittenValue :
    (State.reset.asked (.write .word 0x20 0#32)).host = [.write .word 0x20 0#32] ∧ State.reset.busy = false ∧
    (midSlot.asked (.write .word 0x34 0xFFFFFFFF#32)).host = [.write .word 0x34 0xFFFFFFFF#32] ∧
    midSlot.busy = true := by decide

/-- The four ways the durations change. -/
theorem test_hyp_DurationsAreConstantWhileACommandRuns :
    let other := { State.reset with timing := { Params.default.preset with a := 1#32 } }
    (State.after (step (other.asked .reset))).map (·.timing) = some Params.default.preset ∧
    (State.after (step (other.asked (.write .word 0x34 9#32)))).map (·.timing.f) = some 9#32 ∧
    (State.after (step (other.asked (.call 0x20#32)))).map (·.timing) = some Params.default.preset ∧
    (State.after (step (latch .tPreset other))).map (·.timing) = some Params.default.preset := by decide

/-- A word of each kind that is no instruction. -/
theorem test_hyp_EveryWordIsClassified : decode 0x37#32 = .error .illegalOpcode ∧
    decode 0x130#32 = .error .reservedField ∧
    (State.reset.asked (.write .word 0x00 0x37#32)).host = [.write .word 0x00 0x37#32] := by decide

/-- Without a driver, the pad Ok and failing; with one. -/
theorem test_hyp_InitConstructsTheDriver :
    let s := { State.reset with padScript := [.ok true] }
    let t := { State.reset with padScript := [.err 1#16] }
    s.engine = none ∧ s.init = false ∧ s.answerAt 0 = .ok true ∧ t.engine = none ∧ t.init = false ∧
    t.answerAt 0 = .err 1#16 ∧ (ready []).engine = none ∧ (ready []).init = true := by decide

/-- With a driver, the line pulled low; the pad Ok (either level) and failing; and without one. The hypotheses of the driver
statements: `DropReleasesTheLine`, `SetHighReleases`, `SetLowPullsLow`, `QueriesReturnTheSample`, `DelayWaitsArg`. -/
theorem test_hyp_driver_statements :
    (∀ a ∈ [PinAnswer.ok true, .ok false, .err 255#16],
      let s := { ready [a] with drvlow := true }
      s.engine = none ∧ s.init = true ∧ s.answerAt 0 = a) ∧ State.reset.engine = none ∧ State.reset.init = false := by
  decide

theorem test_hyp_ReadSlotReturnsTheSample : ∀ v,
    let s := ready (sampling [v])
    s.engine = none ∧ s.init = true ∧ (∀ q < 3, (s.answerAt q).isOk = true) ∧ s.sampleAt 0 = v := by decide

theorem test_hyp_WriteSlotEncodesTheBitInItsTiming :
    (ready (oks 2)).engine = none ∧ (ready (oks 2)).init = true ∧
    ∀ q < 2, ((ready (oks 2)).answerAt q).isOk = true := by decide

/-- The three places a slot can end. -/
theorem test_hyp_SlotEndsAtTheFailingStep :
    (ready [.err 9#16]).answerAt 0 = .err 9#16 ∧
    ((ready (oks 1 ++ [.err 9#16])).answerAt 0).isOk = true ∧ (ready (oks 1 ++ [.err 9#16])).answerAt 1 = .err 9#16 ∧
    ((ready (oks 2 ++ [.err 9#16])).answerAt 0).isOk = true ∧ ((ready (oks 2 ++ [.err 9#16])).answerAt 1).isOk = true ∧
    (ready (oks 2 ++ [.err 9#16])).answerAt 2 = .err 9#16 := by decide

theorem test_hyp_ReadByteCollectsLsbFirst :
    (ready (oks 24)).engine = none ∧ (ready (oks 24)).init = true ∧
    ∀ q < 24, ((ready (oks 24)).answerAt q).isOk = true := by decide

/-- At the first and the last pin micro-operation. -/
theorem test_hyp_ReadByteEndsAtTheFailingStep : ∀ p ∈ [0, 23],
    let s := ready (oks p ++ [.err 5#16])
    s.engine = none ∧ s.init = true ∧ p < 24 ∧ (∀ q < p, (s.answerAt q).isOk = true) ∧ s.answerAt p = .err 5#16 := by
  decide

theorem test_hyp_WriteByteSendsLsbFirst :
    (ready (oks 16)).engine = none ∧ (ready (oks 16)).init = true ∧
    ∀ q < 16, ((ready (oks 16)).answerAt q).isOk = true := by decide

theorem test_hyp_WriteByteEndsAtTheFailingStep : ∀ p ∈ [0, 15],
    let s := ready (oks p ++ [.err 5#16])
    s.engine = none ∧ s.init = true ∧ p < 16 ∧ (∀ q < p, (s.answerAt q).isOk = true) ∧ s.answerAt p = .err 5#16 := by
  decide

/-- One byte at the end of `BUF`; the empty range at `BUF_SIZE`. -/
theorem test_hyp_ReadBytesFillsTheRange :
    let s := { ready (oks 24) with bufAddr := 255#32, bufLen := 1#32 }
    let z := { ready [] with bufAddr := 256#32 }
    s.engine = none ∧ s.init = true ∧ s.bufAddr.toNat + s.bufLen.toNat ≤ s.params.bufSize ∧
    (∀ q < 24 * s.bufLen.toNat, (s.answerAt q).isOk = true) ∧
    z.engine = none ∧ z.init = true ∧ z.bufAddr.toNat + z.bufLen.toNat ≤ z.params.bufSize ∧ z.bufLen = 0#32 := by decide

/-- In the first byte and at the last pin micro-operation of the second. -/
theorem test_hyp_ReadBytesKeepsTheBytesBeforeTheFailure : ∀ p ∈ [0, 47],
    let s := { ready (oks p ++ [.err 5#16]) with bufAddr := 254#32, bufLen := 2#32 }
    s.engine = none ∧ s.init = true ∧ s.bufAddr.toNat + s.bufLen.toNat ≤ s.params.bufSize ∧ p < 24 * s.bufLen.toNat ∧
    (∀ q < p, (s.answerAt q).isOk = true) ∧ s.answerAt p = .err 5#16 := by decide

theorem test_hyp_WriteBytesSendsTheRange :
    let s := (ready (oks 16)).holding 255 [0xCC#8]
    s.engine = none ∧ s.init = true ∧ bufferHolds s [0xCC#8] ∧
    (∀ q < 16 * [0xCC#8].length, (s.answerAt q).isOk = true) ∧ bufferHolds ((ready []).holding 256 []) [] := by decide

/-- The failure at the first and the last pin micro-operation of the one byte that has been written, in a range of two. -/
theorem test_hyp_WriteBytesEndsAtTheFailingStep : ∀ p ∈ [0, 15],
    let s := { (ready (oks p ++ [.err 5#16])).holding 254 [0xCC#8] with bufLen := 2#32 }
    s.engine = none ∧ s.init = true ∧ s.bufAddr.toNat + s.bufLen.toNat ≤ s.params.bufSize ∧
    [0xCC#8].length ≤ s.bufLen.toNat ∧
    (∀ j (h : j < [0xCC#8].length), s.readBuf (s.bufAddr.toNat + j) = some [0xCC#8][j]) ∧
    p < 16 * [0xCC#8].length ∧ (∀ q < p, (s.answerAt q).isOk = true) ∧ s.answerAt p = .err 5#16 := by decide

theorem test_hyp_ZeroLengthTransfersDoNothing :
    let s := { ready [] with bufAddr := 256#32 }
    s.engine = none ∧ s.init = true ∧ s.bufLen = 0#32 ∧ s.bufAddr.toNat ≤ s.params.bufSize ∧
    (ready []).bufAddr.toNat ≤ State.reset.params.bufSize := by decide

theorem test_hyp_ReadTransfersEqualTheirParts :
    let s := { ready (oks 48) with bufAddr := 254#32, bufLen := 2#32 }
    s.engine = none ∧ s.init = true ∧ s.bufAddr.toNat + s.bufLen.toNat ≤ s.params.bufSize ∧
    (∀ q < 24 * s.bufLen.toNat, (s.answerAt q).isOk = true) ∧ ∀ q < 24, (s.answerAt q).isOk = true := by decide

theorem test_hyp_WriteTransfersEqualTheirParts :
    let s := (ready (oks 32)).holding 254 [0xCC#8, 0x44#8]
    s.engine = none ∧ s.init = true ∧ bufferHolds s [0xCC#8, 0x44#8] ∧
    (∀ q < 16 * [0xCC#8, 0x44#8].length, (s.answerAt q).isOk = true) ∧ ∀ q < 16, (s.answerAt q).isOk = true := by decide

theorem test_hyp_EchoedByteIsReadBack :
    let s := ready (sampling (bitsOf 0xA5#8))
    s.engine = none ∧ s.init = true ∧ (∀ q < 24, (s.answerAt q).isOk = true) ∧
    (List.range 8).map s.sampleAt = bitsOf 0xA5#8 ∧ (∀ i < 8, (bitsOf 0xA5#8)[i]? = some ((0xA5#8 : Byte).getLsbD i)) ∧
    ∀ q < 16, (s.answerAt q).isOk = true := by decide

/-- A recorded pin error, and the first bit above `PINERR`. -/
theorem test_hyp_ErrinfoWordDeterminesTheError : ((ready []).completedWith (.pin 0xFF#16) 0#8 0#32).Inv ∧
    16 + (ready []).params.pinErrW.val ≤ 24 := by
  refine ⟨⟨by decide, by decide, by decide, ?_, ?_, by decide, by decide, ?_⟩, by decide⟩
  · intro p h; cases h
  · intro e h; cases h; decide
  · intro e h; cases h

/-- Each way a host may read a register: the first and the last of the map. -/
theorem test_hyp_HostReadReturnsTheRegister :
    (midSlot.asked (.read .word 0x00)).host = [.read .word 0x00] ∧
    (midSlot.asked (.read .word 0x34)).host = [.read .word 0x34] := by decide

theorem test_hyp_OperandRegistersTakeTheWrittenValue : State.reset.engine = none ∧
    (State.reset.asked (.write .word 0x10 7#32)).host = [.write .word 0x10 7#32] ∧
    (State.reset.asked (.write .word 0x14 7#32)).host = [.write .word 0x14 7#32] ∧
    (State.reset.asked (.write .word 0x18 7#32)).host = [.write .word 0x18 7#32] := by decide

/-- The legal accesses of a block with the default parameters. -/
abbrev legal (size : AccessSize) (addr : HostAddr) : Prop := legalAccess State.reset.params size addr

/-- Accesses on the two sides of each boundary of R64. -/
theorem test_hyp_IllegalAccessesAreRefused :
    ¬ legal .word 0x38 ∧ ¬ legal .word 0x01 ∧ ¬ legal .byte 0xFF ∧ ¬ legal .word 0x100 ∧
    ¬ legal .half 0x00 ∧ legal .word 0x34 ∧ legal .byte 0x100 ∧ legal .byte 0x1FF ∧
    (State.reset.asked (.read .word 0x38)).host = [.read .word 0x38] ∧
    (State.reset.asked (.write .word 0x04 0#32)).host = [.write .word 0x04 0#32] := by decide

theorem test_hyp_WritesWhileBusyAreRefused : midSlot.busy = true ∧ legalAccess midSlot.params .word 0x00 ∧
    legalAccess midSlot.params .byte 0x1FF ∧
    midSlot.params.portAddr 0x00 ∉ [0x04, 0x08, 0x0C, 0x1C] ∧
    midSlot.params.portAddr 0x1FF ∉ [0x04, 0x08, 0x0C, 0x1C] ∧
    (midSlot.asked (.write .word 0x00 0x40#32)).host = [.write .word 0x00 0x40#32] := by decide

/-- The first and the last byte of the window; one written, one not. -/
theorem test_hyp_WindowByteReadsBackAsWritten : ∀ i ∈ [0, 255], i < State.reset.params.bufSize ∧
    State.reset.engine = none ∧
    (State.reset.asked (.write .byte (0x100 + i) 0x1FF#32)).host = [.write .byte (0x100 + i) 0x1FF#32] ∧
    (State.reset.asked (.read .byte (0x100 + i))).host = [.read .byte (0x100 + i)] ∧ State.reset.readBuf i = none ∧
    (State.reset.holding i [0x7F#8]).readBuf i = some 0x7F#8 := by decide

/-- A cause of each end of the list of R189. -/
theorem test_hyp_StatusWordFields : State.reset.hcause = none ∧
    (State.reset.refusedWith .busyWrite).hcause = some .busyWrite ∧
    (State.reset.refusedWith .badAccess).hcause = some .badAccess := by decide

/-- A run from reset that ends without a driver. -/
theorem test_hyp_WithoutADriverTheLineIsReleased :
    (State.after (Host.Core.run Sys2Proof.core 6 { State.reset with
      host := [.call 0x30#32, .call 0x33#32, .call 0x31#32], padScript := oks 2 })).map (fun t => (t.init, t.trace))
      = some (false, [.dropped, .rel, .low, .dropped]) := by decide

/-- The ways the results change: reset, the running command, a command line. -/
theorem test_hyp_ResultsChangeOnlyAtCompletion :
    let failed := (ready []).completedWith (.pin 3#16) 0#8 0#32
    (State.after (step (failed.asked .reset))).map (·.err) = some false ∧
    (State.after (step (latch .tPreset failed))).map (·.err) = some false ∧
    (State.after (step ((latch .tPreset failed).asked .pass))).map (·.err) = some false ∧
    (State.after (step ((latch .tPreset failed).asked .poll))).map (·.err) = some false ∧
    (State.after (step (failed.asked (.call 0x20#32)))).map (·.err) = some false ∧
    refusalCauseOf 0x20#32 failed = none := by decide

theorem test_hyp_TraceGivesTimeAndTheLineRequest : (∃ t, step midSlot = .next t) ∧
    ∃ t, step (midSlot.asked .reset) = .next t := ⟨⟨_, rfl⟩, ⟨_, rfl⟩⟩

/-- A completed command, one that fails and one that is refused. -/
theorem test_hyp_FrameOfEveryCommand : (∃ t, exec .rdBit (ready (sampling [true])) = .next t) ∧
    (∃ t, exec .rdBit (ready [.err 1#16]) = .next t) ∧ ∃ t, exec .rdBit State.reset = .next t :=
  ⟨⟨_, rfl⟩, ⟨_, rfl⟩, ⟨_, rfl⟩⟩

/-- The three kinds of error value. -/
theorem test_hyp_EveryErrorIsPinOrCrc :
    refusalCauseOf (encode .setLow) (ready [.ok true]) = none ∧
    (State.after (exec .setLow (ready [.ok true]))).map (·.errinfo) = some .success ∧
    refusalCauseOf (encode .setLow) (ready [.err 9#16]) = none ∧
    (State.after (exec .setLow (ready [.err 9#16]))).map (·.errinfo) = some (.pin 9#16) ∧
    refusalCauseOf (encode .crcCheck) (State.reset.holding 0 [0x01#8]) = none ∧
    (State.after (exec .crcCheck (State.reset.holding 0 [0x01#8]))).map (·.errinfo)
      = some (.protocol (.crc 0x5E#8)) := by decide

theorem test_hyp_CommandsTakeTheSumOfTheirWaits :
    let s := (ready (oks 16)).holding 255 [0xCC#8]
    refusalCauseOf (encode .wrBytes) s = none ∧ (∀ q < pinOps .wrBytes s, (s.answerAt q).isOk = true) ∧
    (State.after (exec .wrBytes s)).isSome = true ∧ refusalCauseOf (encode .delay) s = none ∧
    (State.after (exec .delay s)).isSome = true := by decide

end Sys2Proof.Machine
end

/-! The trace against model time and `DRVLOW` (R10, R11, R12, R25), obligation O57: the three move together in every
piece that a step is made of. -/
section
namespace Sys2Proof.Machine

/-- `t` is `s` later on: its trace has gained events, `now` the waits among them, and `DRVLOW` is what they left. -/
def State.TraceGrows (s t : State) : Prop :=
  ∃ evs : List Event, t.trace = s.trace ++ evs ∧ t.now = s.now + traceTime evs ∧ t.drvlow = driveAfter s.drvlow evs

/-- A change to no more than the other fields gains no event. -/
theorem State.TraceGrows.of_same {s t : State} (htrace : t.trace = s.trace) (hnow : t.now = s.now)
    (hlow : t.drvlow = s.drvlow) : s.TraceGrows t :=
  ⟨[], by simp [htrace], by simp [hnow], hlow⟩

/-- The host's pending actions and the data it last read play no part. -/
theorem State.TraceGrows.of_host {s t : State} {actions : List HostAction} {data : Word}
    (h : ({ s with host := actions, hostData := data } : State).TraceGrows t) : s.TraceGrows t := h

/-- A command that completes leaves the events of its effect. -/
theorem CommandEffect.Legal.traceGrows {c : CommandEffect} {i : Instr} {s : State} (h : c.Legal i s) :
    s.TraceGrows (c.apply s) :=
  ⟨c.events, rfl, rfl, h.drive⟩

/-- R211: `rst` leaves `DROPPED` and takes no time (log 24). -/
theorem resetBlock_traceGrows (s : State) : s.TraceGrows (resetBlock s) :=
  ⟨[.dropped], rfl, rfl, rfl⟩

theorem finishCommand_traceGrows (e : Engine) (s : State) : s.TraceGrows (finishCommand e s) := by
  obtain ⟨_, _, evs, low, _, _, _, heq, _, _, _, hlow, _⟩ := finishCommand_spec e s
  rw [heq]
  exact ⟨evs, rfl, rfl, hlow⟩

theorem moveOn_traceGrows {e : Engine} {s u : State} (h : s.TraceGrows u) : s.TraceGrows (moveOn e u) := by
  obtain ⟨_, _, heq⟩ := moveOn_any e u
  rw [heq]
  exact h

theorem engineStep_traceGrows {e : Engine} {s t : State} (h : engineStep e s = .next t) : s.TraceGrows t := by
  rcases engineStep_cases e s with ⟨_, heq, _⟩ | ⟨_, heq⟩ | ⟨_, ev, heq, _, _, _, hlow⟩ |
      ⟨_, _, _, evs, _, heq, _, _, _, _, hlow⟩ <;> rw [heq] at h <;> cases h
  · exact finishCommand_traceGrows e s
  · exact ⟨[ev], rfl, rfl, hlow.symm⟩
  · exact moveOn_traceGrows ⟨evs, rfl, rfl, hlow⟩

theorem engineTurn_traceGrows {s t : State} (h : engineTurn s = .next t) : s.TraceGrows t := by
  unfold engineTurn at h
  split at h
  · cases h; exact .of_same rfl rfl rfl
  · exact engineStep_traceGrows h

theorem exec_traceGrows {i : Instr} {s t : State} (hacc : acceptance i s = none) (h : exec i s = .next t) :
    s.TraceGrows t := by
  rcases exec_effect i s hacc with ⟨_, heq⟩ | ⟨c, hc, heq⟩ <;> rw [heq] at h <;> cases h
  exact hc.traceGrows

theorem callCommand_traceGrows {w : Word} {s t : State} (h : callCommand w s = .next t) : s.TraceGrows t := by
  rcases callCommand_cases w s with ⟨_, heq⟩ | ⟨_, _, hacc, heq⟩ <;> rw [heq] at h
  · cases h; exact .of_same rfl rfl rfl
  · exact exec_traceGrows hacc h

theorem hostRead_traceGrows {size : AccessSize} {addr : HostAddr} {s t : State}
    (h : hostRead size addr s = .next t) : s.TraceGrows t := by
  rcases hostRead_cases size addr s with ⟨_, heq⟩ | ⟨_, heq⟩ | ⟨_, _, heq⟩ <;> rw [heq] at h <;> cases h <;>
    exact .of_same rfl rfl rfl

theorem hostWrite_traceGrows (size : AccessSize) (addr : HostAddr) (v : Word) (s : State) :
    s.TraceGrows (hostWrite size addr v s) := by
  rcases hostWrite_cases size addr v s with ⟨_, heq⟩ | ⟨_, _, _, _, _, _, heq⟩ | ⟨_, _, _, heq⟩ | ⟨_, _, _, _, heq⟩ |
      ⟨_, _, _, _, _, heq⟩ <;> rw [heq] <;> exact .of_same rfl rfl rfl

theorem pollStatus_traceGrows {s t : State} (h : pollStatus s = .next t) : s.TraceGrows t := by
  rcases pollStatus_cases s with ⟨_, heq⟩ | ⟨_, _, heq⟩ <;> rw [heq] at h
  · cases h; exact .of_same rfl rfl rfl
  · exact .of_host (engineTurn_traceGrows h)

theorem hostTurn_traceGrows {a : HostAction} {s t : State} (h : hostTurn a s = .next t) : s.TraceGrows t := by
  cases a with
  | read size addr => exact hostRead_traceGrows h
  | write size addr v => cases h; exact hostWrite_traceGrows size addr v s
  | call w => exact .of_host (callCommand_traceGrows (w := w) h)
  | poll => exact pollStatus_traceGrows h
  | pass => exact engineTurn_traceGrows h
  | reset => cases h; exact resetBlock_traceGrows s

theorem step_traceGrows {s t : State} (h : step s = .next t) : s.TraceGrows t := by
  unfold step at h
  split at h
  · exact engineTurn_traceGrows h
  · exact .of_host (hostTurn_traceGrows h)

/-- Settles O57: the engine's turn and every host action keep the trace, `now` and `DRVLOW` together. -/
theorem traceGivesTimeAndTheLineRequest : Obligations.TraceGivesTimeAndTheLineRequest :=
  fun _ _ h => step_traceGrows h

end Sys2Proof.Machine
end

/-! Everything one step of the block can do (R18, R69), said once for the invariant (O55), the durations (O24) and the
results (O58): one constructor per way to go on. -/
section
namespace Sys2Proof

/-- R85, R88: a word the decoder accepts is the word of its command. -/
theorem eq_encode_of_decode {w : Word} {i : Instr} (h : decode w = .ok i) : w = encode i := by
  unfold decode at h
  split at h
  · cases h
  · next j hrow =>
    split at h
    · next hok =>
      cases h
      obtain ⟨hrsv, hadm⟩ : rsvField w = 0#16 ∧ i.format.admits (immField w) = true := by simpa using hok
      rw [word_of_fields hrsv, encode, opcodeRow_opc hrow, imm_of_admits hrow hadm]
    · cases h

/-- R88: the word of a command decodes to it. -/
theorem decode_encode (i : Instr) : decode (encode i) = .ok i := by
  have hrow : opcodeRow i.opc i.imm8 = some i := by
    cases i with
    | wrBit b => cases b <;> rfl
    | _ => rfl
  have hadm : i.format.admits i.imm8 = true := by
    cases i with
    | wrBit b => cases b <;> rfl
    | _ => rfl
  simp [decode, hrow, hadm]

end Sys2Proof

namespace Sys2Proof.Machine

/-- R86: what the checks of an accepted command found. -/
theorem checks_of_accepted {i : Instr} {s : State} (h : acceptance i s = none) :
    s.engine = none ∧ (driverNeed i = .present → s.init = true) ∧ (driverNeed i = .absent → s.init = false) ∧
      (usesBuffer i = true → s.bufAddr.toNat + s.bufLen.toNat ≤ s.params.bufSize) := by
  have hidle := idle_of_accepted h
  simp only [acceptance, State.busy_of_idle hidle, Bool.false_eq_true, if_false] at h
  cases hd : driverRefusal i s with
  | some c => simp [hd] at h
  | none =>
    refine ⟨hidle, ?_, ?_, ?_⟩
    · intro hn
      cases hi : s.init with
      | true => rfl
      | false => simp [driverRefusal, hn, hi] at hd
    · intro hn
      cases hi : s.init with
      | false => rfl
      | true => simp [driverRefusal, hn, hi] at hd
    · intro hb
      simpa [hd, hb, State.bufFits] using h

/-- `s` after the host's pending actions and the data it last read have changed. -/
abbrev State.withHost (s : State) (actions : List HostAction) (data : Word) : State :=
  { s with host := actions, hostData := data }

/-- The host lets the engine take its turn: no action is pending, or it stands aside or polls. -/
def State.EngineMayRun (s : State) : Prop :=
  s.host = [] ∨ ∃ rest, s.host = .pass :: rest ∨ s.host = .poll :: rest

/-- The ways a step goes on from `s`. -/
inductive State.Steps (s : State) : State → Prop where
  /-- Nothing but the host's side changes: a read, a poll of an idle block, an idle block's turn. -/
  | observed {actions data} : s.Steps (s.withHost actions data)
  /-- An access or a command is refused. -/
  | refused {actions data} (c : RefusalCause) : s.Steps ((s.withHost actions data).refusedWith c)
  /-- A bare write to `CMD` is accepted. -/
  | latched {actions data} {i : Instr} (hacc : acceptance i s = none) : s.Steps (latch i (s.withHost actions data))
  /-- The host writes a byte of `BUF`. -/
  | stored {actions data} {i : Nat} {v : Byte} (hidle : s.engine = none) (hi : i < s.params.bufSize) :
      s.Steps ((s.withHost actions data).writeBuf i v)
  /-- The host writes an operand register. -/
  | operands {actions data a b c} (hidle : s.engine = none) :
      s.Steps { s.withHost actions data with arg := a, bufAddr := b, bufLen := c }
  /-- The host writes a timing register. -/
  | timing {actions data t addr v rest} (hidle : s.engine = none) (hhost : s.host = .write .word addr v :: rest)
      (hlo : 0x20 ≤ s.params.portAddr addr) (hhi : s.params.portAddr addr ≤ 0x34) :
      s.Steps { s.withHost actions data with timing := t }
  /-- A command line is accepted and its command completes. -/
  | command {actions data w i rest} {c : CommandEffect} (hhost : s.host = .call w :: rest) (hdec : decode w = .ok i)
      (hacc : acceptance i s = none) (hc : c.Legal i (s.withHost actions data)) :
      s.Steps (c.apply (s.withHost actions data))
  /-- `rst`. -/
  | reset {actions data rest} (hhost : s.host = .reset :: rest) : s.Steps (resetBlock (s.withHost actions data))
  /-- The running command completes after its last micro-operation. -/
  | finished {actions data e} (hturn : s.EngineMayRun) (he : s.engine = some e) :
      s.Steps (finishCommand e (s.withHost actions data))
  /-- A pin micro-operation of the running command fails. -/
  | failed {actions data e er ev} (hturn : s.EngineMayRun) (he : s.engine = some e) (hans : s.answerAt 0 = .err er) :
      s.Steps (raisePin er e.failCount ((s.withHost actions data).afterOps 1 [ev] s.drvlow))
  /-- The running command goes on after a micro-operation. -/
  | wentOn {actions data e sh crc n evs low} (he : s.engine = some e) (hnext : e.next s.timing ≠ none)
      (hlow : low = s.drvlow ∨ low = false ∨ low = true ∧ e.next s.timing = some .pinLow) :
      s.Steps (moveOn { e with sh := sh, crc := crc } ((s.withHost actions data).afterOps n evs low))

theorem engineTurn_steps {s t : State} {actions : List HostAction} {data : Word} (hturn : s.EngineMayRun)
    (h : engineTurn (s.withHost actions data) = .next t) : s.Steps t := by
  unfold engineTurn at h
  split at h
  · cases h; exact .observed
  · next e he =>
    rcases engineStep_cases e (s.withHost actions data) with ⟨_, heq, _⟩ | ⟨_, heq⟩ | ⟨_, ev, heq, _, hans, _⟩ |
        ⟨sh, crc, n, evs, low, heq, hnext, _, _, hlow, _⟩ <;> rw [heq] at h <;> cases h
    · exact .finished hturn he
    · exact .failed hturn he hans
    · exact .wentOn he hnext hlow

theorem hostRead_steps {s t : State} {rest : List HostAction} {size : AccessSize} {addr : HostAddr}
    (h : hostRead size addr { s with host := rest } = .next t) : s.Steps t := by
  rcases hostRead_cases size addr { s with host := rest } with ⟨_, heq⟩ | ⟨_, heq⟩ | ⟨c, data, heq⟩ <;> rw [heq] at h <;>
    cases h
  · exact .observed
  · exact .refused (actions := rest) (data := data) c

theorem hostWrite_steps {s : State} {rest : List HostAction} {size : AccessSize} {addr : HostAddr} {v : Word}
    (hhost : s.host = .write size addr v :: rest) : s.Steps (hostWrite size addr v { s with host := rest }) := by
  have idle : ∀ {u : State}, u.busy = false → u.engine = none := fun h => by simpa [State.busy] using h
  rcases hostWrite_cases size addr v { s with host := rest } with ⟨c, heq⟩ | ⟨_, i, _, _, _, hacc, heq⟩ |
      ⟨hb, i, hi, heq⟩ | ⟨hb, a, b, c, heq⟩ | ⟨hb, rfl, hlo, hhi, t, heq⟩ <;> rw [heq]
  · exact .refused (actions := rest) (data := s.hostData) c
  · exact .latched (actions := rest) (data := s.hostData) hacc
  · exact .stored (actions := rest) (data := s.hostData) (idle hb) hi
  · exact .operands (actions := rest) (data := s.hostData) (idle hb)
  · exact .timing (actions := rest) (data := s.hostData) (idle hb) hhost hlo hhi

theorem callCommand_steps {s t : State} {w : Word} {rest : List HostAction} (hhost : s.host = .call w :: rest)
    (h : callCommand w { s with host := .poll :: rest } = .next t) : s.Steps t := by
  rcases callCommand_cases w { s with host := .poll :: rest } with ⟨c, heq⟩ | ⟨i, hdec, hacc, heq⟩ <;> rw [heq] at h
  · cases h
    exact .refused (actions := .poll :: rest) (data := s.hostData) c
  · rcases exec_effect i _ hacc with ⟨_, heq⟩ | ⟨c, hc, heq⟩ <;> rw [heq] at h <;> cases h
    exact .command (actions := .poll :: rest) (data := s.hostData) hhost hdec hacc hc

theorem pollStatus_steps {s t : State} {rest : List HostAction} (hhost : s.host = .poll :: rest)
    (h : pollStatus { s with host := rest } = .next t) : s.Steps t := by
  rcases pollStatus_cases { s with host := rest } with ⟨_, heq⟩ | ⟨_, _, heq⟩ <;> rw [heq] at h
  · cases h; exact .observed
  · exact engineTurn_steps (.inr ⟨rest, .inr hhost⟩) h

/-- Everything one step can do. -/
theorem steps_of_step {s t : State} (h : step s = .next t) : s.Steps t := by
  unfold step at h
  split at h
  · next hhost => exact engineTurn_steps (data := s.hostData) (.inl hhost) h
  · next a rest hhost =>
    cases a with
    | read size addr => exact hostRead_steps h
    | write size addr v => cases h; exact hostWrite_steps hhost
    | call w => exact callCommand_steps hhost h
    | poll => exact pollStatus_steps hhost h
    | pass => exact engineTurn_steps (data := s.hostData) (.inr ⟨rest, .inl hhost⟩) h
    | reset => cases h; exact .reset (actions := rest) (data := s.hostData) hhost

end Sys2Proof.Machine
end

/-! The invariant of the machine holds after reset (O54), every step keeps it (O55), and so a block without a driver never
pulls the line low (O56). -/
section
namespace Sys2Proof.Machine

/-! ### The transient state -/

/-- The transient state is coherent with whatever agrees on the registers it is about. -/
theorem EngineInv.congr {s t : State} {e : Engine} (h : EngineInv s e) (hparams : t.params = s.params)
    (htiming : t.timing = s.timing) (hinit : t.init = s.init) (harg : t.arg = s.arg) (haddr : t.bufAddr = s.bufAddr)
    (hlen : t.bufLen = s.bufLen) : EngineInv t e := by
  obtain ⟨driver, latched, fits, position, delay⟩ := h
  exact ⟨by rwa [hinit], by rwa [harg, haddr, hlen], by rwa [hparams], by rwa [htiming], by rwa [htiming]⟩

theorem EngineInv.at_or_done {s : State} {e : Engine} (h : EngineInv s e) : e.At ∨ e.Done := by
  simpa only [e.ops_length, Engine.At, Engine.Done] using h.position

/-- With a micro-operation to come the position is at one (R34). -/
theorem EngineInv.at_of_next {s : State} {e : Engine} (h : EngineInv s e) (hnext : e.next s.timing ≠ none) : e.At :=
  h.at_or_done.resolve_right fun hdone => hnext (Engine.next_none_of_done hdone _)

/-- Arriving at another point of the same command keeps the transient state coherent (R34, R43). -/
theorem EngineInv.arrive {s : State} {e e' : Engine} (h : EngineInv s e) (hsame : e.Same e') (hpos : e'.At ∨ e'.Done) :
    EngineInv s (e'.arrive s.timing) := by
  obtain ⟨driver, ⟨harg, haddr, hlen⟩, fits, -, -⟩ := h
  have hs := hsame.trans (e'.arrive_same s.timing)
  refine ⟨by rwa [hs.cmd], ⟨hs.arg.trans harg, hs.bufAddr.trans haddr, hs.bufLen.trans hlen⟩,
    by rwa [hs.cmd, hs.bufAddr, hs.bufLen], ?_, e'.arrive_delay s.timing⟩
  have harr := e'.arrive_same s.timing
  simpa [Engine.ops_length, Engine.At, Engine.Done, harr.bytes, harr.bits, harr.round] using hpos

/-- The start of a command: at its first micro-operation, or past the last where it has none (R34). -/
theorem Engine.at_or_done_of_start {e : Engine} (hbyte : e.byteIdx = 0) (hbit : e.bitIdx = 0) (hstep : e.step = 0) :
    e.At ∨ e.Done := by
  by_cases h : e.bytes = 0
  · exact .inr ⟨by rw [hbyte, h], hbit, hstep⟩
  · refine .inl ⟨by omega, by rw [hbit]; exact e.bits_pos, ?_⟩
    rw [hstep]
    cases hc : e.cmd <;> simp [Engine.round, Engine.bytes, hc] at h ⊢

/-- The transient state that acceptance latches, before the sequencer arrives at its first micro-operation (R71). -/
def Engine.start (i : Instr) (s : State) : Engine where
  cmd := i
  arg := s.arg
  bufAddr := s.bufAddr
  bufLen := s.bufLen
  byteIdx := 0
  bitIdx := 0
  step := 0
  sh := initialShift i
  crc := initialCrc i
  delay := 0#Config.durW

theorem latch_eq_enter (i : Instr) (s : State) : latch i s = s.enter (Engine.start i s) := rfl

/-- An accepted command starts coherent (R71, R86). -/
theorem engineInv_latch {i : Instr} {s : State} (hacc : acceptance i s = none) :
    EngineInv (latch i s) ((Engine.start i s).arrive s.timing) := by
  obtain ⟨-, hpresent, habsent, hfits⟩ := checks_of_accepted hacc
  have harr := (Engine.start i s).arrive_same s.timing
  refine ⟨by rw [harr.cmd]; exact ⟨hpresent, habsent⟩, ⟨harr.arg, harr.bufAddr, harr.bufLen⟩,
    by rw [harr.cmd, harr.bufAddr, harr.bufLen]; exact hfits, ?_, Engine.arrive_delay _ _⟩
  rw [Engine.ops_length]
  exact Engine.at_or_done_of_start (Engine.arrive_byteIdx _ _) (Engine.arrive_bitIdx _ _) (Engine.arrive_step _ _)

/-- Only a command that needs the driver pulls the line low (R84, R131). -/
theorem driverNeed_of_pinLow {e : Engine} {t : Timing} (h : e.next t = some .pinLow) : driverNeed e.cmd = .present := by
  have hmem : MicroOp.pinLow ∈ e.ops t := by
    unfold Engine.next at h
    split at h
    · exact List.mem_of_getElem? h
    · cases h
  cases hc : e.cmd <;> simp [Engine.ops, hc] at hmem <;> rfl

/-! ### What a change keeps -/

/-- The step from `s` to `t` keeps the parameters and the invariant. -/
def State.KeepsInv (s t : State) : Prop := t.params = s.params ∧ (s.Inv → t.Inv)

/-- The host's side plays no part. -/
theorem State.Inv.withHost {s : State} (h : s.Inv) (actions : List HostAction) (data : Word) :
    (s.withHost actions data).Inv :=
  { h with engine := fun e he => (h.engine e he).congr rfl rfl rfl rfl rfl rfl }

/-- A refusal records its cause or keeps the one before (R189). -/
theorem State.Inv.refusedWith {s : State} (h : s.Inv) (c : RefusalCause) : (s.refusedWith c).Inv :=
  { h with
    cause := by cases hc : s.hcause <;> simp [State.refusedWith, hc]
    engine := fun e he => (h.engine e he).congr rfl rfl rfl rfl rfl rfl }

theorem State.Inv.latch {s : State} (h : s.Inv) {i : Instr} (hacc : acceptance i s = none) : (latch i s).Inv :=
  { h with engine := fun _ he => by cases he; exact engineInv_latch hacc }

/-- A byte written inside `BUF` on an idle block (R42, R63). -/
theorem State.Inv.writeBuf {s : State} (h : s.Inv) {i : Nat} (v : Byte) (hidle : s.engine = none)
    (hi : i < s.params.bufSize) : (s.writeBuf i v).Inv :=
  { h with
    buf_wf := Memory.write_wf i v h.buf_wf
    buf_range := Memory.write_range hi h.buf_range
    engine := fun e he => by rw [show s.engine = some e from he] at hidle; cases hidle }

/-- The operand and timing registers of an idle block may hold anything. -/
theorem State.Inv.of_idle {s : State} (h : s.Inv) (hidle : s.engine = none) (a : Dur) (b c : Word) (t : Timing) :
    ({ s with arg := a, bufAddr := b, bufLen := c, timing := t } : State).Inv :=
  { h with engine := fun e he => by rw [show s.engine = some e from he] at hidle; cases hidle }

/-- The error values the block records (R181, R184, R185). -/
structure ErrorValue.Recordable (v : ErrorValue) (p : Params) : Prop where
  crc_only : ∀ x, v = .protocol x → ∃ c, x = .crc c ∧ c ≠ 0#8
  pin_width : ∀ e, v = .pin e → e.toNat < 2 ^ p.pinErrW.val

/-- A completion (R186) gives the invariant: it writes the error registers together and leaves the block idle. -/
theorem State.completedWith_inv {u : State} {v : ErrorValue} {r : Byte} {k : Word} (hwf : u.buf.wf)
    (hrange : ∀ c ∈ u.buf, c.1 < u.params.bufSize) (hcause : u.hosterr = true ↔ u.hcause ≠ none)
    (hreleased : u.init = false → u.drvlow = false) (hv : v.Recordable u.params) : (u.completedWith v r k).Inv where
  buf_wf := hwf
  buf_range := hrange
  err := decide_eq_true_iff
  crc_only := hv.crc_only
  pin_width := hv.pin_width
  cause := hcause
  released := hreleased
  engine := fun _ he => by cases he

theorem ErrorValue.recordable_success (p : Params) : ErrorValue.success.Recordable p :=
  ⟨fun _ h => (by cases h), fun _ h => (by cases h)⟩

theorem ErrorValue.recordable_crc {c : Byte} (p : Params) (hc : c ≠ 0#8) : (ErrorValue.protocol (.crc c)).Recordable p :=
  ⟨fun _ h => (by cases h; exact ⟨c, rfl, hc⟩), fun _ h => (by cases h)⟩

theorem ErrorValue.recordable_pin {s : State} {k : Nat} {e : PinErr} (h : s.answerAt k = .err e) :
    (ErrorValue.pin e).Recordable s.params :=
  ⟨fun _ h => (by cases h), fun _ he => by cases he; exact State.answerAt_err_lt h⟩

/-! ### The command line and the running command -/

theorem CommandEffect.Legal.recordable {c : CommandEffect} {i : Instr} {s : State} (hc : c.Legal i s) :
    c.error.Recordable s.params := by
  have herr := hc.error
  cases hv : c.error with
  | success => exact ErrorValue.recordable_success _
  | pin e =>
    rw [hv] at herr
    obtain ⟨q, _, hans, _⟩ := herr
    exact ErrorValue.recordable_pin hans
  | protocol p =>
    rw [hv] at herr
    obtain ⟨_, x, hx, rfl, _⟩ := herr
    exact ErrorValue.recordable_crc _ hx

/-- R24, R84: an accepted command that ends without a driver ends with the line released. -/
theorem CommandEffect.Legal.released {c : CommandEffect} {i : Instr} {s : State} (hc : c.Legal i s)
    (hacc : acceptance i s = none) (hreleased : s.init = false → s.drvlow = false) (hinit : c.init = false) :
    c.low = false := by
  obtain ⟨-, hpresent, -, -⟩ := checks_of_accepted hacc
  rcases hc.init with hsame | ⟨-, htrue⟩ | ⟨-, -, hlow⟩
  · have hs : s.init = false := hsame ▸ hinit
    have hnot : driverNeed i ≠ .present := fun hn => by rw [hpresent hn] at hs; cases hs
    have hlow : c.low = s.drvlow ∨ c.low = false := by
      cases i with
      | crcCalc | crcAppend | crcCheck | tPreset => exact .inl (hc.low (by simp))
      | init => exact hc.init_low rfl
      | _ => exact absurd rfl hnot
    exact hlow.elim (fun h => h.trans (hreleased hs)) id
  · rw [hinit] at htrue; cases htrue
  · exact hlow

theorem CommandEffect.Legal.keepsInv {c : CommandEffect} {i : Instr} {s : State} (hc : c.Legal i s)
    (hacc : acceptance i s = none) : s.KeepsInv (c.apply s) := by
  obtain ⟨-, -, -, hfits⟩ := checks_of_accepted hacc
  refine ⟨rfl, fun h => State.completedWith_inv (hc.buf_wf h.buf_wf) ?_ h.cause
    (hc.released hacc h.released) hc.recordable⟩
  by_cases hi : i = .rdBytes
  · exact hc.buf_range _ (hfits (by rw [hi]; rfl)) h.buf_range
  · show ∀ x ∈ c.buf, _
    rw [hc.buf_same hi]
    exact h.buf_range

theorem finishCommand_keepsInv (e : Engine) (s : State) : s.KeepsInv (finishCommand e s) := by
  obtain ⟨t, ini, evs, low, v, r, k, heq, -, hdriver, -, -, hv⟩ := finishCommand_spec e s
  rw [heq]
  refine ⟨rfl, fun h => State.completedWith_inv h.buf_wf h.buf_range h.cause ?_ ?_⟩
  · show ini = false → low = false
    rcases hdriver with ⟨rfl, rfl⟩ | ⟨-, rfl, -⟩ | ⟨-, -, rfl⟩
    · exact h.released
    · exact fun h => by cases h
    · exact fun _ => rfl
  · rcases hv with rfl | ⟨-, hr, rfl⟩
    · exact ErrorValue.recordable_success _
    · exact ErrorValue.recordable_crc _ hr

theorem raisePin_keepsInv {s : State} {er : PinErr} (k : Word) (evs : List Event) (hans : s.answerAt 0 = .err er) :
    s.KeepsInv (raisePin er k (s.afterOps 1 evs s.drvlow)) := by
  rw [raisePin, complete_eq]
  exact ⟨rfl, fun h => State.completedWith_inv h.buf_wf h.buf_range h.cause h.released
    (ErrorValue.recordable_pin (s := s) hans)⟩

/-- R34, R66: after a micro-operation the position is again at one or past the last, and a byte that `RD.BYTES` stores lies
in its range. -/
theorem moveOn_keepsInv {s : State} {e : Engine} {sh crc : Byte} {n : Nat} {evs : List Event} {low : Bool}
    (he : s.engine = some e) (hnext : e.next s.timing ≠ none)
    (hlow : low = s.drvlow ∨ low = false ∨ low = true ∧ e.next s.timing = some .pinLow) :
    s.KeepsInv (moveOn { e with sh := sh, crc := crc } (s.afterOps n evs low)) := by
  refine ⟨?_, fun h => ?_⟩
  · obtain ⟨_, _, heq⟩ := moveOn_any { e with sh := sh, crc := crc } (s.afterOps n evs low)
    rw [heq]; rfl
  have heng := h.engine e he
  have hat := heng.at_of_next hnext
  have hsame : e.Same { e with sh := sh, crc := crc } := ⟨rfl, rfl, rfl, rfl⟩
  obtain ⟨e', m, heq, hsame', hpos, -, hm⟩ :=
    moveOn_spec (s := s.afterOps n evs low) (hat.congr hsame rfl rfl rfl)
  have hinside : e.cmd = .rdBytes → e.bufAddr.toNat + e.byteIdx < s.params.bufSize := fun hc => by
    have hfits := heng.fits (by rw [hc]; rfl)
    have hbyte : e.byteIdx < e.bytes := hat.1
    simp only [Engine.bytes, hc] at hbyte
    omega
  rw [heq]
  exact {
    h with
    buf_wf := by
      rcases hm with rfl | ⟨-, rfl⟩
      · exact h.buf_wf
      · exact Memory.write_wf _ _ h.buf_wf
    buf_range := by
      rcases hm with rfl | ⟨hc, rfl⟩
      · exact h.buf_range
      · exact Memory.write_range (hinside hc) h.buf_range
    released := fun hinit => by
      have hs : s.init = false := hinit
      rcases hlow with rfl | rfl | ⟨-, hpin⟩
      · exact h.released hs
      · rfl
      · have htrue := heng.driver.1 (driverNeed_of_pinLow hpin)
        rw [hs] at htrue; cases htrue
    engine := fun _ hx => by
      cases hx
      exact (heng.arrive (hsame.trans hsame') hpos).congr rfl rfl rfl rfl rfl rfl }

/-! ### The obligations -/

/-- Settles O54. -/
theorem invariantHoldsAfterReset : Obligations.InvariantHoldsAfterReset := fun _ =>
  { buf_wf := List.Pairwise.nil
    buf_range := fun _ h => by cases h
    err := (by decide : false = true ↔ ErrorValue.success.kind ≠ 0#2)
    crc_only := fun _ h => by cases h
    pin_width := fun _ h => by cases h
    cause := (by decide : false = true ↔ (none : Option RefusalCause) ≠ none)
    released := fun _ => rfl
    engine := fun _ h => by cases h }

/-- `rst` gives the invariant from any state (R210). -/
theorem resetBlock_inv (s : State) : (resetBlock s).Inv :=
  { invariantHoldsAfterReset s.params with engine := fun _ h => by cases h }

theorem State.Steps.keepsInv {s t : State} (h : s.Steps t) : s.KeepsInv t := by
  have host : ∀ {t : State} (actions data), (s.withHost actions data).KeepsInv t → s.KeepsInv t :=
    fun actions data hu => ⟨hu.1, fun hs => hu.2 (hs.withHost actions data)⟩
  cases h with
  | observed => exact host _ _ ⟨rfl, id⟩
  | refused c => exact host _ _ ⟨rfl, fun h => h.refusedWith c⟩
  | latched hacc => exact host _ _ ⟨rfl, fun h => h.latch hacc⟩
  | stored hidle hi => exact host _ _ ⟨rfl, fun h => h.writeBuf _ hidle hi⟩
  | @operands actions data _ _ _ hidle => exact host actions data ⟨rfl, fun h => h.of_idle hidle _ _ _ _⟩
  | @timing actions data _ _ _ _ hidle => exact host actions data ⟨rfl, fun h => h.of_idle hidle _ _ _ _⟩
  | command _ _ hacc hc => exact host _ _ (hc.keepsInv hacc)
  | reset => exact ⟨rfl, fun _ => resetBlock_inv _⟩
  | finished => exact host _ _ (finishCommand_keepsInv _ _)
  | failed _ _ hans => exact host _ _ (raisePin_keepsInv _ _ hans)
  | wentOn he hnext hlow => exact host _ _ (moveOn_keepsInv he hnext hlow)

/-- Settles O55: by the ways a step goes on. -/
theorem everyStepKeepsTheInvariant : Obligations.EveryStepKeepsTheInvariant :=
  fun _ _ h => (steps_of_step h).keepsInv

/-- What every step keeps holds along every run. -/
theorem inv_of_run {k : Nat} : ∀ {s t : State}, s.Inv → Host.Core.run Sys2Proof.core k s = .next t → t.Inv := by
  induction k with
  | zero => intro s t hs h; cases h; exact hs
  | succ k ih =>
    intro s t hs h
    rw [run_succ] at h
    split at h
    · next u hstep => exact ih ((everyStepKeepsTheInvariant s u hstep).2 hs) h
    · cases h
    · cases h

/-- The pad's script plays no part in the invariant. -/
theorem State.Inv.withScript {s : State} (h : s.Inv) (script : List PinAnswer) :
    ({ s with padScript := script } : State).Inv :=
  { h with engine := fun e he => (h.engine e he).congr rfl rfl rfl rfl rfl rfl }

/-- Settles O56: the invariant along the run from reset. -/
theorem withoutADriverTheLineIsReleased : Obligations.WithoutADriverTheLineIsReleased := by
  intro p actions script k t hrun hinit
  have hstart := ((invariantHoldsAfterReset p).withHost actions 0#32).withScript script
  exact (inv_of_run hstart hrun).released hinit

end Sys2Proof.Machine
end

/-! What changes the durations (O24) and the results of a command (O58); the size of one step of the engine (O6). -/
section
namespace Sys2Proof.Machine

theorem State.busy_of_running {s : State} {e : Engine} (h : s.engine = some e) : s.busy = true := by
  simp [State.busy, h]

/-- The success completion leaves the block idle (R186), and the durations alone in every command but two. -/
theorem finishCommand_idle (e : Engine) (s : State) : (finishCommand e s).busy = false := by
  obtain ⟨_, _, _, _, _, _, _, heq, -⟩ := finishCommand_spec e s
  rw [heq]; rfl

theorem finishCommand_timing (e : Engine) (s : State) :
    (finishCommand e s).timing = s.timing ∨ e.cmd = .tPreset ∨ e.cmd = .init := by
  obtain ⟨_, _, _, _, _, _, _, heq, htiming, -⟩ := finishCommand_spec e s
  rw [heq]
  exact htiming.imp id fun ⟨hcmd, _⟩ => hcmd.symm

/-- Settles O24: by the ways a step goes on. -/
theorem durationsAreConstantWhileACommandRuns : Obligations.DurationsAreConstantWhileACommandRuns := by
  intro s t hstep hne
  cases steps_of_step hstep with
  | observed | refused | latched | stored | operands | failed => exact absurd rfl hne
  | wentOn =>
    obtain ⟨_, _, heq⟩ := moveOn_any _ _
    rw [heq] at hne
    exact absurd rfl hne
  | reset hhost => exact .inl ⟨_, hhost⟩
  | timing hidle hhost hlo hhi => exact .inr (.inl ⟨State.busy_of_idle hidle, _, _, _, hhost, hlo, hhi⟩)
  | command hhost hdec hacc hc =>
    have hcmd := (hc.timing.resolve_left hne).1
    refine .inr (.inr (.inl ⟨State.busy_of_idle (idle_of_accepted hacc), _, _, hhost, ?_⟩))
    rw [hdec]
    exact hcmd.symm.imp (congrArg _) (congrArg _)
  | finished _ he =>
    exact .inr (.inr (.inr ⟨finishCommand_idle _ _, _, he, (finishCommand_timing _ _).resolve_left hne⟩))

/-- Settles O58: by the ways a step goes on. -/
theorem resultsChangeOnlyAtCompletion : Obligations.ResultsChangeOnlyAtCompletion := by
  intro s t hstep hne
  have same : ∀ {u : State}, u.result = s.result → u.errinfo = s.errinfo → u.xferCnt = s.xferCnt → u.err = s.err →
      ¬ (u.result ≠ s.result ∨ u.errinfo ≠ s.errinfo ∨ u.xferCnt ≠ s.xferCnt ∨ u.err ≠ s.err) := by
    tauto
  cases steps_of_step hstep with
  | observed | refused | latched | stored | operands | timing => exact absurd hne (same rfl rfl rfl rfl)
  | wentOn =>
    obtain ⟨_, _, heq⟩ := moveOn_any _ _
    rw [heq] at hne
    exact absurd hne (same rfl rfl rfl rfl)
  | reset hhost => exact ⟨rfl, .inl ⟨_, hhost⟩⟩
  | command hhost hdec hacc =>
    refine ⟨rfl, .inr (.inr ⟨State.busy_of_idle (idle_of_accepted hacc), _, _, hhost, ?_⟩)⟩
    rw [eq_encode_of_decode hdec, refusalCauseOf_encode, hacc]
  | finished hturn he => exact ⟨finishCommand_idle _ _, .inr (.inl ⟨State.busy_of_running he, hturn⟩)⟩
  | failed hturn he => exact ⟨rfl, .inr (.inl ⟨State.busy_of_running he, hturn⟩)⟩

/-- R34, R10: one step of the engine gains at most one event and asks the pad at most once. -/
theorem engineStep_atMostOne {e : Engine} {s t : State} (h : engineStep e s = .next t) :
    ∃ evs : List Event, evs.length ≤ 1 ∧ t.trace = s.trace ++ evs ∧ t.padOps ≤ s.padOps + 1 := by
  rcases engineStep_cases e s with ⟨_, heq, _⟩ | ⟨_, heq⟩ | ⟨_, ev, heq, _⟩ |
      ⟨sh, crc, n, evs, low, heq, _, hn, hevs, _⟩ <;> rw [heq] at h <;> cases h
  · obtain ⟨_, _, evs, _, _, _, _, heq, -, -, hevs, -⟩ := finishCommand_spec e s
    rw [heq]
    exact ⟨evs, by rcases hevs with rfl | rfl <;> simp, rfl, Nat.le_succ _⟩
  · exact ⟨[ev], le_refl 1, rfl, le_refl _⟩
  · obtain ⟨_, _, heq⟩ := moveOn_any { e with sh := sh, crc := crc } (s.afterOps n evs low)
    rw [heq]
    exact ⟨evs, hevs, rfl, Nat.add_le_add_left hn _⟩

/-- Settles O6. -/
theorem engineStepIsAtMostOneMicroOperation : Obligations.EngineStepIsAtMostOneMicroOperation := by
  intro s t hhost hstep
  simp only [step, hhost, engineTurn] at hstep
  split at hstep
  · cases hstep
    exact ⟨[], Nat.zero_le 1, (List.append_nil _).symm, Nat.le_succ _⟩
  · exact engineStep_atMostOne hstep

end Sys2Proof.Machine
end

/-! Single facts of the state: reset (O1), the `STATUS` word (O47), the operand registers (O50), a read of `BUF` that stops
(O20). -/
section
namespace Sys2Proof.Machine

theorem resetFor_hasResetValues (p : Params) : (State.resetFor p).HasResetValues :=
  ⟨rfl, rfl, rfl, rfl, rfl, ⟨rfl, rfl⟩, ⟨rfl, rfl, rfl⟩, ⟨rfl, rfl, rfl⟩, rfl, rfl⟩

/-- R210, R211: `rst` gives the reset values from any state; `DROPPED` is the last event of the trace. -/
theorem resetBlock_hasResetValues (s : State) : (resetBlock s).HasResetValues :=
  { resetFor_hasResetValues s.params with dropped := List.getLast?_concat }

/-- Settles O1. -/
theorem resetLeavesTheResetValues : Obligations.ResetLeavesTheResetValues := by
  refine ⟨fun p => ⟨rfl, resetFor_hasResetValues p⟩, rfl, fun s rest hhost => ?_⟩
  refine ⟨resetBlock { s with host := rest }, ?_, rfl, resetBlock_hasResetValues _, rfl, rfl⟩
  simp only [step, hhost, hostTurn]

/-- A field of a register word stands at its bits, all others are 0. -/
@[simp] theorem getLsbD_fieldAt {w : Nat} (v : BitVec w) (lo k : Nat) :
    (fieldAt v lo).getLsbD k = (decide (k < 32) && (decide (lo ≤ k) && v.getLsbD (k - lo))) := by
  by_cases hk : k < 32
  · by_cases hlo : lo ≤ k
    · simp [fieldAt, hk, hlo, Nat.not_lt.2 hlo]
    · simp [fieldAt, hk, hlo, Nat.lt_of_not_le hlo]
  · simp [fieldAt, hk]

theorem getLsbD_fieldAt_flag (b : Bool) {lo k : Nat} (hk : k < 32) :
    (fieldAt (BitVec.ofBool b) lo).getLsbD k = (decide (k = lo) && b) := by
  rw [getLsbD_fieldAt, BitVec.getLsbD_ofBool]
  by_cases h : k = lo
  · subst h; simp [hk]
  · by_cases hlo : lo ≤ k
    · simp [h, show ¬ k - lo = 0 by omega]
    · simp [h, hlo]

/-- R28: the low byte of the `STATUS` word holds the five flags. -/
theorem getLsbD_statusWord_low (s : State) {k : Nat} (hk : k < 8) : s.statusWord.getLsbD k =
    (decide (k = 0) && s.busy || decide (k = 1) && s.init || decide (k = 2) && s.err || decide (k = 3) && s.drvlow ||
      decide (k = 4) && s.hosterr) := by
  simp only [State.statusWord, BitVec.getLsbD_or, getLsbD_fieldAt_flag _ (show k < 32 by omega), getLsbD_fieldAt,
    decide_eq_false (Nat.not_le.2 hk), Bool.false_and, Bool.and_false, Bool.or_false]

/-- R28: from bit 8 up the `STATUS` word holds `HCAUSE`. -/
theorem getLsbD_statusWord_high (s : State) {k : Nat} (hlo : 8 ≤ k) (hk : k < 32) :
    s.statusWord.getLsbD k = (causeCode s.hcause).getLsbD (k - 8) := by
  have noflag : ∀ lo < 8, decide (k = lo) = false := fun lo h => decide_eq_false (by omega)
  simp [State.statusWord, -BitVec.getLsbD_eq_getElem, BitVec.getLsbD_or, getLsbD_fieldAt_flag _ hk, noflag, hlo, hk]

/-- Settles O47: bit by bit. -/
theorem statusWordFields : Obligations.StatusWordFields := by
  intro s
  have hcause : s.statusWord.extractLsb' 8 4 = causeCode s.hcause := by
    ext j hj
    rw [BitVec.getElem_extractLsb', getLsbD_statusWord_high s (by omega) (by omega), Nat.add_sub_cancel_left,
      BitVec.getLsbD_eq_getElem hj]
  refine ⟨?_, ?_, ?_, ?_, ?_, ?_, hcause, ?_, fun x hx hs => ?_⟩
  iterate 5 rw [getLsbD_statusWord_low s (by omega)]; simp
  · ext j hj
    rw [BitVec.getElem_extractLsb', getLsbD_statusWord_low s (by omega)]
    interval_cases j <;> simp
  · ext j hj
    rw [BitVec.getElem_extractLsb', getLsbD_statusWord_high s (by omega) (by omega), BitVec.getLsbD_of_ge _ _ (by omega),
      BitVec.getElem_zero]
  · rw [hcause, hs]
    clear hs
    revert x
    decide

/-- An accepted write to a register on an idle block (R61, R73). -/
theorem step_write_reg {s : State} {rest : List HostAction} {addr : HostAddr} {v : Word} {r : Reg}
    (hidle : s.engine = none) (hhost : s.host = .write .word addr v :: rest) (haddr : addr < 0x200)
    (hr : Reg.ofOffset addr = some r) (hrw : r.readOnly = false) :
    step s = .next (writeReg r v { s with host := rest }) := by
  simp [step, hhost, hostTurn, hostWrite, target_word haddr, hr, hrw, hidle]

/-- Settles O50. -/
theorem operandRegistersTakeTheWrittenValue : Obligations.OperandRegistersTakeTheWrittenValue := by
  intro s rest v hidle
  refine ⟨fun hhost => ?_, fun hhost => ?_, fun hhost => ?_⟩
  · rw [step_write_reg (r := .arg) hidle hhost (by decide) rfl rfl, writeReg, BitVec.setWidth_eq]
  · rw [step_write_reg (r := .bufAddr) hidle hhost (by decide) rfl rfl, writeReg]
  · rw [step_write_reg (r := .bufLen) hidle hhost (by decide) rfl rfl, writeReg]

/-- U6 (log 4): a command that reads its range at once stops where the read of the range does. -/
theorem withBuffer_of_error {s : State} {f : Fault} (k : List Byte → State)
    (h : readRange s.buf s.bufAddr.toNat s.bufLen.toNat = .error f) : withBuffer s k = .fault f := by
  simp only [withBuffer, h]

/-- The bytes of a range that were all written. -/
theorem exists_data_of_written {m : Memory} {a n : Nat} (h : ∀ k < n, m.read (a + k) ≠ none) :
    ∃ data : List Byte, data.length = n ∧ ∀ l (hl : l < data.length), m.read (a + l) = some data[l] := by
  refine ⟨(List.range n).map fun k => (m.read (a + k)).getD 0#8, by simp, fun l hl => ?_⟩
  have hl' : l < n := by simpa using hl
  obtain ⟨x, hx⟩ := Option.ne_none_iff_exists'.1 (h l hl')
  simp [hx]

/-- Settles O20: the three CRC commands read the range at once, `WR.BYTES` byte by byte. -/
theorem commandsStopAtAnUnwrittenByte : Obligations.CommandsStopAtAnUnwrittenByte := by
  intro s j seed hidle hfits hj hwritten hnone
  have hread : readRange s.buf s.bufAddr.toNat s.bufLen.toNat = .error (.unwrittenBuf (s.bufAddr.toNat + j)) :=
    readRange_error j _ _ hj hwritten hnone
  refine ⟨?_, ?_, ?_, fun hinit hok => ?_⟩
  · rw [exec, execCrcCalc, accepted_any_buffer _ hidle rfl hfits]
    exact withBuffer_of_error _ hread
  · rw [exec, execCrcAppend, accepted_any_buffer _ hidle rfl hfits]
    exact withBuffer_of_error _ hread
  · rw [exec, execCrcCheck, accepted_any_buffer _ hidle rfl hfits]
    exact withBuffer_of_error _ hread
  · rw [exec, execWrBytes, accepted_driver_buffer _ hidle hinit rfl hfits]
    obtain ⟨data, rfl, hdata⟩ := exists_data_of_written hwritten
    exact writeBytes_unwritten _ _ data 0 s hj hdata hnone hok

end Sys2Proof.Machine
end

/-! Micro-steps against the big step (R34, D28), obligation O5: from acceptance on, the engine's steps end in the outcome of
the command's meaning, command by command; the two buffer loops and the CRC fold by induction on the bytes left. -/
section
namespace Sys2Proof.Machine

/-! ### The end of a command -/

/-- The position is at the last micro-operation of a command that stores no byte (R34). -/
def Engine.Last (e : Engine) : Prop :=
  e.step + 1 = e.round ∧ e.bitIdx + 1 = e.bits ∧ e.byteIdx + 1 = e.bytes ∧ e.cmd ≠ .rdBytes

/-- After the last micro-operation the engine's next step is the completion. -/
theorem Engine.Last.ends {e : Engine} {s : State} (h : e.Last) (hh : s.host = []) :
    Ends (moveOn e s) (.next (finishCommand e s)) := by
  obtain ⟨hstep, hbit, hbyte, hc⟩ := h
  rw [moveOn_next_byte hstep.ge hbit.ge hc]
  have hnone : ({ e with step := 0, bitIdx := 0, byteIdx := e.byteIdx + 1 } : Engine).next s.timing = none :=
    if_neg (Nat.not_lt.2 hbyte.ge)
  exact .step (step_finish hh hnone) (.done _)

/-- A command made of one fallible piece: the micro-steps end where the piece and its completion `g` do. -/
theorem PinResult.Leads.ends {α : Type} {s s₀ : State} {r : PinResult α} {k : α → Engine} {g : α → State → State}
    (h : r.Leads s₀ 0#32 fun v t => moveOn (k v) t) (hr : r.From s) (hh : s.host = []) (hlast : ∀ v, (k v).Last)
    (hg : ∀ v t, finishCommand (k v) t = g v t) : Ends s₀ (.next (r.finish g)) := by
  match r, hr, h with
  | .ok v t, ⟨n, evs, low, ht, _⟩, h =>
    subst ht
    refine h _ ?_
    rw [PinResult.finish, ← hg]
    exact (hlast v).ends hh
  | .raised e t, _, h => exact h

/-! ### The CRC fold (R36, R106 to R108) -/

/-- The commands of the CRC unit. -/
def Engine.folds (e : Engine) : Prop := e.cmd = .crcCalc ∨ (∃ seed, e.cmd = .crcAppend seed) ∨ e.cmd = .crcCheck

theorem Engine.folds.shape {e : Engine} (h : e.folds) :
    (∀ t, e.ops t = [.foldByte]) ∧ e.round = 1 ∧ e.bits = 1 ∧ e.bytes = e.bufLen.toNat ∧ e.cmd ≠ .rdBytes := by
  rcases h with h | ⟨seed, h⟩ | h <;> simp [Engine.ops, Engine.round, Engine.bits, Engine.bytes, h]

theorem fold_ends (n : Nat) : ∀ (s : State) (e : Engine), s.host = [] → e.folds → e.step = 0 → e.bitIdx = 0 →
    e.byteIdx + n = e.bufLen.toNat →
    (∀ data, readRange s.buf (e.bufAddr.toNat + e.byteIdx) n = .ok data →
      Ends (s.enter e) (.next (finishCommand { e with crc := crcAppend e.crc data } s))) ∧
    (∀ f, readRange s.buf (e.bufAddr.toNat + e.byteIdx) n = .error f → Ends (s.enter e) (.fault f)) := by
  induction n with
  | zero =>
    intro s e hh hf h0 hb hn
    obtain ⟨-, -, -, hbytes, -⟩ := hf.shape
    have hnone : e.next s.timing = none := if_neg (by omega)
    refine ⟨fun data hd => ?_, fun f hd => by cases hd⟩
    cases hd
    exact .step (step_finish hh hnone) (.done _)
  | succ n ih =>
    intro s e hh hf h0 hb hn
    obtain ⟨hops, hround, hbits, hbytes, hc⟩ := hf.shape
    have hnext : e.next s.timing = some .foldByte := by
      rw [Engine.next, if_pos (by omega), hops, h0]; rfl
    have hstep := step_fold hh hnext
    simp only [readRange]
    rw [State.readBuf] at hstep
    cases hr : s.buf.read (e.bufAddr.toNat + e.byteIdx) with
    | none =>
      rw [hr] at hstep
      exact ⟨fun _ hd => (by cases hd), fun _ hd => by cases hd; exact .fault hstep⟩
    | some v =>
      rw [hr] at hstep
      simp only at hstep
      rw [moveOn_next_byte (e := { e with crc := crcByte e.crc v }) (hround.trans_le (Nat.le_add_left 1 _))
        (hbits.trans_le (Nat.le_add_left 1 _)) hc] at hstep
      obtain ⟨hok, herr⟩ := ih s { e with step := 0, bitIdx := 0, byteIdx := e.byteIdx + 1, crc := crcByte e.crc v } hh hf
        rfl rfl (by simp only; omega)
      simp only [← Nat.add_assoc] at hok herr
      cases hrest : readRange s.buf (e.bufAddr.toNat + e.byteIdx + 1) n with
      | ok vs => exact ⟨fun _ hd => (by cases hd; exact .step hstep (hok vs hrest)), fun _ hd => (by cases hd)⟩
      | error f => exact ⟨fun _ hd => (by cases hd), fun _ hd => by cases hd; exact .step hstep (herr f hrest)⟩

/-- A CRC command, from acceptance to the completion `k` of its checksum. -/
theorem crc_ends {i : Instr} {s : State} {k : List Byte → State} (hh : s.host = []) (hf : (Engine.start i s).folds)
    (hk : ∀ data, finishCommand { Engine.start i s with crc := crcAppend (initialCrc i) data } s = k data) :
    Ends (s.enter (Engine.start i s)) (withBuffer s k) := by
  obtain ⟨hok, herr⟩ := fold_ends s.bufLen.toNat s (Engine.start i s) hh hf rfl rfl (Nat.zero_add _)
  simp only [withBuffer]
  cases hr : readRange s.buf s.bufAddr.toNat s.bufLen.toNat with
  | ok data => simp only [← hk]; exact hok data hr
  | error f => exact herr f hr

/-! ### The buffer transfers (R163, R164) -/

/-- The count of a completed transfer is the byte index it has reached (R33). -/
theorem bufLen_of_done {e : Engine} (h : e.byteIdx + 0 = e.bufLen.toNat) : e.bufLen = BitVec.ofNat 32 e.byteIdx := by
  rw [show e.byteIdx = e.bufLen.toNat from h, BitVec.ofNat_toNat, BitVec.setWidth_eq]

theorem readBytes_ends (left : Nat) : ∀ (s : State) (e : Engine), s.host = [] → e.cmd = .rdBytes → e.step = 0 →
    e.bitIdx = 0 → e.sh = 0#8 → e.byteIdx + left = e.bufLen.toNat →
    Ends (s.enter e) (.next (readBytes e.bufAddr.toNat left e.byteIdx s)) := by
  induction left with
  | zero =>
    intro s e hh hc h0 hb hsh hn
    have hnone : e.next s.timing = none := if_neg (by simp only [Engine.bytes, hc]; omega)
    refine .step (step_finish hh hnone) ?_
    rw [readBytes, ← bufLen_of_done hn]
    simp only [finishCommand, hc]
    exact .done _
  | succ left ih =>
    intro s e hh hc h0 hb hsh hn
    have hbyte : e.byteIdx < e.bytes := by simp only [Engine.bytes, hc]; omega
    have hbits : e.bits = 8 := by simp only [Engine.bits, hc]
    have hcount : e.failCount = BitVec.ofNat 32 e.byteIdx := by simp only [Engine.failCount, hc]
    have hreads : e.reads := .inr (.inr hc)
    have hleads := readByte_leads hh hreads hbits hbyte h0 hb hsh
    have hfrom := readByte_from s
    simp only [readBytes]
    match readByte s, hfrom, hleads with
    | .raised er t, _, hleads => rw [← hcount]; exact hleads
    | .ok x t, ⟨n, evs, low, ht, _⟩, hleads =>
      subst ht
      refine hleads _ ?_
      simp only
      rw [moveOn_stored (e := { e with step := 5, bitIdx := 7, sh := x }) (hreads.round.trans_le (le_refl 6))
        (hbits.trans_le (le_refl 8)) hc]
      exact ih _ { e with step := 0, bitIdx := 0, byteIdx := e.byteIdx + 1, sh := 0#8 } hh hc rfl rfl rfl
        (by simp only; omega)

theorem writeBytes_ends (left : Nat) : ∀ (s : State) (e : Engine), s.host = [] → e.cmd = .wrBytes → e.step = 0 →
    e.bitIdx = 0 → e.byteIdx + left = e.bufLen.toNat →
    Ends (s.enter e) (writeBytes e.bufAddr.toNat left e.byteIdx s) := by
  induction left with
  | zero =>
    intro s e hh hc h0 hb hn
    have hnone : e.next s.timing = none := if_neg (by simp only [Engine.bytes, hc]; omega)
    refine .step (step_finish hh hnone) ?_
    rw [writeBytes, ← bufLen_of_done hn]
    simp only [finishCommand, hc]
    exact .done _
  | succ left ih =>
    intro s e hh hc h0 hb hn
    have hbyte : e.byteIdx < e.bytes := by simp only [Engine.bytes, hc]; omega
    have hcount : e.failCount = BitVec.ofNat 32 e.byteIdx := by simp only [Engine.failCount, hc]
    have hsends : e.sends := .inr hc
    simp only [writeBytes]
    cases hr : s.readBuf (e.bufAddr.toNat + e.byteIdx) with
    | none =>
      have hfetch : fetchByte e s = .error (.unwrittenBuf (e.bufAddr.toNat + e.byteIdx)) := by
        simp only [fetchByte, hc, hb, if_true, hr]
      exact .fault (by rw [step_low hh (hsends.next_low hbyte h0 _), hfetch])
    | some x =>
      have hfetch : fetchByte e s = .ok { e with sh := x } := by simp only [fetchByte, hc, hb, if_true, hr]
      have hleads := writeByte_leads hh hsends hfetch hbyte h0 hb
      have hfrom := writeByte_from x s
      simp only
      match writeByte x s, hfrom, hleads with
      | .raised er t, _, hleads => rw [← hcount]; exact hleads
      | .ok _ t, ⟨n, evs, low, ht, _⟩, hleads =>
        subst ht
        refine hleads _ ?_
        simp only
        rw [moveOn_next_byte (e := { e with step := 3, bitIdx := 7, sh := x }) (hsends.round.trans_le (le_refl 4))
          (hsends.bits.trans_le (le_refl 8)) (by simp [hc])]
        exact ih _ { e with step := 0, bitIdx := 0, byteIdx := e.byteIdx + 1, sh := x } hh hc rfl rfl
          (by simp only; omega)

/-! ### Every command -/

/-- The shift register of a one-bit command holds its sample (log 11). -/
theorem placeBit_zero (v : Bool) : placeBit 0#8 v 0 = bitByte v := by
  cases v <;> rfl

theorem getLsbD_placeBit_zero (v : Bool) : (placeBit 0#8 v 0).getLsbD 0 = v := by
  cases v <;> rfl

/-- From acceptance on, the micro-steps of a command end in the outcome of its meaning. -/
theorem start_ends {i : Instr} {s : State} (hh : s.host = []) (hacc : acceptance i s = none) :
    Ends (s.enter (Engine.start i s)) (exec i s) := by
  have acc : ∀ body, accepted i s body = body s := fun body => by simp [accepted, hacc]
  cases i with
  | crcCalc =>
    simp only [exec, execCrcCalc, acc]
    exact crc_ends hh (.inl rfl) fun _ => rfl
  | crcAppend seed =>
    simp only [exec, execCrcAppend, acc]
    exact crc_ends hh (.inr (.inl ⟨seed, rfl⟩)) fun _ => rfl
  | crcCheck =>
    simp only [exec, execCrcCheck, acc]
    exact crc_ends hh (.inr (.inr rfl)) fun _ => rfl
  | tPreset =>
    simp only [exec, execTPreset, acc]
    exact .step (step_finish hh rfl) (.done _)
  | drop =>
    simp only [exec, execDrop, acc]
    exact .step (step_finish hh rfl) (.done _)
  | init =>
    simp only [exec, execInit, acc]
    exact (leads_after (step_release hh rfl) rfl).ends (pinRelease_from s) hh
      (fun _ => ⟨rfl, rfl, rfl, nofun⟩) fun _ _ => rfl
  | setHigh =>
    simp only [exec, execSetHigh, acc]
    exact (leads_after (step_release hh rfl) rfl).ends (pinRelease_from s) hh
      (fun _ => ⟨rfl, rfl, rfl, nofun⟩) fun _ _ => rfl
  | setLow =>
    simp only [exec, execSetLow, acc]
    have hlow : step (s.enter (Engine.start .setLow s)) = .next
        ((Engine.start .setLow s).after (pinLow s) fun _ => Engine.start .setLow s) := step_low hh rfl
    exact (leads_after hlow rfl).ends (pinLow_from s) hh
      (fun _ => ⟨rfl, rfl, rfl, nofun⟩) fun _ _ => rfl
  | isHigh =>
    simp only [exec, execIsHigh, acc]
    exact (leads_after (step_query hh rfl) rfl).ends (pinQuery_from s) hh (fun _ => ⟨rfl, rfl, rfl, nofun⟩)
      fun v t => congrArg (completeOk · 0#32 t) (placeBit_zero v)
  | isLow =>
    simp only [exec, execIsLow, acc]
    exact (leads_after (step_query hh rfl) rfl).ends (pinQuery_from s) hh (fun _ => ⟨rfl, rfl, rfl, nofun⟩)
      fun v t => congrArg (fun b => completeOk (bitByte (!b)) 0#32 t) (getLsbD_placeBit_zero v)
  | delay =>
    simp only [exec, execDelay, acc, wait_eq]
    exact .step (step_wait hh rfl) (Engine.Last.ends ⟨rfl, rfl, rfl, nofun⟩ hh)
  | rdBit =>
    simp only [exec, execRdBit, acc]
    exact (readSlot_leads hh (.inl rfl) Nat.one_pos rfl).ends (readSlot_from s) hh (fun _ => ⟨rfl, rfl, rfl, nofun⟩)
      fun v t => congrArg (completeOk · 0#32 t) (placeBit_zero v)
  | wrBit b =>
    simp only [exec, execWrBit, acc]
    exact (writeSlot_leads hh rfl rfl (fun _ => rfl) rfl Nat.one_pos rfl).ends (writeSlot_from b s) hh
      (fun _ => ⟨rfl, rfl, rfl, nofun⟩) fun _ _ => rfl
  | rdByte =>
    simp only [exec, execRdByte, acc]
    exact (readByte_leads hh (.inr (.inl rfl)) rfl Nat.one_pos rfl rfl rfl).ends (readByte_from s) hh
      (fun _ => ⟨rfl, rfl, rfl, nofun⟩) fun _ _ => rfl
  | wrByte x =>
    simp only [exec, execWrByte, acc]
    exact (writeByte_leads hh (.inl ⟨x, rfl⟩) rfl Nat.one_pos rfl rfl).ends (writeByte_from x s) hh
      (fun _ => ⟨rfl, rfl, rfl, nofun⟩) fun _ _ => rfl
  | rdBytes =>
    simp only [exec, execRdBytes, acc]
    exact readBytes_ends s.bufLen.toNat s (Engine.start .rdBytes s) hh rfl rfl rfl rfl (Nat.zero_add _)
  | wrBytes =>
    simp only [exec, execWrBytes, acc]
    exact writeBytes_ends s.bufLen.toNat s (Engine.start .wrBytes s) hh rfl rfl rfl (Nat.zero_add _)

/-- The write of a command's word to `CMD` (R86): refused as its meaning is, or latched. -/
theorem step_write_cmd (i : Instr) (s : State) :
    step { s with host := [.write .word 0x00 (encode i)] } = .next (issue (encode i) { s with host := [] }) := by
  cases hb : State.busy { s with host := [] } <;>
    simp [step, hostTurn, hostWrite, target_word, Reg.ofOffset, Reg.readOnly, writeReg, issue, hb]

theorem issue_of_refused {i : Instr} {s : State} {c : RefusalCause} (h : acceptance i s = some c) :
    issue (encode i) s = s.refusedWith c := by
  cases hb : s.busy with
  | true =>
    obtain rfl : RefusalCause.busyWrite = c := by simpa [acceptance, hb] using h
    simp [issue, hb]
  | false => simp [issue, hb, decode_encode, h]

theorem issue_of_accepted {i : Instr} {s : State} (h : acceptance i s = none) :
    issue (encode i) s = s.enter (Engine.start i s) := by
  simp [issue, State.busy_of_idle (idle_of_accepted h), decode_encode, h, latch_eq_enter]

/-- Settles O5: a refused command is refused either way, the micro-steps of an accepted one end in its outcome. -/
theorem microStepsGiveTheCommandsOutcome : Obligations.MicroStepsGiveTheCommandsOutcome := by
  intro i s
  have hends : Ends (issue (encode i) { s with host := [] }) (exec i { s with host := [] }) := by
    cases hacc : acceptance i { s with host := [] } with
    | some c => rw [exec_refused hacc, issue_of_refused hacc]; exact .done _
    | none => rw [issue_of_accepted hacc]; exact start_ends rfl hacc
  obtain ⟨k, hk⟩ := hends
  exact ⟨k, by rw [run_of_next (step_write_cmd i s), hk]⟩

end Sys2Proof.Machine
end

/-! Host accesses (R61, R63, R64, R73): the registers of the map (O49), what is refused (O51, O52), the `BUF` window (O53).
An access is legal exactly if it has a target, so each statement is about what its access reaches. -/
section
namespace Sys2Proof.Machine

/-! ### What an access reaches -/

/-- The offset of a register (R61). -/
def Reg.offset : Reg → Nat
  | .cmd => 0x00
  | .status => 0x04
  | .result => 0x08
  | .errinfo => 0x0C
  | .arg => 0x10
  | .bufAddr => 0x14
  | .bufLen => 0x18
  | .xferCnt => 0x1C
  | .tA => 0x20
  | .tB => 0x24
  | .tC => 0x28
  | .tD => 0x2C
  | .tE => 0x30
  | .tF => 0x34

/-- The registers in the order of the map. -/
def Reg.all : List Reg :=
  [.cmd, .status, .result, .errinfo, .arg, .bufAddr, .bufLen, .xferCnt, .tA, .tB, .tC, .tD, .tE, .tF]

/-- The two readings of the register map agree. -/
theorem Reg.ofOffset_eq_some_iff {a : Nat} {r : Reg} : Reg.ofOffset a = some r ↔ a = r.offset := by
  constructor
  · intro h
    unfold Reg.ofOffset at h
    split at h <;> cases h <;> rfl
  · rintro rfl
    cases r <;> rfl

/-- The map has a register at every multiple of 4 up to 0x34, and at no other offset. -/
theorem exists_reg_at_iff {a : Nat} : (∃ r, Reg.ofOffset a = some r) ↔ a % 4 = 0 ∧ a ≤ 0x34 := by
  constructor
  · rintro ⟨r, hr⟩
    rw [Reg.ofOffset_eq_some_iff.1 hr]
    cases r <;> decide
  · rintro ⟨hdvd, hle⟩
    obtain ⟨k, rfl⟩ := Nat.dvd_of_mod_eq_zero hdvd
    have hk : k ≤ 13 := by omega
    interval_cases k <;> exact ⟨_, rfl⟩

/-- The offsets of the read-only registers (R61). -/
theorem exists_readOnly_iff {a : Nat} :
    (∃ r : Reg, r.readOnly = true ∧ a = r.offset) ↔ a ∈ [0x04, 0x08, 0x0C, 0x1C] := by
  constructor
  · rintro ⟨r, hro, rfl⟩
    revert hro
    cases r <;> decide
  · intro h
    obtain rfl | rfl | rfl | rfl : a = 0x04 ∨ a = 0x08 ∨ a = 0x0C ∨ a = 0x1C := by simpa using h
    exacts [⟨.status, rfl, rfl⟩, ⟨.result, rfl, rfl⟩, ⟨.errinfo, rfl, rfl⟩, ⟨.xferCnt, rfl, rfl⟩]

/-- R64: the legal accesses are those that reach a register or a byte of the window. -/
theorem legalAccess_iff_target (p : Params) (size : AccessSize) (addr : HostAddr) :
    legalAccess p size addr ↔ ∃ t, target p size addr = some t := by
  simp only [legalAccess]
  cases size with
  | half => simp [target]
  | word => simp [target, ← exists_reg_at_iff]
  | byte =>
    by_cases h : 0x100 ≤ p.portAddr addr ∧ p.portAddr addr < 0x100 + p.bufSize <;>
      simp [target, Config.bufWindow, h]

theorem target_of_illegal {p : Params} {size : AccessSize} {addr : HostAddr} (h : ¬ legalAccess p size addr) :
    target p size addr = none :=
  Option.eq_none_iff_forall_ne_some.2 fun t ht => h ((legalAccess_iff_target p size addr).2 ⟨t, ht⟩)

/-- A register is reached by a word access at its own offset alone. -/
theorem target_eq_reg_iff {p : Params} {size : AccessSize} {addr : HostAddr} {r : Reg} :
    target p size addr = some (.reg r) ↔ size = .word ∧ p.portAddr addr = r.offset := by
  cases size with
  | half => simp [target]
  | byte => simp [target]
  | word => simp [target, Reg.ofOffset_eq_some_iff]

theorem target_offset (p : Params) (r : Reg) : target p .word r.offset = some (.reg r) :=
  target_eq_reg_iff.2 ⟨rfl, Params.portAddr_default (by cases r <;> decide)⟩

/-! ### The step that takes an access, by what it reaches -/

section
variable {s : State} {rest : List HostAction} {size : AccessSize} {addr : HostAddr} {v : Word}

theorem step_read (hhost : s.host = .read size addr :: rest) :
    step s = hostRead size addr { s with host := rest } := by
  simp only [step, hhost, hostTurn]

theorem step_write (hhost : s.host = .write size addr v :: rest) :
    step s = .next (hostWrite size addr v { s with host := rest }) := by
  simp only [step, hhost, hostTurn]

/-- R64: a refused read returns 0. -/
theorem step_read_of_no_target (hhost : s.host = .read size addr :: rest) (h : target s.params size addr = none) :
    step s = .next { { s with host := rest }.refusedWith .badAccess with hostData := 0#32 } := by
  simp only [step_read hhost, hostRead, h, refuse_eq]

/-- R61, R73: busy or not. -/
theorem step_read_reg {r : Reg} (hhost : s.host = .read size addr :: rest)
    (h : target s.params size addr = some (.reg r)) :
    step s = .next { s with host := rest, hostData := s.regWord r } := by
  have hword : State.regWord { s with host := rest } r = s.regWord r := by cases r <;> rfl
  simp only [step_read hhost, hostRead, h, hword]

/-- R63: a byte that was written. -/
theorem step_read_written {i : Nat} {b : Byte} (hhost : s.host = .read size addr :: rest)
    (h : target s.params size addr = some (.buf i)) (hb : s.readBuf i = some b) :
    step s = .next { s with host := rest, hostData := b.setWidth Config.hostDW } := by
  have hread : State.readBuf { s with host := rest } i = some b := hb
  simp only [step_read hhost, hostRead, h, hread]

/-- U6 (log 4): a byte that nothing has written. -/
theorem step_read_unwritten {i : Nat} (hhost : s.host = .read size addr :: rest)
    (h : target s.params size addr = some (.buf i)) (hb : s.readBuf i = none) :
    step s = .fault (.unwrittenBuf i) := by
  have hread : State.readBuf { s with host := rest } i = none := hb
  simp only [step_read hhost, hostRead, h, hread]

theorem step_write_of_no_target (hhost : s.host = .write size addr v :: rest) (h : target s.params size addr = none) :
    step s = .next ({ s with host := rest }.refusedWith .badAccess) := by
  simp only [step_write hhost, hostWrite, h, refuse_eq]

/-- R61, log 13: busy or not. -/
theorem step_write_readOnly {r : Reg} (hhost : s.host = .write size addr v :: rest)
    (h : target s.params size addr = some (.reg r)) (hro : r.readOnly = true) :
    step s = .next ({ s with host := rest }.refusedWith .badAccess) := by
  simp only [step_write hhost, hostWrite, h, hro, if_true, refuse_eq]

/-- R73: a write to a register that may be written, or to the window. -/
theorem step_write_busy {t : Target} (hhost : s.host = .write size addr v :: rest)
    (h : target s.params size addr = some t) (hrw : ∀ r, t = .reg r → r.readOnly = false) (hbusy : s.busy = true) :
    step s = .next ({ s with host := rest }.refusedWith .busyWrite) := by
  have hbusy' : State.busy { s with host := rest } = true := hbusy
  cases t with
  | reg r => simp [step_write hhost, hostWrite, h, hrw r rfl, hbusy']
  | buf i => simp [step_write hhost, hostWrite, h, hbusy']

/-- R63: a write to the window of an idle block. -/
theorem step_write_buf {i : Nat} (hhost : s.host = .write size addr v :: rest)
    (h : target s.params size addr = some (.buf i)) (hidle : s.engine = none) :
    step s = .next { s with host := rest, buf := s.buf.write i (v.setWidth 8) } := by
  simp [step_write hhost, hostWrite, h, hidle, State.writeBuf]

end

/-! ### The obligations -/

/-- Settles O53: the access reaches the byte at its index, and the laws of the buffer memory say the rest. -/
theorem windowByteReadsBackAsWritten : Obligations.WindowByteReadsBackAsWritten := by
  intro s rest i v hi
  have htarget : target s.params .byte (0x100 + i) = some (.buf i) := target_window hi
  refine ⟨fun hidle hhost => ⟨s.buf.write i (v.setWidth 8), step_write_buf hhost htarget hidle, ?_, fun j hj => ?_⟩,
    fun hhost => ⟨fun b hb => step_read_written hhost htarget hb, fun hnone => step_read_unwritten hhost htarget hnone⟩⟩
  · rw [Memory.read_write_same, BitVec.setWidth_eq_extractLsb' (by decide)]
  · exact Memory.read_write_other _ _ hj.symm

/-- Settles O49: the list is the register map, each offset with the word of its register. -/
theorem hostReadReturnsTheRegister : Obligations.HostReadReturnsTheRegister := by
  intro s rest off v hmem hhost
  have hmap : (off, v) ∈ Reg.all.map fun r => (r.offset, s.regWord r) := by
    simpa only [Reg.all, List.map, Reg.offset, State.regWord, State.resultWord, BitVec.setWidth_eq] using hmem
  obtain ⟨r, -, hr⟩ := List.mem_map.1 hmap
  cases hr
  exact step_read_reg hhost (target_offset s.params r)

/-- Settles O51: the access reaches nothing, or a read-only register. -/
theorem illegalAccessesAreRefused : Obligations.IllegalAccessesAreRefused := by
  intro s rest size addr v
  refine ⟨fun hill hhost => step_read_of_no_target hhost (target_of_illegal hill), fun hbad hhost => ?_⟩
  obtain hill | ⟨rfl, hro⟩ := hbad
  · exact step_write_of_no_target hhost (target_of_illegal hill)
  · obtain ⟨r, hreadOnly, hport⟩ := exists_readOnly_iff.2 hro
    exact step_write_readOnly hhost (target_eq_reg_iff.2 ⟨rfl, hport⟩) hreadOnly

/-- Settles O52: the access reaches something, and it is no read-only register. -/
theorem writesWhileBusyAreRefused : Obligations.WritesWhileBusyAreRefused := by
  intro s rest size addr v hbusy hlegal hrw hhost
  obtain ⟨t, ht⟩ := (legalAccess_iff_target _ _ _).1 hlegal
  refine step_write_busy hhost ht (fun r hr => ?_) hbusy
  subst hr
  have hport := (target_eq_reg_iff.1 ht).2
  exact Bool.eq_false_iff.2 fun hro => hrw (exists_readOnly_iff.1 ⟨r, hro, hport⟩)

end Sys2Proof.Machine
end

/-! The encoding (R80 to R89): decode and encode agree (O8), the rows of the opcode table (O9), the class of every word
(O10), written-out words (O11), assembler lines (O12); what a write to `CMD` (O13) and a command line (O3, O4) do with the
word they are given, and what a command leaves unchanged (O59). -/
section
namespace Sys2Proof

open Machine

/-! ### The fields of a word as numbers (R80) -/

theorem toNat_opcField (w : Word) : (opcField w).toNat = w.toNat % 256 := by
  simp [opcField, BitVec.extractLsb'_toNat]

theorem toNat_immField (w : Word) : (immField w).toNat = w.toNat / 256 % 256 := by
  simp [immField, BitVec.extractLsb'_toNat, Nat.shiftRight_eq_div_pow]

theorem toNat_rsvField (w : Word) : (rsvField w).toNat = w.toNat / 65536 % 65536 := by
  simp [rsvField, BitVec.extractLsb'_toNat, Nat.shiftRight_eq_div_pow]

/-- The three fields are the whole word. -/
theorem toNat_word (w : Word) :
    w.toNat = (opcField w).toNat + 256 * (immField w).toNat + 65536 * (rsvField w).toNat := by
  have hlt : w.toNat < 2 ^ 32 := w.isLt
  rw [toNat_opcField, toNat_immField, toNat_rsvField]
  omega

theorem word_eq_iff_fields {v w : Word} :
    v = w ↔ opcField v = opcField w ∧ immField v = immField w ∧ rsvField v = rsvField w := by
  constructor
  · rintro rfl
    exact ⟨rfl, rfl, rfl⟩
  · rintro ⟨hopc, himm, hrsv⟩
    rw [← BitVec.toNat_inj, toNat_word v, toNat_word w, hopc, himm, hrsv]

/-- R88: `opc | (imm8 << 8)` as a number. -/
theorem toNat_encode (i : Instr) : (encode i).toNat = i.opc.toNat + 256 * i.imm8.toNat := by
  simp [toNat_word (encode i)]

/-! ### The rows of the opcode table (R81, R82) -/

theorem opcField_and (v w : Word) : opcField (v &&& w) = opcField v &&& opcField w := BitVec.extractLsb'_and

theorem immField_and (v w : Word) : immField (v &&& w) = immField v &&& immField w := BitVec.extractLsb'_and

theorem rsvField_and (v w : Word) : rsvField (v &&& w) = rsvField v &&& rsvField w := BitVec.extractLsb'_and

/-- A mask keeps all of `opc` and `rsv`, and of `imm8` the bits the format reserves. -/
theorem Format.fields_mask (f : Format) : opcField f.mask = BitVec.allOnes 8 ∧ rsvField f.mask = BitVec.allOnes 16 := by
  cases f <;> decide

/-- The bits of `imm8` under the mask are 0 exactly for the immediates the format admits. -/
theorem Format.immField_and_mask (f : Format) (imm : Byte) :
    imm &&& immField f.mask = 0#8 ↔ f.admits imm = true := by
  revert imm
  cases f <;> decide

/-- A match word has its opcode alone. -/
theorem fields_of_match (opc : Byte) :
    opcField (opc.setWidth 32) = opc ∧ immField (opc.setWidth 32) = 0#8 ∧ rsvField (opc.setWidth 32) = 0#16 := by
  have hlt : opc.toNat < 256 := opc.isLt
  have hword : (opc.setWidth 32).toNat = opc.toNat := BitVec.toNat_setWidth_of_le (by decide)
  simp only [← BitVec.toNat_inj, toNat_opcField, toNat_immField, toNat_rsvField, hword, BitVec.toNat_ofNat]
  omega

/-- R81: a word matches a row under the mask of the row's format iff it has the row's opcode and no reserved bit. -/
theorem masked_eq_match_iff (f : Format) (opc : Byte) (w : Word) :
    w &&& f.mask = opc.setWidth 32 ↔ opcField w = opc ∧ f.admits (immField w) = true ∧ rsvField w = 0#16 := by
  obtain ⟨hopc, hrsv⟩ := f.fields_mask
  obtain ⟨hopc', himm', hrsv'⟩ := fields_of_match opc
  rw [word_eq_iff_fields, opcField_and, immField_and, rsvField_and, hopc, hrsv, hopc', himm', hrsv', BitVec.and_allOnes,
    BitVec.and_allOnes, f.immField_and_mask]

/-- R81, R85: the immediates a command's format admits, by the command's opcode. -/
theorem admits_format_iff (i : Instr) (imm : Byte) :
    i.format.admits imm = true ↔
      ¬ ((i.opc ∉ [0x11#8, 0x51#8, 0x41#8] ∧ imm ≠ 0#8) ∨ (i.opc = 0x41#8 ∧ imm.extractLsb' 1 7 ≠ 0#7)) := by
  cases i <;> simp [Instr.format, Format.admits, Instr.opc]

theorem masked_eq_opc_iff (i : Instr) (w : Word) :
    w &&& i.format.mask = i.opc.setWidth 32 ↔ opcField w = i.opc ∧ ¬ reservedBitSet w := by
  rw [masked_eq_match_iff, and_congr_right_iff]
  intro hopc
  rw [admits_format_iff, ← hopc, immField_high]
  simp only [reservedBitSet, rsvField, opcField, immField]
  tauto

/-! ### The class of a word (R85) -/

/-- The three verdicts in the order the decoder reaches them; `i` is the command only where it answers one. -/
theorem decode_verdict (w : Word) : ∃ i, decode w =
    if opcField w ∉ opcodeList then .error .illegalOpcode
    else if reservedBitSet w then .error .reservedField
    else .ok i := by
  cases hrow : opcodeRow (opcField w) (immField w) with
  | none =>
    have hmem := (opcodeRow_none _ _).1 hrow
    exact ⟨.drop, by rw [decode, hrow, if_pos hmem]⟩
  | some i =>
    have hmem : opcField w ∈ opcodeList := opcodeRow_opc hrow ▸ opc_mem i
    refine ⟨i, ?_⟩
    simp only [decode, hrow, hmem, Bool.and_eq_true, beq_iff_eq, reserved_iff hrow, ite_not, if_true]

theorem decode_eq_illegalOpcode_iff (w : Word) :
    decode w = .error .illegalOpcode ↔ opcField w ∉ opcodeList := by
  obtain ⟨i, hdec⟩ := decode_verdict w
  rw [hdec]
  split_ifs <;> simp [*]

theorem decode_eq_reservedField_iff (w : Word) :
    decode w = .error .reservedField ↔ opcField w ∈ opcodeList ∧ reservedBitSet w := by
  obtain ⟨i, hdec⟩ := decode_verdict w
  rw [hdec]
  split_ifs <;> simp_all

theorem exists_decode_eq_ok_iff (w : Word) :
    (∃ i, decode w = .ok i) ↔ opcField w ∈ opcodeList ∧ ¬ reservedBitSet w := by
  obtain ⟨i, hdec⟩ := decode_verdict w
  rw [hdec]
  split_ifs <;> simp_all

theorem decode_eq_ok_iff {w : Word} {i : Instr} : decode w = .ok i ↔ w = encode i := by
  constructor
  · exact eq_encode_of_decode
  · rintro rfl
    exact decode_encode i

/-- A word decodes to a command of a given opcode iff it has that opcode and no reserved bit. -/
theorem exists_decode_with_opc_iff (w : Word) (i : Instr) :
    (∃ j, decode w = .ok j ∧ j.opc = i.opc) ↔ opcField w = i.opc ∧ ¬ reservedBitSet w := by
  constructor
  · rintro ⟨j, hdec, hopc⟩
    rw [eq_encode_of_decode hdec]
    exact ⟨by rw [opcField_encode, hopc], not_reservedBitSet_encode j⟩
  · rintro ⟨hopc, hclear⟩
    obtain ⟨j, hdec⟩ := (exists_decode_eq_ok_iff w).2 ⟨hopc ▸ opc_mem i, hclear⟩
    refine ⟨j, hdec, ?_⟩
    rw [← hopc, eq_encode_of_decode hdec, opcField_encode]

/-! ### Assembler lines (R88, R89) -/

theorem wf_iff_of_no_operand {m : Mnemonic} (h : m.operandKind = .none) (o : Option Nat) :
    SourceLine.wf ⟨m, o⟩ = true ↔ o = none := by
  cases o <;> simp [SourceLine.wf, h]

theorem wf_iff_of_bit {m : Mnemonic} (h : m.operandKind = .bit) (o : Option Nat) :
    SourceLine.wf ⟨m, o⟩ = true ↔ o = some 0 ∨ o = some 1 := by
  cases o with
  | none => simp [SourceLine.wf, h]
  | some n =>
    simp only [SourceLine.wf, h, decide_eq_true_eq, Option.some.injEq]
    omega

theorem wf_iff_of_byte {m : Mnemonic} (h : m.operandKind = .byte) (o : Option Nat) :
    SourceLine.wf ⟨m, o⟩ = true ↔ ∃ n ≤ 255, o = some n := by
  cases o with
  | none => simp [SourceLine.wf, h]
  | some n =>
    simp only [SourceLine.wf, h, decide_eq_true_eq, Option.some.injEq, exists_eq_right']
    omega

theorem assemble_of_wf {l : SourceLine} (h : l.wf = true) :
    l.assemble = some (l.mnemonic.command (l.operand.getD 0)) := if_pos h

theorem assemble_of_byte {m : Mnemonic} {n : Nat} (h : m.operandKind = .byte) (hn : n ≤ 255) :
    SourceLine.assemble ⟨m, some n⟩ = some (m.command n) :=
  assemble_of_wf ((wf_iff_of_byte h _).2 ⟨n, hn, rfl⟩)

theorem assemble_of_not_wf {l : SourceLine} (h : l.wf = false) : l.assemble = none := by
  simp [SourceLine.assemble, h]

theorem word_of_assemble {l : SourceLine} {i : Instr} (h : l.assemble = some i) : l.word = some (encode i) := by
  rw [SourceLine.word, h, Option.map_some]

/-- R83, R88: a byte operand is `imm8` of the command it is written for. -/
theorem encode_of_byte_operand {i : Instr} {n : Nat} (hn : n ≤ 255) (himm : i.imm8 = BitVec.ofNat 8 n) :
    encode i = BitVec.ofNat 32 (i.opc.toNat + 256 * n) := by
  have hopc : i.opc.toNat < 256 := i.opc.isLt
  apply BitVec.eq_of_toNat_eq
  rw [toNat_encode, himm, BitVec.toNat_ofNat, BitVec.toNat_ofNat, Nat.mod_eq_of_lt (by omega),
    Nat.mod_eq_of_lt (show i.opc.toNat + 256 * n < 2 ^ 32 by omega)]

end Sys2Proof

namespace Sys2Proof.Machine

/-! ### Words written to `CMD` and command lines (R86, R90) -/

theorem step_write_cmd_word {s : State} {rest : List HostAction} {w : Word}
    (hhost : s.host = .write .word 0x00 w :: rest) : step s = .next (issue w { s with host := rest }) := by
  have htarget : target s.params .word 0x00 = some (.reg .cmd) := target_offset s.params .cmd
  rw [step_write hhost]
  cases hbusy : State.busy { s with host := rest } <;>
    simp [hostWrite, htarget, Reg.readOnly, writeReg, issue, hbusy]

/-- R86: a word that is no command is refused with the table's cause, as every word is while `BUSY` = 1. -/
theorem issue_of_no_command {w : Word} (s : State) (h : ∀ i, decode w ≠ .ok i) :
    ∃ c, refusalCauseOf w s = some c ∧ issue w s = s.refusedWith c := by
  obtain ⟨i, hdec⟩ := decode_verdict w
  by_cases hbusy : s.busy = true
  · exact ⟨.busyWrite, by simp [hbusy], by simp [issue, hbusy]⟩
  by_cases hmem : opcField w ∉ opcodeList
  · rw [if_pos hmem] at hdec
    refine ⟨.illegalOpcode, ?_, by simp [issue, hbusy, hdec, causeOf]⟩
    rw [refusalCauseOf, if_neg hbusy]
    exact if_pos hmem
  by_cases hres : reservedBitSet w
  · rw [if_neg hmem, if_pos hres] at hdec
    refine ⟨.reservedField, ?_, by simp [issue, hbusy, hdec, causeOf]⟩
    rw [refusalCauseOf, if_neg hbusy]
    exact (if_neg hmem).trans (if_pos hres)
  · rw [if_neg hmem, if_neg hres] at hdec
    exact absurd hdec (h i)

theorem issue_of_cause {w : Word} {s : State} {c : RefusalCause} (h : refusalCauseOf w s = some c) :
    issue w s = s.refusedWith c := by
  by_cases hcmd : ∃ i, decode w = .ok i
  · obtain ⟨i, hdec⟩ := hcmd
    obtain rfl := eq_encode_of_decode hdec
    exact issue_of_refused (refusalCauseOf_encode i s ▸ h)
  · obtain ⟨c', hc', hissue⟩ := issue_of_no_command s (not_exists.1 hcmd)
    rw [hissue, Option.some.inj (hc'.symm.trans h)]

theorem issue_of_no_cause {w : Word} {s : State} (h : refusalCauseOf w s = none) :
    ∃ i, w = encode i ∧ issue w s = s.enter (Engine.start i s) := by
  by_cases hcmd : ∃ i, decode w = .ok i
  · obtain ⟨i, hdec⟩ := hcmd
    obtain rfl := eq_encode_of_decode hdec
    exact ⟨i, rfl, issue_of_accepted (refusalCauseOf_encode i s ▸ h)⟩
  · obtain ⟨c, hc, -⟩ := issue_of_no_command s (not_exists.1 hcmd)
    rw [h] at hc
    cases hc

/-- R90: a command line runs the command it decodes to, with its polling next. -/
theorem step_call {s : State} {rest : List HostAction} {w : Word} {i : Instr} (hhost : s.host = .call w :: rest)
    (hdec : decode w = .ok i) : step s = exec i { s with host := .poll :: rest } := by
  simp only [step, hhost, hostTurn, callCommand, hdec]

theorem step_poll {s : State} {rest : List HostAction} (hhost : s.host = .poll :: rest) :
    step s = pollStatus { s with host := rest } := by
  simp only [step, hhost, hostTurn]

theorem tableWord_toNat (w : Word) : tableWord 32 w.toNat = w := by
  rw [tableWord, Nat.mod_eq_of_lt w.isLt, BitVec.ofNat_toNat, BitVec.setWidth_eq]

/-- Everything a command's next state can be: the two marks of a refusal, or a completion with a legal effect. -/
theorem exec_next_cases {i : Instr} {s t : State} (h : exec i s = .next t) :
    (∃ c, t = s.refusedWith c) ∨ ∃ c : CommandEffect, c.Legal i s ∧ t = c.apply s := by
  cases hacc : acceptance i s with
  | some c =>
    rw [exec_refused hacc] at h
    cases h
    exact .inl ⟨c, rfl⟩
  | none =>
    rcases exec_effect i s hacc with ⟨a, hfault⟩ | ⟨c, hc, hnext⟩
    · rw [hfault] at h
      cases h
    · rw [hnext] at h
      cases h
      exact .inr ⟨c, hc, rfl⟩

/-! ### The obligations -/

/-- Settles O8: by the fields of the word one way, by the opcode map the other. -/
theorem decodeAndEncodeAgree : Obligations.DecodeAndEncodeAgree := fun _ _ => decode_eq_ok_iff

/-- Settles O9: both sides say that the word has the command's opcode and no reserved bit. -/
theorem wordSelectsItsTableRow : Obligations.WordSelectsItsTableRow :=
  ⟨rfl, rfl, rfl, fun w i => (masked_eq_opc_iff i w).trans (exists_decode_with_opc_iff w i).symm⟩

/-- Settles O10: by the decoder's three verdicts. -/
theorem everyWordIsClassified : Obligations.EveryWordIsClassified := by
  refine ⟨rfl, by decide, fun w => ⟨decode_eq_illegalOpcode_iff w, decode_eq_reservedField_iff w,
    exists_decode_eq_ok_iff w⟩, fun s rest w hno hhost => ?_⟩
  obtain ⟨c, -, hissue⟩ := issue_of_no_command { s with host := rest } hno
  exact ⟨c, by rw [step_write_cmd_word hhost, hissue]⟩

/-- Settles O13: the step is the issue of the word, which does what the table of R86 says. -/
theorem acceptanceChecksAreMadeInOrder : Obligations.AcceptanceChecksAreMadeInOrder := by
  intro s rest w hhost
  rw [step_write_cmd_word hhost]
  cases hcause : refusalCauseOf w s with
  | some c => exact congrArg _ (issue_of_cause (s := { s with host := rest }) hcause)
  | none =>
    obtain ⟨i, rfl, hissue⟩ := issue_of_no_cause (s := { s with host := rest }) hcause
    obtain ⟨hcmd, harg, haddr, hlen⟩ := (Engine.start i s).arrive_same s.timing
    refine ⟨(Engine.start i s).arrive s.timing, congrArg _ hissue, ?_, ?_, harg, haddr, hlen⟩
    · rw [hcmd]
      exact (opcField_encode i).symm
    · rw [hcmd]
      exact (immField_encode i).symm

/-- Settles O59: a refusal leaves the two marks alone, and a completion's effect is legal for its command. -/
theorem frameOfEveryCommand : Obligations.FrameOfEveryCommand := by
  intro i s t hexec
  rcases exec_next_cases hexec with ⟨c, rfl⟩ | ⟨c, hc, rfl⟩
  · simp [State.refusedWith, State.readBuf]
  · refine ⟨rfl, rfl, rfl, rfl, rfl, rfl, fun hinit hdrop => ?_, fun hinit hpreset => ?_, hc.buf_same, hc.buf_outside,
      hc.low, fun hi => ?_, fun hi => ?_⟩
    · rcases hc.init with h | ⟨h, -⟩ | ⟨h, -⟩
      · exact h
      · exact absurd h hinit
      · exact absurd h hdrop
    · rcases hc.timing with h | ⟨h | h, -⟩
      · exact h
      · exact absurd h hinit
      · exact absurd h hpreset
    · simp [CommandEffect.apply, State.completedWith, State.afterOps, hc.answers hi]
    · simp [CommandEffect.apply, State.completedWith, State.afterOps, hc.events hi]

/-- Settles O3: `pollStatus` asks whether the block is busy. -/
theorem stepRunsTheDecodedCommand : Obligations.StepRunsTheDecodedCommand := by
  refine ⟨fun s rest w i => step_call, fun s rest hhost => ⟨fun hbusy => ?_, fun hidle => ?_⟩⟩
  · have hbusy' : State.busy { s with host := rest } = true := hbusy
    rw [step_poll hhost, pollStatus, if_pos hbusy', ← hhost]
    rfl
  · have hidle' : ¬ State.busy { s with host := rest } = true := by simpa [State.busy] using hidle
    rw [step_poll hhost, pollStatus, if_neg hidle']
    rfl

/-- Settles O4: the command line that is placed decodes to its command. -/
theorem fetchedWordRunsItsCommand : Obligations.FetchedWordRunsItsCommand := by
  intro s i
  refine ⟨by rw [decodeTableWord, tableWord_toNat, decode_encode], ?_⟩
  rw [State.withFetchWord, tableWord_toNat]
  exact step_call (rest := s.host) rfl (decode_encode i)

/-- Settles O11: the decoder evaluates each word. -/
theorem wordsWrittenFromTheEncoding : Obligations.WordsWrittenFromTheEncoding := by
  unfold Obligations.WordsWrittenFromTheEncoding
  decide

/-- Settles O12: by the kind of operand; the lines of the list are evaluated. -/
theorem assemblerLinesGiveTheirWords : Obligations.AssemblerLinesGiveTheirWords := by
  refine ⟨fun m o hm => ?_, fun o => wf_iff_of_bit rfl o, fun m o hm => ?_, by decide, by decide, by decide,
    fun n hn => ?_, fun n hn => ?_, fun l hl => ?_, fun l hl => ?_⟩
  · have hkind : m.operandKind = .none := by revert hm; cases m <;> decide
    exact wf_iff_of_no_operand hkind o
  · have hkind : m.operandKind = .byte := by revert hm; cases m <;> decide
    exact wf_iff_of_byte hkind o
  · have hline := assemble_of_byte (m := .crcAppend) rfl hn
    exact ⟨hline, (word_of_assemble hline).trans (congrArg some (encode_of_byte_operand hn rfl))⟩
  · have hline := assemble_of_byte (m := .wrByte) rfl hn
    exact ⟨hline, (word_of_assemble hline).trans (congrArg some (encode_of_byte_operand hn rfl))⟩
  · have hnone := assemble_of_not_wf hl
    exact ⟨hnone, by rw [SourceLine.word, hnone, Option.map_none]⟩
  · have hline := assemble_of_wf hl
    exact ⟨_, _, word_of_assemble hline, hline, decode_encode _⟩

end Sys2Proof.Machine
end

/-! The CRC-8 unit (R100 to R110): what a command of the unit does, said once for all three, and the laws of the function;
then the laws (O16), the results (O17, O18), empty input (O19) and the dependence on the operands alone (O21). -/
section
namespace Sys2Proof.Machine

/-! ### The buffer operand (R32, R66) -/

/-- The bytes of a range depend on nothing else of the memory. -/
theorem readRange_congr {m₁ m₂ : Memory} (n : Nat) : ∀ a : Nat, (∀ j < n, m₁.read (a + j) = m₂.read (a + j)) →
    readRange m₁ a n = readRange m₂ a n := by
  induction n with
  | zero => intro a _; rfl
  | succ n ih =>
    intro a h
    have hfirst : m₁.read a = m₂.read a := h 0 n.succ_pos
    have hrest : readRange m₁ (a + 1) n = readRange m₂ (a + 1) n := ih (a + 1) fun j hj => by
      simpa [Nat.add_assoc, Nat.add_comm 1 j] using h (j + 1) (Nat.succ_lt_succ hj)
    rw [readRange, readRange, hfirst, hrest]

theorem withBuffer_eq_next_iff {s t : State} {k : List Byte → State} : withBuffer s k = .next t ↔
    ∃ data, readRange s.buf s.bufAddr.toNat s.bufLen.toNat = .ok data ∧ k data = t := by
  simp only [withBuffer]
  cases readRange s.buf s.bufAddr.toNat s.bufLen.toNat <;> simp

theorem withBuffer_of_holds {s : State} {data : List Byte} (k : List Byte → State) (h : bufferHolds s data) :
    withBuffer s k = .next (k data) := by
  obtain ⟨hlen, -, hread⟩ := h
  exact withBuffer_eq_next_iff.2 ⟨data, hlen ▸ readRange_ok data _ hread, rfl⟩

theorem bufferHolds_nil {s : State} (hlen : s.bufLen = 0#32) (haddr : s.bufAddr.toNat ≤ s.params.bufSize) :
    bufferHolds s [] :=
  ⟨by simp [hlen], by simpa [hlen] using haddr, fun _ h => by simp at h⟩

/-! ### The commands of the unit (R106 to R108) -/

/-- The commands of the CRC unit (R106 to R108). -/
def OfCrcUnit (i : Instr) : Prop := i = .crcCalc ∨ i = .crcCheck ∨ ∃ seed, i = .crcAppend seed

/-- The error value with which a command of the unit completes on its checksum `c`: only `CRC.CHECK` raises one. -/
def crcError : Instr → Byte → ErrorValue
  | .crcCheck, c => if c = 0#8 then .success else .protocol (.crc c)
  | _, _ => .success

theorem completedWith_crcError_crcCheck (s : State) (c : Byte) (k : Word) :
    s.completedWith (crcError .crcCheck c) c k =
      if c = 0#8 then s.completedWith .success 0#8 k else s.completedWith (.protocol (.crc c)) c k := by
  by_cases hc : c = 0#8 <;> simp [crcError, hc]

theorem crcVerdict_eq (c : Byte) (k : Word) (s : State) :
    crcVerdict c k s = s.completedWith (crcError .crcCheck c) c k := by
  rw [completedWith_crcError_crcCheck, crcVerdict, completeOk_eq, raiseCrc_eq, complete_eq, complete_eq]

/-- Everything a command of the unit does when its range is inside `BUF`: it folds the range from its own seed. -/
theorem exec_crc {i : Instr} {s : State} (hi : OfCrcUnit i) (hidle : s.engine = none)
    (hfits : s.bufAddr.toNat + s.bufLen.toNat ≤ s.params.bufSize) :
    exec i s = withBuffer s fun data =>
      s.completedWith (crcError i (crcAppend (initialCrc i) data)) (crcAppend (initialCrc i) data) s.bufLen := by
  rcases hi with rfl | rfl | ⟨seed, rfl⟩
  · rw [exec, execCrcCalc, accepted_any_buffer _ hidle rfl hfits]
    simp only [completeOk_eq, complete_eq]
    rfl
  · rw [exec, execCrcCheck, accepted_any_buffer _ hidle rfl hfits]
    simp only [crcVerdict_eq]
    rfl
  · rw [exec, execCrcAppend, accepted_any_buffer _ hidle rfl hfits]
    simp only [completeOk_eq, complete_eq]
    rfl

theorem exec_crc_of_holds {i : Instr} {s : State} {data : List Byte} (hi : OfCrcUnit i) (hidle : s.engine = none)
    (hdata : bufferHolds s data) :
    exec i s = .next (s.completedWith (crcError i (crcAppend (initialCrc i) data)) (crcAppend (initialCrc i) data)
      s.bufLen) := by
  have ⟨_, hfits, _⟩ := hdata
  rw [exec_crc hi hidle hfits, withBuffer_of_holds _ hdata]

theorem exec_crcCalc {s : State} {data : List Byte} (hidle : s.engine = none) (hdata : bufferHolds s data) :
    exec .crcCalc s = .next (s.completedWith .success (crcCalculate data) s.bufLen) :=
  exec_crc_of_holds (.inl rfl) hidle hdata

theorem exec_crcAppend {s : State} {data : List Byte} (seed : Byte) (hidle : s.engine = none)
    (hdata : bufferHolds s data) :
    exec (.crcAppend seed) s = .next (s.completedWith .success (crcAppend seed data) s.bufLen) :=
  exec_crc_of_holds (.inr (.inr ⟨seed, rfl⟩)) hidle hdata

theorem exec_crcCheck {s : State} {data : List Byte} (hidle : s.engine = none) (hdata : bufferHolds s data) :
    exec .crcCheck s = .next (
      if crcCalculate data = 0#8 then s.completedWith .success 0#8 s.bufLen
      else s.completedWith (.protocol (.crc (crcCalculate data))) (crcCalculate data) s.bufLen) := by
  rw [← completedWith_crcError_crcCheck]
  exact exec_crc_of_holds (.inr (.inl rfl)) hidle hdata

/-- R86, check 5. -/
theorem exec_crc_of_out_of_range {i : Instr} {s : State} (hi : OfCrcUnit i) (hidle : s.engine = none)
    (hout : s.bufAddr.toNat + s.bufLen.toNat > s.params.bufSize) : exec i s = .next (s.refusedWith .bufRange) := by
  have hrange : s.bufFits = false := decide_eq_false (Nat.not_le.2 hout)
  refine exec_refused ?_
  rcases hi with rfl | rfl | ⟨seed, rfl⟩ <;> simp [acceptance, hidle, driverRefusal, driverNeed, usesBuffer, hrange]

/-! ### The laws of the function (R109) -/

/-- R109, laws 1 and 2: the byte appended must be the checksum of what stands before it. -/
theorem crcCalculate_concat_eq_zero_iff (S : List Byte) (t : Byte) :
    crcCalculate (S ++ [t]) = 0#8 ↔ t = crcCalculate S := by
  have hstep : crcCalculate (S ++ [t]) = crcByte (crcCalculate S) t := crcAppend_append _ _ _
  rw [hstep]
  exact ⟨crcByte_eq_zero, fun h => h ▸ crcByte_self _⟩

/-- A shift of a register that took in all of `x`: the serial step on bit 0 of `x`, its other bits still to come. -/
theorem crcShift_xor_eq_serialStep (c x : Byte) : crcShift (c ^^^ x) = crcSerialStep c (x.getLsbD 0) ^^^ x >>> 1 := by
  rw [crcShift, crcSerialStep, BitVec.getLsbD_xor, BitVec.ushiftRight_xor_distrib]
  split
  · rw [BitVec.xor_assoc, BitVec.xor_assoc, BitVec.xor_comm (x >>> 1)]
  · rfl

/-- R109 law 4 for the first `n` bits: those bits fed one by one, the rest of `x` left in the register. -/
theorem crcShifts_xor_eq_serial (n : Nat) : ∀ c x : Byte,
    crcShifts n (c ^^^ x) = ((List.range n).map x.getLsbD).foldl crcSerialStep c ^^^ x >>> n := by
  induction n with
  | zero => intro c x; simp [crcShifts]
  | succ n ih =>
    intro c x
    have hbits : (List.range (n + 1)).map x.getLsbD = x.getLsbD 0 :: (List.range n).map (x >>> 1).getLsbD := by
      simp [List.range_succ_eq_map, Function.comp_def, Nat.add_comm 1]
    rw [crcShifts, crcShift_xor_eq_serialStep, ih, hbits, List.foldl_cons, Nat.add_comm n 1, BitVec.shiftRight_add]

theorem crcByte_eq_serial (c b : Byte) : crcByte c b = (bitsOf b).foldl crcSerialStep c := by
  have hnone : b >>> 8 = 0#8 := BitVec.ushiftRight_eq_zero (Nat.le_refl 8)
  rw [crcByte, crcShifts_xor_eq_serial, hnone, BitVec.xor_zero]
  rfl

/-! ### The obligations -/

/-- Settles O16: laws 1 and 2 are one equivalence, law 4 the case of eight bits. -/
theorem crcLaws : Obligations.CrcLaws := by
  refine ⟨fun S => (crcCalculate_concat_eq_zero_iff S _).2 rfl,
    fun S t ht => mt (crcCalculate_concat_eq_zero_iff S t).1 ht, fun s S t hidle hdata => ?_,
    fun s S T => (crcAppend_append s S T).symm, crcByte_eq_serial, fun c b => ?_⟩
  · rw [exec_crcCheck hidle hdata]
    simp only [crcCalculate_concat_eq_zero_iff]
  · rw [crcByte, crcByte, BitVec.zero_xor]

/-- Settles O17. -/
theorem crcCommandsReturnTheChecksum : Obligations.CrcCommandsReturnTheChecksum := fun _ seed hidle =>
  ⟨fun _ hdata => ⟨exec_crcCalc hidle hdata, exec_crcAppend seed hidle hdata⟩,
    fun hout => ⟨exec_crc_of_out_of_range (.inl rfl) hidle hout,
      exec_crc_of_out_of_range (.inr (.inr ⟨seed, rfl⟩)) hidle hout⟩⟩

/-- Settles O18: a single byte is one appended to the empty sequence. -/
theorem crcCheckSucceedsIffZero : Obligations.CrcCheckSucceedsIffZero :=
  ⟨fun _ hidle => ⟨fun _ hdata => exec_crcCheck hidle hdata,
    fun hout => exec_crc_of_out_of_range (.inr (.inl rfl)) hidle hout⟩,
    fun b => crcCalculate_concat_eq_zero_iff [] b⟩

/-- Settles O19: the empty range holds no bytes. -/
theorem emptyInputGivesTheSeed : Obligations.EmptyInputGivesTheSeed := by
  refine ⟨rfl, fun _ => rfl, fun s seed hidle hlen haddr => ?_⟩
  have hdata : bufferHolds s [] := bufferHolds_nil hlen haddr
  rw [← hlen]
  exact ⟨exec_crcCalc hidle hdata, exec_crcAppend seed hidle hdata, exec_crcCheck hidle hdata⟩

/-- Settles O21: both states give the command the same bytes, and what it records is computed from these. -/
theorem crcDependsOnlyOnItsOperands : Obligations.CrcDependsOnlyOnItsOperands := by
  intro i s₁ s₂ t₁ hi hidle₁ hidle₂ haddr hlen hsame hfits₁ hfits₂ hexec
  rw [exec_crc hi hidle₁ hfits₁] at hexec
  obtain ⟨data, hread, rfl⟩ := withBuffer_eq_next_iff.1 hexec
  rw [haddr, hlen] at hread hsame hfits₂
  rw [readRange_congr _ _ hsame] at hread
  rw [exec_crc hi hidle₂ hfits₂]
  exact ⟨_, withBuffer_eq_next_iff.2 ⟨data, hread, rfl⟩, rfl, rfl, hlen.symm, rfl⟩

end Sys2Proof.Machine
end

/-! Timing configuration (R21 to R23, R122, R123): `T.PRESET` (O22) and the host's writes to `T_A..T_F` (O23). -/
section
namespace Sys2Proof.Machine

/-- The timing registers in the order of the map (R61). -/
def Reg.timing : List Reg := [.tA, .tB, .tC, .tD, .tE, .tF]

theorem Reg.readOnly_of_timing {r : Reg} (hr : r ∈ Reg.timing) : r.readOnly = false := by
  revert r
  decide

theorem Reg.offset_lt (r : Reg) : r.offset < 0x200 := by
  cases r <;> decide

/-- R122: a write to a timing register changes nothing but the durations, and what it makes of them does not depend on the
host's pending actions. -/
theorem writeReg_timing {r : Reg} (hr : r ∈ Reg.timing) (v : Word) (s : State) (rest : List HostAction) :
    writeReg r v { s with host := rest } = { s with host := rest, timing := (writeReg r v s).timing } := by
  simp only [Reg.timing, List.mem_cons, List.not_mem_nil, or_false] at hr
  rcases hr with rfl | rfl | rfl | rfl | rfl | rfl <;> rfl

/-- Settles O22: the idle block accepts a command that needs neither driver nor buffer. -/
theorem presetLoadsTheSixDurations : Obligations.PresetLoadsTheSixDurations := by
  intro s hidle
  rw [exec, execTPreset, accepted_any _ hidle rfl rfl, completeOk_eq, complete_eq]
  rfl

/-- Settles O23: the list is the timing part of the register map, each offset with the durations that a write to its
register leaves. -/
theorem timingRegisterTakesTheWrittenValue : Obligations.TimingRegisterTakesTheWrittenValue := by
  intro s rest v off t hmem hhost
  have hmap : (off, t) ∈ Reg.timing.map fun r => (r.offset, (writeReg r v s).timing) := by
    simpa only [Reg.timing, List.map, Reg.offset, writeReg, BitVec.setWidth_eq] using hmem
  obtain ⟨r, hr, heq⟩ := List.mem_map.1 hmap
  cases heq
  cases hbusy : s.busy with
  | true =>
    refine step_write_busy hhost (target_offset s.params r) (fun _ h => ?_) hbusy
    cases h
    exact Reg.readOnly_of_timing hr
  | false =>
    have hidle : s.engine = none := by simpa [State.busy] using hbusy
    rw [step_write_reg hidle hhost r.offset_lt (Reg.ofOffset_eq_some_iff.2 rfl) (Reg.readOnly_of_timing hr),
      writeReg_timing hr]
    rfl

end Sys2Proof.Machine
end

/-! Driver construction and primitives (R132 to R139): `INIT` (O25), `DROP` (O26), `SET.HIGH` (O27), `SET.LOW` (O28),
`IS.HIGH` and `IS.LOW` (O29), `DELAY` (O30). -/
section
namespace Sys2Proof.Machine

/-! ### How a primitive is refused and how it ends -/

/-- R86, check 4: the idle block without a driver refuses a command that needs one. -/
theorem exec_of_no_driver {i : Instr} {s : State} (hidle : s.engine = none) (hneed : driverNeed i = .present)
    (hinit : s.init = false) : exec i s = .next (s.refusedWith .notInit) :=
  exec_refused (by simp [acceptance, hidle, driverRefusal, hneed, hinit])

/-- R86, check 4: the idle block with a driver refuses a second `INIT`. -/
theorem exec_init_of_driver {s : State} (hidle : s.engine = none) (hinit : s.init = true) :
    exec .init s = .next (s.refusedWith .alreadyInit) :=
  exec_refused (by simp [acceptance, hidle, driverRefusal, driverNeed, hinit])

theorem completeOk_eq_completedWith (r : Byte) (k : Word) (s : State) :
    completeOk r k s = s.completedWith .success r k := complete_eq _ _ _ _

theorem PinResult.finish_ok {α : Type} (v : α) (s : State) (k : α → State → State) :
    (PinResult.ok v s).finish k = k v s := rfl

/-- R186: a `Pin` error of a primitive completes with result and count 0. -/
theorem PinResult.finish_raised {α : Type} (e : PinErr) (s : State) (k : α → State → State) :
    (PinResult.raised e s).finish k = s.completedWith (.pin e) 0#8 0#32 := complete_eq _ _ _ _

theorem PinAnswer.isOk_of_eq_ok {a : PinAnswer} {v : Bool} (h : a = .ok v) : a.isOk = true := by
  rw [h]; rfl

theorem pinQuery_level {s : State} {v : Bool} (h : s.answerAt 0 = .ok v) :
    pinQuery s = .ok v (s.afterOps 1 [.sample v] s.drvlow) := by
  rw [pinQuery_ok (PinAnswer.isOk_of_eq_ok h), h]; rfl

theorem bitByte_not (v : Bool) : bitByte (!v) = if v then 0#8 else 1#8 := by
  cases v <;> rfl

/-! ### The obligations -/

/-- Settles O25: on Ok the completion constructs the driver, on Err(e) it is never reached. -/
theorem initConstructsTheDriver : Obligations.InitConstructsTheDriver := by
  intro s hidle
  refine ⟨exec_init_of_driver hidle, fun hinit => ?_⟩
  rw [exec, execInit, accepted_init _ hidle hinit]
  cases hans : s.answerAt 0 with
  | ok v =>
    rw [pinRelease_ok (PinAnswer.isOk_of_eq_ok hans), PinResult.finish_ok, completeOk_eq_completedWith]
    rfl
  | err e => rw [pinRelease_err hans, PinResult.finish_raised]

/-- Settles O26: the body of `DROP` holds no pin micro-operation, so it does not depend on the pad's answers. -/
theorem dropReleasesTheLine : Obligations.DropReleasesTheLine := by
  intro s hidle
  refine ⟨exec_of_no_driver hidle rfl, fun hinit => ?_⟩
  rw [exec, execDrop, accepted_driver _ hidle hinit rfl rfl, completeOk_eq_completedWith]
  rfl

/-- Settles O27, by the pad's answer to the release. -/
theorem setHighReleases : Obligations.SetHighReleases := by
  intro s hidle
  refine ⟨exec_of_no_driver hidle rfl, fun hinit => ?_⟩
  rw [exec, execSetHigh, accepted_driver _ hidle hinit rfl rfl]
  cases hans : s.answerAt 0 with
  | ok v => rw [pinRelease_ok (PinAnswer.isOk_of_eq_ok hans), PinResult.finish_ok, completeOk_eq_completedWith]
  | err e => rw [pinRelease_err hans, PinResult.finish_raised]

/-- Settles O28, by the pad's answer to the pull. -/
theorem setLowPullsLow : Obligations.SetLowPullsLow := by
  intro s hidle
  refine ⟨exec_of_no_driver hidle rfl, fun hinit => ?_⟩
  rw [exec, execSetLow, accepted_driver _ hidle hinit rfl rfl]
  cases hans : s.answerAt 0 with
  | ok v => rw [pinLow_ok (PinAnswer.isOk_of_eq_ok hans), PinResult.finish_ok, completeOk_eq_completedWith]
  | err e => rw [pinLow_err hans, PinResult.finish_raised]

/-- Settles O29: both queries are one sample, and `IS.LOW` negates it before it becomes the result. -/
theorem queriesReturnTheSample : Obligations.QueriesReturnTheSample := by
  intro s hidle
  refine ⟨fun hinit => ⟨exec_of_no_driver hidle rfl hinit, exec_of_no_driver hidle rfl hinit⟩, fun hinit => ?_⟩
  rw [exec, execIsHigh, accepted_driver _ hidle hinit rfl rfl, exec, execIsLow, accepted_driver _ hidle hinit rfl rfl]
  cases hans : s.answerAt 0 with
  | ok v =>
    rw [pinQuery_level hans, PinResult.finish_ok, PinResult.finish_ok, completeOk_eq_completedWith,
      completeOk_eq_completedWith, bitByte_not]
    exact ⟨rfl, rfl⟩
  | err e =>
    rw [pinQuery_err hans, PinResult.finish_raised, PinResult.finish_raised]
    exact ⟨rfl, rfl⟩

/-- Settles O30: a wait is the one micro-operation that is no question to the pad, and its event carries its time. -/
theorem delayWaitsArg : Obligations.DelayWaitsArg := by
  intro s hidle
  refine ⟨exec_of_no_driver hidle rfl, fun hinit => ⟨?_, ?_⟩⟩
  · rw [exec, execDelay, accepted_driver _ hidle hinit rfl rfl, completeOk_eq_completedWith, wait_eq]
  · rw [← wait_eq, wait_now]

end Sys2Proof.Machine
end

/-! Bit slots (R150 to R154): `RD.BIT` (O31) and `WR.BIT` (O32) with every answer Ok, and the slot that ends at a pin
micro-operation that fails (O33). -/
section
namespace Sys2Proof.Machine

/-! ### How a slot command runs -/

/-- R86, R151: the idle block with a driver accepts `RD.BIT`, which is one read slot and its completion. -/
theorem exec_rdBit {s : State} (hidle : s.engine = none) (hinit : s.init = true) :
    exec .rdBit s = .next ((readSlot s).finish fun v s => completeOk (bitByte v) 0#32 s) := by
  rw [exec, execRdBit, accepted_driver _ hidle hinit rfl rfl]

/-- R86, R152: the idle block with a driver accepts `WR.BIT b`, which is one write slot and its completion. -/
theorem exec_wrBit {s : State} (b : Bool) (hidle : s.engine = none) (hinit : s.init = true) :
    exec (.wrBit b) s = .next ((writeSlot b s).finish fun _ s => completeOk 0#8 0#32 s) := by
  rw [exec, execWrBit, accepted_driver _ hidle hinit rfl rfl]

theorem exec_wrBit_ok {s : State} (b : Bool) (hidle : s.engine = none) (hinit : s.init = true)
    (hok : ∀ q < 2, (s.answerAt q).isOk = true) :
    exec (.wrBit b) s =
      .next ((s.afterOps 2 (writeSlotTrace s.timing b) false).completedWith .success 0#8 0#32) := by
  rw [exec_wrBit b hidle hinit, writeSlot_ok b hok, PinResult.finish_ok, completeOk_eq_completedWith]

/-- R154: `RD.BIT` ends at its first pin micro-operation that fails. -/
theorem exec_rdBit_abort {s : State} {q : Nat} {e : PinErr} (hidle : s.engine = none) (hinit : s.init = true)
    (hq : q < 3) (hok : ∀ j < q, (s.answerAt j).isOk = true) (herr : s.answerAt q = .err e) :
    exec .rdBit s = .next ((s.afterOps (q + 1) (readSlotAbort s.timing q e)
      (abortDrvlow s.drvlow 0 q)).completedWith (.pin e) 0#8 0#32) := by
  rw [exec_rdBit hidle hinit, readSlot_abort hq hok herr, PinResult.finish_raised]

/-- R154: `WR.BIT b` ends at its first pin micro-operation that fails. -/
theorem exec_wrBit_abort {s : State} {q : Nat} {e : PinErr} (b : Bool) (hidle : s.engine = none)
    (hinit : s.init = true) (hq : q < 2) (hok : ∀ j < q, (s.answerAt j).isOk = true) (herr : s.answerAt q = .err e) :
    exec (.wrBit b) s = .next ((s.afterOps (q + 1) (writeSlotAbort s.timing b q e)
      (abortDrvlow s.drvlow 0 q)).completedWith (.pin e) 0#8 0#32) := by
  rw [exec_wrBit b hidle hinit, writeSlot_abort b hq hok herr, PinResult.finish_raised]

/-! ### The obligations -/

/-- Settles O31: the sampled level of the read slot is the value the completion stores. -/
theorem readSlotReturnsTheSample : Obligations.ReadSlotReturnsTheSample := by
  intro s hidle hinit hok
  rw [exec_rdBit hidle hinit, readSlot_ok hok, PinResult.finish_ok, completeOk_eq_completedWith]
  rfl

/-- Settles O32: the two bits take one path and differ in the durations of their trace alone. -/
theorem writeSlotEncodesTheBitInItsTiming : Obligations.WriteSlotEncodesTheBitInItsTiming :=
  fun _ hidle hinit hok => ⟨exec_wrBit_ok true hidle hinit hok, exec_wrBit_ok false hidle hinit hok⟩

/-- Settles O33, by the place of the failure: the pull, the release, and (in a read slot only) the query. -/
theorem slotEndsAtTheFailingStep : Obligations.SlotEndsAtTheFailingStep := by
  intro s e hidle hinit
  refine ⟨fun hlow => ?_, fun hlow hrel => ?_, fun hlow hrel hquery => ?_⟩
  · have hbefore : ∀ j < 0, (s.answerAt j).isOk = true := by simp
    exact ⟨exec_rdBit_abort hidle hinit (by decide) hbefore hlow,
      fun b => exec_wrBit_abort b hidle hinit (by decide) hbefore hlow⟩
  · have hbefore : ∀ j < 1, (s.answerAt j).isOk = true := by simpa using hlow
    exact ⟨exec_rdBit_abort hidle hinit (by decide) hbefore hrel,
      exec_wrBit_abort true hidle hinit (by decide) hbefore hrel,
      exec_wrBit_abort false hidle hinit (by decide) hbefore hrel⟩
  · have hbefore : ∀ j < 2, (s.answerAt j).isOk = true :=
      Nat.forall_lt_succ_right.2 ⟨by simpa using hlow, hrel⟩
    exact exec_rdBit_abort hidle hinit (by decide) hbefore hquery

end Sys2Proof.Machine
end

/-! Byte transfers (R160 to R167): `RD.BYTE` (O34, O35), `WR.BYTE` (O36, O37), `RD.BYTES` (O38, O39), `WR.BYTES` (O40,
O41), the empty range (O42), the echoed byte (O45). -/
section
namespace Sys2Proof.Machine

/-! ### How a transfer command runs -/

/-- R86, R161: the idle block with a driver accepts `RD.BYTE`, which is one byte read and its completion. -/
theorem exec_rdByte {s : State} (hidle : s.engine = none) (hinit : s.init = true) :
    exec .rdByte s = .next ((readByte s).finish fun x s => completeOk x 1#32 s) := by
  rw [exec, execRdByte, accepted_driver _ hidle hinit rfl rfl]

/-- R86, R162: the idle block with a driver accepts `WR.BYTE x`, which is one byte written and its completion. -/
theorem exec_wrByte {s : State} (x : Byte) (hidle : s.engine = none) (hinit : s.init = true) :
    exec (.wrByte x) s = .next ((writeByte x s).finish fun _ s => completeOk 0#8 1#32 s) := by
  rw [exec, execWrByte, accepted_driver _ hidle hinit rfl rfl]

/-- R162: `WR.BYTE x` with every answer Ok. -/
theorem exec_wrByte_ok {s : State} (x : Byte) (hidle : s.engine = none) (hinit : s.init = true)
    (hok : ∀ q < 16, (s.answerAt q).isOk = true) : exec (.wrByte x) s =
      .next ((s.afterOps 16 (writeByteTrace s.timing x) false).completedWith .success 0#8 1#32) := by
  rw [exec_wrByte x hidle hinit, writeByte_ok x hok, PinResult.finish_ok, completeOk_eq_completedWith]

/-- R86, R163: the idle block with a driver accepts `RD.BYTES` of a range inside `BUF`. -/
theorem exec_rdBytes {s : State} (hidle : s.engine = none) (hinit : s.init = true)
    (hfits : s.bufAddr.toNat + s.bufLen.toNat ≤ s.params.bufSize) :
    exec .rdBytes s = .next (readBytes s.bufAddr.toNat s.bufLen.toNat 0 s) := by
  rw [exec, execRdBytes, accepted_driver_buffer _ hidle hinit rfl hfits]

/-- R86, R164: the idle block with a driver accepts `WR.BYTES` of a range inside `BUF`. -/
theorem exec_wrBytes {s : State} (hidle : s.engine = none) (hinit : s.init = true)
    (hfits : s.bufAddr.toNat + s.bufLen.toNat ≤ s.params.bufSize) :
    exec .wrBytes s = writeBytes s.bufAddr.toNat s.bufLen.toNat 0 s := by
  rw [exec, execWrBytes, accepted_driver_buffer _ hidle hinit rfl hfits]

/-- R186: a `Pin` error of a buffer transfer completes with the count it has reached. -/
theorem raisePin_eq_completedWith (e : PinErr) (k : Word) (s : State) :
    raisePin e k s = s.completedWith (.pin e) 0#8 k := complete_eq _ _ _ _

theorem bufLen_eq_zero_iff (s : State) : s.bufLen = 0#32 ↔ s.bufLen.toNat = 0 :=
  (BitVec.toNat_inj (y := 0#32)).symm

/-! ### Bits in the order they are sent (R65) -/

theorem length_bitsOf (x : Byte) : (bitsOf x).length = 8 := by
  rw [bitsOf, List.length_map, List.length_range]

theorem getElem?_bitsOf (x : Byte) {i : Nat} (hi : i < 8) : (bitsOf x)[i]? = some (x.getLsbD i) := by
  simp [bitsOf, hi]

theorem length_bitsOfBytes (data : List Byte) : (bitsOfBytes data).length = 8 * data.length := by
  simp [bitsOfBytes, length_bitsOf, Nat.mul_comm]

theorem writeBitsTrace_append (t : Timing) (xs ys : List Bool) :
    writeBitsTrace t (xs ++ ys) = writeBitsTrace t xs ++ writeBitsTrace t ys := List.flatMap_append

theorem writeBitsTrace_take_bitsOf (t : Timing) (x : Byte) {m : Nat} (hm : m ≤ 8) :
    writeBitsTrace t ((bitsOf x).take m) = writeSlots t x 0 m := by
  simp [writeBitsTrace, bitsOf, writeSlots, ← List.map_take, List.take_range, Nat.min_eq_left hm, List.flatMap_map]

theorem writeBitsTrace_bitsOfBytes (t : Timing) (data : List Byte) :
    writeBitsTrace t (bitsOfBytes data) = writeBytesTrace t data := List.flatMap_assoc

/-- R154: the write slots of a byte that end at the pin micro-operation `q` of its slot `m`. -/
theorem writeTraceAt_bitsOf (t : Timing) (x : Byte) {m q : Nat} (e : PinErr) (hm : m < 8) (hq : q < 2) :
    writeTraceAt t (bitsOf x) (2 * m + q) e = writeSlots t x 0 m ++ writeSlotAbort t (x.getLsbD m) q e := by
  rw [writeTraceAt, show (2 * m + q) / 2 = m by omega, show (2 * m + q) % 2 = q by omega,
    writeBitsTrace_take_bitsOf t x hm.le, getElem?_bitsOf x hm, Option.getD_some]

/-- The bits before the failing one are sent whole, whatever they belong to. -/
theorem writeTraceAt_append (t : Timing) (xs ys : List Bool) (p : Nat) (e : PinErr) :
    writeTraceAt t (xs ++ ys) (2 * xs.length + p) e = writeBitsTrace t xs ++ writeTraceAt t ys p e := by
  simp only [writeTraceAt, show (2 * xs.length + p) / 2 = xs.length + p / 2 by omega,
    show (2 * xs.length + p) % 2 = p % 2 by omega, List.take_length_add_append, writeBitsTrace_append,
    List.append_assoc, List.getElem?_append_right (Nat.le_add_right _ _), Nat.add_sub_cancel_left]

/-- The bits after the failing one are not sent. -/
theorem writeTraceAt_append_of_lt (t : Timing) {xs : List Bool} (ys : List Bool) {p : Nat} (e : PinErr)
    (hp : p < 2 * xs.length) : writeTraceAt t (xs ++ ys) p e = writeTraceAt t xs p e := by
  rw [writeTraceAt, writeTraceAt, List.take_append_of_le_length (by omega), List.getElem?_append_left (by omega)]

/-- R154: the write slots of the bytes of a buffer that end in the byte `x`, after the bytes `xs`. -/
theorem writeTraceAt_bitsOfBytes (t : Timing) (xs ys : List Byte) (x : Byte) {b q : Nat} (e : PinErr) (hb : b < 8)
    (hq : q < 2) : writeTraceAt t (bitsOfBytes (xs ++ x :: ys)) (16 * xs.length + (2 * b + q)) e =
      writeBytesTrace t xs ++ (writeSlots t x 0 b ++ writeSlotAbort t (x.getLsbD b) q e) := by
  have hbits : bitsOfBytes (xs ++ x :: ys) = bitsOfBytes xs ++ (bitsOf x ++ bitsOfBytes ys) := by
    simp [bitsOfBytes]
  have hlen : 16 * xs.length = 2 * (bitsOfBytes xs).length := by rw [length_bitsOfBytes]; omega
  rw [hbits, hlen, writeTraceAt_append, writeTraceAt_append_of_lt t _ e (by rw [length_bitsOf]; omega),
    writeTraceAt_bitsOf t x e hb hq, writeBitsTrace_bitsOfBytes]

theorem traceTime_writeSlotTrace (t : Timing) (b : Bool) : traceTime (writeSlotTrace t b) =
    if b then t.a.toNat + t.b.toNat else t.c.toNat + t.d.toNat := by
  cases b <;> simp [writeSlotTrace, Event.time]

/-- R162: a 1 takes `T_A + T_B`, a 0 takes `T_C + T_D`. -/
theorem traceTime_writeBitsTrace (t : Timing) (bits : List Bool) : traceTime (writeBitsTrace t bits) =
    bits.count true * (t.a.toNat + t.b.toNat) + bits.count false * (t.c.toNat + t.d.toNat) := by
  induction bits with
  | nil => simp [writeBitsTrace]
  | cons b bits ih =>
    have hcons : writeBitsTrace t (b :: bits) = writeSlotTrace t b ++ writeBitsTrace t bits := rfl
    rw [hcons, traceTime_append, ih, traceTime_writeSlotTrace]
    cases b <;> simp [Nat.add_mul] <;> omega

theorem traceTime_writeByteTrace (t : Timing) (x : Byte) : traceTime (writeByteTrace t x) = t.writeByteTime x := by
  have hzeros : (bitsOf x).count false = 8 - onesOf x := by
    have htotal := List.count_false_add_count_true (bitsOf x)
    rw [length_bitsOf] at htotal
    exact Nat.eq_sub_of_add_eq htotal
  rw [writeByteTrace, traceTime_writeBitsTrace, hzeros]
  rfl

/-! ### The obligations about one byte -/

/-- Settles O34, by the law of `ReadByte()`. -/
theorem readByteCollectsLsbFirst : Obligations.ReadByteCollectsLsbFirst := by
  intro s hidle hinit hok
  obtain ⟨x, hx, hread⟩ := readByte_ok hok
  exact ⟨x, hx, by rw [exec_rdByte hidle hinit, hread, PinResult.finish_ok, completeOk_eq_completedWith]⟩

/-- Settles O35: pin micro-operation `p` is the `p % 3`-th of slot `p / 3`. -/
theorem readByteEndsAtTheFailingStep : Obligations.ReadByteEndsAtTheFailingStep := by
  intro s p e hidle hinit hp hok herr
  have hsplit : 3 * (p / 3) + p % 3 = p := Nat.div_add_mod p 3
  have habort := readByte_abort (s := s) (m := p / 3) (q := p % 3) (e := e) (by omega) (by omega)
    (by rwa [hsplit]) (by rwa [hsplit])
  rw [exec_rdByte hidle hinit, habort, PinResult.finish_raised, hsplit]
  rfl

/-- Settles O36: the time of the trace is the number of 1s times `T_A + T_B` and of 0s times `T_C + T_D`. -/
theorem writeByteSendsLsbFirst : Obligations.WriteByteSendsLsbFirst := by
  intro s x hidle hinit hok
  have htrace : writeByteTrace s.timing x = (List.range 8).flatMap fun i => writeSlotTrace s.timing (x.getLsbD i) := by
    simp [writeByteTrace_eq, writeSlots]
  refine ⟨_, exec_wrByte_ok x hidle hinit hok, by rw [htrace], ?_⟩
  exact congrArg (s.now + ·) (traceTime_writeByteTrace s.timing x)

/-- Settles O37: pin micro-operation `p` is the `p % 2`-th of slot `p / 2`. -/
theorem writeByteEndsAtTheFailingStep : Obligations.WriteByteEndsAtTheFailingStep := by
  intro s x p e hidle hinit hp hok herr
  have hsplit : 2 * (p / 2) + p % 2 = p := Nat.div_add_mod p 2
  have hslot : p / 2 < 8 := by omega
  have hstep : p % 2 < 2 := by omega
  have habort := writeByte_abort (s := s) (e := e) x hslot hstep (by rwa [hsplit]) (by rwa [hsplit])
  rw [exec_wrByte x hidle hinit, habort, PinResult.finish_raised, ← writeTraceAt_bitsOf s.timing x e hslot hstep,
    hsplit]

/-- Settles O45: the bits are `bitsOf x`; a byte is determined by its bits. -/
theorem echoedByteIsReadBack : Obligations.EchoedByteIsReadBack := by
  intro x
  refine ⟨bitsOf x, length_bitsOf x, fun i hi => getElem?_bitsOf x hi, fun s hidle hinit hok => ?_,
    fun s hidle hinit hok hecho => ?_⟩
  · exact ⟨_, exec_wrByte_ok x hidle hinit hok, rfl, rfl⟩
  · obtain ⟨y, hy, hexec⟩ := readByteCollectsLsbFirst s hidle hinit hok
    have hsample : ∀ i < 8, s.sampleAt i = x.getLsbD i := by simpa [bitsOf] using hecho
    exact ⟨_, hexec, BitVec.eq_of_getLsbD_eq fun i hi => (hy i hi).trans (hsample i hi), rfl⟩

/-! ### The obligations about a buffer -/

/-- Settles O38, by the law of the loop from byte 0. -/
theorem readBytesFillsTheRange : Obligations.ReadBytesFillsTheRange := by
  intro s hidle hinit hfits hok
  obtain ⟨m, hin, hout, hread⟩ := readBytes_ok s.bufAddr.toNat s.bufLen.toNat 0 s hok
  refine ⟨m, ?_, hin, hout⟩
  rw [exec_rdBytes hidle hinit hfits, hread, completeOk_eq_completedWith, Nat.zero_add, BitVec.ofNat_toNat,
    BitVec.setWidth_eq]
  simp only [bufLen_eq_zero_iff]

/-- Settles O39: pin micro-operation `p` is the `p % 3`-th of slot `p / 3`, which is slot `p / 3 % 8` of byte
`p / 24`. -/
theorem readBytesKeepsTheBytesBeforeTheFailure : Obligations.ReadBytesKeepsTheBytesBeforeTheFailure := by
  intro s p e hidle hinit hfits hp hok herr
  have hsplit : 24 * (p / 24) + (3 * (p / 3 % 8) + p % 3) = p := by omega
  have hslot : 8 * (p / 24) + p / 3 % 8 = p / 3 := by omega
  obtain ⟨m, hin, hout, habort⟩ := readBytes_abort s.bufAddr.toNat s.bufLen.toNat 0 s (p / 24) (p / 3 % 8) (p % 3) e
    (by omega) (by omega) (by omega) (by rwa [hsplit]) (by rwa [hsplit])
  refine ⟨m, ?_, hin, hout⟩
  rw [exec_rdBytes hidle hinit hfits, habort, raisePin_eq_completedWith, Nat.zero_add, hsplit, hslot]
  rfl

/-- Settles O40, by the law of the loop from byte 0. -/
theorem writeBytesSendsTheRange : Obligations.WriteBytesSendsTheRange := by
  intro s data hidle hinit hdata hok
  obtain ⟨hlen, hfits, hread⟩ := hdata
  rw [exec_wrBytes hidle hinit hfits, ← hlen, writeBytes_ok s.bufAddr.toNat data 0 s hread hok,
    completeOk_eq_completedWith, writeBitsTrace_bitsOfBytes, Nat.zero_add, hlen, BitVec.ofNat_toNat, BitVec.setWidth_eq]

/-- Settles O41: `data` is the bytes sent whole, the byte `p / 16` that the failure is in, and bytes never reached. -/
theorem writeBytesEndsAtTheFailingStep : Obligations.WriteBytesEndsAtTheFailingStep := by
  intro s data p e hidle hinit hfits hle hread hp hok herr
  have hk : p / 16 < data.length := by omega
  have hlen : (data.take (p / 16)).length = p / 16 := List.length_take_of_le hk.le
  have hdata : data = data.take (p / 16) ++ data[p / 16] :: data.drop (p / 16 + 1) := by simp
  have hsplit : 16 * (p / 16) + (2 * (p / 2 % 8) + p % 2) = p := by omega
  have hslot : 8 * (p / 16) + p / 2 % 8 = p / 2 := by omega
  have htrace := writeTraceAt_bitsOfBytes s.timing (data.take (p / 16)) (data.drop (p / 16 + 1)) data[p / 16]
    (b := p / 2 % 8) (q := p % 2) e (by omega) (by omega)
  have habort := writeBytes_abort s.bufAddr.toNat s.bufLen.toNat (data.take (p / 16)) data[p / 16] 0 s (p / 2 % 8)
    (p % 2) e (by omega) (by omega) (by omega) (fun l hl => by rw [List.getElem_take]; exact hread l (by omega))
    (by rw [hlen]; exact hread _ hk) (by rwa [hlen, hsplit]) (by rwa [hlen, hsplit])
  rw [← hdata, hlen, hsplit] at htrace
  rw [hlen, hsplit, hslot, ← htrace, Nat.zero_add] at habort
  rw [exec_wrBytes hidle hinit hfits, habort, raisePin_eq_completedWith]

/-- Settles O42: the loop over no byte is its completion. -/
theorem zeroLengthTransfersDoNothing : Obligations.ZeroLengthTransfersDoNothing := by
  intro s hidle hinit hlen haddr
  have hfits : s.bufAddr.toNat + s.bufLen.toNat ≤ s.params.bufSize := by simpa [hlen] using haddr
  constructor
  · rw [exec_rdBytes hidle hinit hfits, hlen, ← completeOk_eq_completedWith]
    rfl
  · rw [exec_wrBytes hidle hinit hfits, hlen, ← completeOk_eq_completedWith]
    rfl

end Sys2Proof.Machine
end

/-! Transfers by their parts (R168): a sequence of command lines against the one command that does the same, reads (O43)
and writes (O44). -/
section
namespace Sys2Proof.Machine

/-! ### Command lines in sequence (R90, R168) -/

/-- The block as the driver commands without a buffer see it, and as R168 compares it: without the results of earlier
commands, `BUF` and the host's side. -/
def State.driverView (s : State) : State :=
  { s with result := 0#8, errinfo := .success, err := false, xferCnt := 0#32, buf := [], host := [], hostData := 0#32 }

theorem State.driverView_completedWith {s : State} (hidle : s.engine = none) (n : Nat) (evs : List Event) (low : Bool)
    (r : Byte) (k : Word) :
    ((s.afterOps n evs low).completedWith .success r k).driverView = s.driverView.afterOps n evs low := by
  change { s.driverView.afterOps n evs low with engine := none } = s.driverView.afterOps n evs low
  rw [← hidle]
  rfl

/-- `u` is `s` after `n` command lines of driver commands that asked the pad `ops` times in all and left `evs`. -/
def State.AfterLines (s : State) (n ops : Nat) (evs : List Event) (u : State) : Prop :=
  u.driverView = s.driverView.afterOps ops evs (if n = 0 then s.drvlow else false)

theorem State.afterLines_zero (s : State) : s.AfterLines 0 0 [] s := s.driverView.afterOps_zero.symm

/-- A transfer that completes leaves the line as its parts do, whatever it stored. -/
theorem State.afterLines_completedWith {s : State} (hidle : s.engine = none) {n ops : Nat} {evs : List Event}
    {low : Bool} (hlow : low = if n = 0 then s.drvlow else false) (m : Memory) (r : Byte) (k : Word) :
    s.AfterLines n ops evs (({ s with buf := m }.afterOps ops evs low).completedWith .success r k) := by
  subst hlow
  exact State.driverView_completedWith (s := { s with buf := m }) hidle ..

section
variable {s u : State} {n ops : Nat} {evs : List Event} (h : s.AfterLines n ops evs u)
include h

theorem State.AfterLines.timing : u.timing = s.timing := (congrArg State.timing h :)

theorem State.AfterLines.init : u.init = s.init := (congrArg State.init h :)

theorem State.AfterLines.engine : u.engine = s.engine := (congrArg State.engine h :)

theorem State.AfterLines.answerAt (k : Nat) : u.answerAt k = s.answerAt (ops + k) :=
  calc u.answerAt k = u.driverView.answerAt k := rfl
    _ = (s.driverView.afterOps ops evs _).answerAt k := by rw [h]
    _ = s.answerAt (ops + k) := State.answerAt_afterOps ..

theorem State.AfterLines.isOk {m N : Nat} (hok : ∀ q < N, (s.answerAt q).isOk = true) (hle : ops + m ≤ N) :
    ∀ q < m, (u.answerAt q).isOk = true := fun q hq => by
  rw [h.answerAt]
  exact hok _ (by omega)

/-- R168: two ways to the same lines leave the same trace, time and line. -/
theorem State.AfterLines.sameLine {t : State} (ht : s.AfterLines n ops evs t) :
    u.trace = t.trace ∧ u.now = t.now ∧ u.drvlow = t.drvlow :=
  have hview : u.driverView = t.driverView := h.trans ht.symm
  ⟨(congrArg State.trace hview :), (congrArg State.now hview :), (congrArg State.drvlow hview :)⟩

/-- One more line whose command completes. -/
theorem State.AfterLines.succ (hidle : s.engine = none) (m : Nat) (evs' : List Event) (r : Byte) (k : Word) :
    s.AfterLines (n + 1) (ops + m) (evs ++ evs') ((u.afterOps m evs' false).completedWith .success r k) := by
  rw [State.AfterLines, State.driverView_completedWith (h.engine.trans hidle), h, State.afterOps_afterOps]
  rfl

end

theorem run_add_of_next {k : Nat} (m : Nat) : ∀ {s t : State}, Host.Core.run Sys2Proof.core k s = .next t →
    Host.Core.run Sys2Proof.core (k + m) s = Host.Core.run Sys2Proof.core m t := by
  induction k with
  | zero =>
    intro s t h
    cases h
    rw [Nat.zero_add]
  | succ k ih =>
    intro s t h
    rw [run_succ] at h
    rw [Nat.add_right_comm, run_succ]
    cases hstep : step s with
    | next s' => rw [hstep] at h; exact ih h
    | fault r => rw [hstep] at h; cases h
    | refused r => rw [hstep] at h; cases h

/-- R90: a command line whose command leaves the block idle takes two steps, the command and one poll. -/
theorem run_commandLine {s t : State} {i : Instr} {rest : List HostAction} (hhost : s.host = .call (encode i) :: rest)
    (hexec : exec i { s with host := .poll :: rest } = .next t) (hidle : t.engine = none)
    (hrest : t.host = .poll :: rest) :
    Host.Core.run Sys2Proof.core 2 s = .next { t with host := rest, hostData := t.statusWord } := by
  have hpoll : step t = .next { t with host := rest, hostData := t.statusWord } := by
    rw [step_poll hrest, pollStatus, if_neg (by simp [State.busy, hidle])]
    rfl
  rw [run_of_next ((step_call hhost (decode_encode i)).trans hexec), run_of_next hpoll]
  rfl

/-- The host's side of a sequence of command lines. -/
def commandLines (cmds : List Instr) : List HostAction := cmds.map fun i => .call (encode i)

/-- Line `n` of a sequence of lines that ask the pad `m` times each: the command `i` completes, the trace of the lines
so far goes from `evs` to `evs'`, and the result is one of `Result`. -/
def State.LineCompletes (s : State) (n m : Nat) (evs evs' : List Event) (Result : Byte → Prop) (i : Instr) : Prop :=
  ∀ u, s.AfterLines n (m * n) evs u → ∃ new r k, evs' = evs ++ new ∧ Result r ∧
    exec i u = .next ((u.afterOps m new false).completedWith .success r k)

/-- R90, R168: command lines that complete, run one after the other: `tr n` is the trace of the first `n` of them. -/
theorem run_commandLines {s : State} {cmds : List Instr} {m : Nat} {tr : Nat → List Event}
    {Result : Nat → Byte → Prop} (hhost : s.host = commandLines cmds) (hidle : s.engine = none)
    (hstart : tr 0 = [])
    (hline : ∀ n (hn : n < cmds.length), s.LineCompletes n m (tr n) (tr (n + 1)) (Result n) cmds[n])
    (n : Nat) : n ≤ cmds.length → ∃ u, Host.Core.run Sys2Proof.core (2 * n) s = .next u ∧
      u.host = commandLines (cmds.drop n) ∧ s.AfterLines n (m * n) (tr n) u ∧
      (0 < n → Result (n - 1) u.result) := by
  induction n with
  | zero => exact fun _ => ⟨s, rfl, hhost, hstart ▸ s.afterLines_zero, fun h => absurd h (Nat.lt_irrefl 0)⟩
  | succ n ih =>
    intro hn
    obtain ⟨u, hrun, hleft, hafter, -⟩ := ih (Nat.le_of_succ_le hn)
    have hnext : u.host = .call (encode cmds[n]) :: commandLines (cmds.drop (n + 1)) := by
      rw [hleft, List.drop_eq_getElem_cons hn]
      rfl
    obtain ⟨new, r, k, htr, hresult, hexec⟩ :=
      hline n hn { u with host := .poll :: commandLines (cmds.drop (n + 1)) } hafter
    have hlast := run_commandLine hnext hexec rfl rfl
    exact ⟨_, (run_add_of_next 2 hrun).trans hlast, rfl, htr ▸ hafter.succ hidle m new r k, fun _ => hresult⟩

/-! ### Reads by parts -/

/-- The command `i` is `b` read slots, and `Result` is what its result has to do with their samples. -/
def ReadsSlots (i : Instr) (b : Nat) (Result : (Nat → Bool) → Byte → Prop) : Prop :=
  ∀ u : State, u.engine = none → u.init = true → (∀ q < 3 * b, (u.answerAt q).isOk = true) →
    ∃ r k, Result u.sampleAt r ∧
      exec i u = .next ((u.afterOps (3 * b) (u.readSlots b) false).completedWith .success r k)

theorem rdByte_readsSlots : ReadsSlots .rdByte 8 fun sample r => ∀ i < 8, r.getLsbD i = sample i := by
  intro u hidle hinit hok
  obtain ⟨x, hx, hexec⟩ := readByteCollectsLsbFirst u hidle hinit hok
  exact ⟨x, _, hx, hexec⟩

theorem rdBit_readsSlots : ReadsSlots .rdBit 1 fun sample r => r = if sample 0 then 1#8 else 0#8 :=
  fun u hidle hinit hok => ⟨_, _, rfl, readSlotReturnsTheSample u hidle hinit hok⟩

theorem State.AfterLines.sampleAt {s u : State} {n c : Nat} {evs : List Event} (h : s.AfterLines n (3 * c) evs u) :
    u.sampleAt = fun k => s.sampleAt (c + k) :=
  funext fun k => by rw [State.sampleAt, h.answerAt, State.sampleAt, Nat.mul_add, Nat.add_assoc]

theorem State.AfterLines.readSlots {s u : State} {n c : Nat} {evs : List Event} (h : s.AfterLines n (3 * c) evs u)
    (b : Nat) : s.readSlots (c + b) = s.readSlots c ++ u.readSlots b := by
  rw [State.readSlots, State.readSlots, State.readSlots, List.range_add, List.flatMap_append, List.flatMap_map,
    h.sampleAt, h.timing]

theorem ReadsSlots.lineCompletes {i : Instr} {b : Nat} {Result : (Nat → Bool) → Byte → Prop}
    (hi : ReadsSlots i b Result) {s : State} {n : Nat} (hidle : s.engine = none) (hinit : s.init = true)
    (hok : ∀ q < 3 * b * (n + 1), (s.answerAt q).isOk = true) :
    s.LineCompletes n (3 * b) (s.readSlots (b * n)) (s.readSlots (b * (n + 1)))
      (Result fun k => s.sampleAt (b * n + k)) i := by
  intro u hu
  obtain ⟨r, k, hresult, hexec⟩ := hi u (hu.engine.trans hidle) (hu.init.trans hinit) (hu.isOk hok le_rfl)
  rw [Nat.mul_assoc] at hu
  exact ⟨_, r, k, hu.readSlots b, hu.sampleAt ▸ hresult, hexec⟩

/-- R168: `n` command lines of a command of `b` read slots are `b * n` read slots. -/
theorem run_readLines {i : Instr} {b : Nat} {Result : (Nat → Bool) → Byte → Prop} (hi : ReadsSlots i b Result)
    {s : State} (n : Nat) (hidle : s.engine = none) (hinit : s.init = true)
    (hok : ∀ q < 3 * b * n, (s.answerAt q).isOk = true) : ∃ u,
      Host.Core.run Sys2Proof.core (2 * n) { s with host := List.replicate n (.call (encode i)) } = .next u ∧
      s.AfterLines n (3 * b * n) (s.readSlots (b * n)) u ∧
      (0 < n → Result (fun k => s.sampleAt (b * (n - 1) + k)) u.result) := by
  have hline : ∀ j (hj : j < (List.replicate n i).length), s.LineCompletes j (3 * b) (s.readSlots (b * j))
      (s.readSlots (b * (j + 1))) (Result fun k => s.sampleAt (b * j + k)) (List.replicate n i)[j] := by
    intro j hj
    rw [List.getElem_replicate]
    rw [List.length_replicate] at hj
    exact hi.lineCompletes hidle hinit fun q hq => hok q (hq.trans_le (Nat.mul_le_mul_left _ hj))
  obtain ⟨u, hrun, -, hafter, hresult⟩ := run_commandLines
    (s := { s with host := List.replicate n (.call (encode i)) })
    (Result := fun j => Result fun k => s.sampleAt (b * j + k)) (by simp [commandLines]) hidle rfl hline n
    List.length_replicate.ge
  exact ⟨u, hrun, hafter, hresult⟩

/-! ### Writes by parts -/

/-- The command `i` sends `bits`. -/
def SendsBits (i : Instr) (bits : List Bool) : Prop :=
  ∀ u : State, u.engine = none → u.init = true → (∀ q < 2 * bits.length, (u.answerAt q).isOk = true) →
    ∃ k, exec i u =
      .next ((u.afterOps (2 * bits.length) (writeBitsTrace u.timing bits) false).completedWith .success 0#8 k)

theorem wrByte_sendsBits (x : Byte) : SendsBits (.wrByte x) (bitsOf x) :=
  fun _ hidle hinit hok => ⟨_, exec_wrByte_ok x hidle hinit hok⟩

theorem wrBit_sendsBits (b : Bool) : SendsBits (.wrBit b) [b] := by
  intro u hidle hinit hok
  refine ⟨0#32, ?_⟩
  rw [exec_wrBit_ok b hidle hinit hok, writeBitsTrace, List.flatMap_singleton]
  rfl

theorem SendsBits.lineCompletes {i : Instr} {bits : List Bool} (hi : SendsBits i bits) {s : State} {n : Nat}
    (sent : List Bool) (hidle : s.engine = none) (hinit : s.init = true)
    (hok : ∀ q < 2 * bits.length * (n + 1), (s.answerAt q).isOk = true) :
    s.LineCompletes n (2 * bits.length) (writeBitsTrace s.timing sent) (writeBitsTrace s.timing (sent ++ bits))
      (fun _ => True) i := by
  intro u hu
  obtain ⟨k, hexec⟩ := hi u (hu.engine.trans hidle) (hu.init.trans hinit) (hu.isOk hok le_rfl)
  exact ⟨_, _, k, writeBitsTrace_append .., trivial, hu.timing ▸ hexec⟩

/-- R168: command lines of commands that send `b` bits each send the bits of all in order. -/
theorem run_writeLines {α : Type} {cmd : α → Instr} {bits : α → List Bool} {b : Nat}
    (hlen : ∀ x, (bits x).length = b) (hcmd : ∀ x, SendsBits (cmd x) (bits x)) {s : State} (data : List α)
    (hidle : s.engine = none) (hinit : s.init = true) (hok : ∀ q < 2 * b * data.length, (s.answerAt q).isOk = true) : ∃ u,
      Host.Core.run Sys2Proof.core (2 * data.length) { s with host := data.map fun x => .call (encode (cmd x)) } =
        .next u ∧
      s.AfterLines data.length (2 * b * data.length) (writeBitsTrace s.timing (data.flatMap bits)) u := by
  have hline : ∀ j (hj : j < (data.map cmd).length),
      s.LineCompletes j (2 * b) (writeBitsTrace s.timing ((data.take j).flatMap bits))
        (writeBitsTrace s.timing ((data.take (j + 1)).flatMap bits)) (fun _ => True) (data.map cmd)[j] := by
    intro j hj
    rw [List.length_map] at hj
    rw [List.getElem_map, List.take_succ_eq_append_getElem hj, List.flatMap_append, List.flatMap_singleton,
      ← hlen data[j]]
    refine (hcmd data[j]).lineCompletes _ hidle hinit fun q hq => hok q (hq.trans_le ?_)
    rw [hlen]
    exact Nat.mul_le_mul_left _ hj
  obtain ⟨u, hrun, -, hafter, -⟩ := run_commandLines
    (s := { s with host := data.map fun x => .call (encode (cmd x)) }) (by simp [commandLines]) hidle rfl hline
    data.length (List.length_map _).ge
  rw [List.take_length] at hafter
  exact ⟨u, hrun, hafter⟩

/-! ### The obligations -/

/-- Settles O43: both sides are the same read slots from the same answers. -/
theorem readTransfersEqualTheirParts : Obligations.ReadTransfersEqualTheirParts := by
  refine ⟨fun s hidle hinit hfits hok => ?_, fun s hidle hinit hok => ?_⟩
  · obtain ⟨m, hexec, hin, -⟩ := readBytesFillsTheRange s hidle hinit hfits hok
    refine ⟨_, hexec, fun n hn => ?_⟩
    obtain ⟨u, hrun, hafter, hresult⟩ := run_readLines rdByte_readsSlots n hidle hinit fun q hq => hok q (by omega)
    refine ⟨u, hrun, fun hpos => ?_, fun hall => ?_⟩
    · obtain ⟨x, hread, hx⟩ := hin (n - 1) (by omega)
      have hbyte : x = u.result := BitVec.eq_of_getLsbD_eq fun i hi => (hx i hi).trans (hresult hpos i hi).symm
      rw [← hbyte]
      exact hread
    · subst hall
      exact hafter.sameLine (State.afterLines_completedWith hidle (by simp only [bufLen_eq_zero_iff]) ..)
  · obtain ⟨x, hx, hexec⟩ := readByteCollectsLsbFirst s hidle hinit hok
    refine ⟨_, hexec, fun n hn => ?_⟩
    obtain ⟨u, hrun, hafter, hresult⟩ := run_readLines rdBit_readsSlots n hidle hinit fun q hq => hok q (by omega)
    refine ⟨u, hrun, fun hpos => ?_, fun hall => ?_⟩
    · have hbit : u.result = if s.sampleAt (n - 1) then 1#8 else 0#8 := by simpa using hresult hpos
      rw [hbit, ← hx (n - 1) (by omega)]
      rfl
    · subst hall
      exact hafter.sameLine (State.afterLines_completedWith hidle rfl ..)

/-- Settles O44: both sides are the same write slots. -/
theorem writeTransfersEqualTheirParts : Obligations.WriteTransfersEqualTheirParts := by
  refine ⟨fun s data hidle hinit hdata hok => ?_, fun s x hidle hinit hok => ?_⟩
  · obtain ⟨u, hrun, hafter⟩ := run_writeLines length_bitsOf wrByte_sendsBits data hidle hinit hok
    refine ⟨_, u, writeBytesSendsTheRange s data hidle hinit hdata hok, hrun, hafter.sameLine ?_⟩
    exact State.afterLines_completedWith hidle (by simp only [List.length_eq_zero_iff]) ..
  · obtain ⟨u, hrun, hafter⟩ := run_writeLines (bits := fun b => [b]) (fun _ => rfl) wrBit_sendsBits (bitsOf x)
      hidle hinit (by rwa [length_bitsOf])
    rw [length_bitsOf] at hrun hafter
    rw [List.flatMap_singleton'] at hafter
    refine ⟨_, u, exec_wrByte_ok x hidle hinit hok, hrun, hafter.sameLine ?_⟩
    exact State.afterLines_completedWith hidle rfl ..

end Sys2Proof.Machine
end

/-! Refusals and errors (R181 to R190): the refusal marks (O15), what an accepted command line ends by (O14) and with which
error (O60). -/
section
namespace Sys2Proof.Machine

/-! ### The refusal marks (R189) -/

/-- The refusal marks of `t` are those of `s`. -/
def State.SameMarks (s t : State) : Prop := t.hosterr = s.hosterr ∧ t.hcause = s.hcause

theorem CommandEffect.apply_sameMarks (c : CommandEffect) (s : State) : s.SameMarks (c.apply s) := ⟨rfl, rfl⟩

/-- R189: a refusal after the first leaves the marks as they are. -/
theorem State.refusedWith_sameMarks {s : State} (c : RefusalCause) (hmark : s.hosterr = true)
    (hcause : s.hcause ≠ none) : s.SameMarks (s.refusedWith c) :=
  ⟨hmark.symm, if_neg hcause⟩

theorem finishCommand_sameMarks (e : Engine) (s : State) : s.SameMarks (finishCommand e s) := by
  obtain ⟨_, _, _, _, _, _, _, heq, -⟩ := finishCommand_spec e s
  rw [heq]
  exact ⟨rfl, rfl⟩

theorem moveOn_sameMarks (e : Engine) (s : State) : s.SameMarks (moveOn e s) := by
  obtain ⟨_, _, heq⟩ := moveOn_any e s
  rw [heq]
  exact ⟨rfl, rfl⟩

/-- Settles O15: by the ways a step goes on; of those only a refusal writes the marks, and `rst`. -/
theorem firstRefusalCauseIsKept : Obligations.FirstRefusalCauseIsKept := by
  intro s t hnoreset hstep hmark hcause
  obtain ⟨hsameMark, hsameCause⟩ : s.SameMarks t := by
    cases steps_of_step hstep with
    | observed | latched | stored | operands | timing | failed => exact ⟨rfl, rfl⟩
    | refused c => exact State.refusedWith_sameMarks c hmark hcause
    | command => exact CommandEffect.apply_sameMarks _ _
    | reset hhost => exact absurd hhost (hnoreset _)
    | finished => exact finishCommand_sameMarks _ _
    | wentOn => exact moveOn_sameMarks _ _
  exact ⟨hsameMark.trans hmark, hsameCause⟩

/-! ### Command lines (R190) -/

/-- A command line whose word is no command does no more than the bare write of the word. -/
theorem callCommand_of_no_command {w : Word} (s : State) (h : ∀ i, decode w ≠ .ok i) :
    callCommand w s = .next (issue w s) := by
  cases hdec : decode w with
  | ok i => exact absurd hdec (h i)
  | error d => cases hbusy : s.busy <;> simp [callCommand, issue, hdec, hbusy]

theorem callCommand_of_cause {w : Word} {s : State} {c : RefusalCause} (h : refusalCauseOf w s = some c) :
    callCommand w s = .next (s.refusedWith c) := by
  by_cases hcmd : ∃ i, decode w = .ok i
  · obtain ⟨i, hdec⟩ := hcmd
    obtain rfl := eq_encode_of_decode hdec
    rw [callCommand, hdec]
    exact exec_refused (refusalCauseOf_encode i s ▸ h)
  · rw [callCommand_of_no_command s (not_exists.1 hcmd), issue_of_cause h]

theorem step_call_line {s : State} {rest : List HostAction} {w : Word} (hhost : s.host = .call w :: rest) :
    step s = callCommand w { s with host := .poll :: rest } := by
  simp only [step, hhost, hostTurn]

/-- A command that the table of R86 accepts and that goes on ends by a completion with a legal effect. -/
theorem effect_of_no_cause {i : Instr} {s t : State} (hcause : refusalCauseOf (encode i) s = none)
    (h : exec i s = .next t) : ∃ c : CommandEffect, c.Legal i s ∧ t = c.apply s := by
  rcases exec_effect i s (refusalCauseOf_encode i s ▸ hcause) with ⟨_, hfault⟩ | ⟨c, hc, hnext⟩
  · rw [hfault] at h; cases h
  · rw [hnext] at h; cases h
    exact ⟨c, hc, rfl⟩

/-- Settles O14: the bare write and the command line refuse with the table's cause; an accepted line runs the command. -/
theorem refusalsAndErrorsNeverMix : Obligations.RefusalsAndErrorsNeverMix := by
  intro s t rest w hstep
  refine ⟨fun hhost c hc => ?_, fun hhost c hc => ?_, fun hhost hc => ?_⟩
  · rw [step_write_cmd_word hhost, issue_of_cause (s := { s with host := rest }) hc] at hstep
    cases hstep; rfl
  · rw [step_call_line hhost, callCommand_of_cause (s := { s with host := .poll :: rest }) hc] at hstep
    cases hstep; rfl
  · obtain ⟨i, rfl, -⟩ := issue_of_no_cause hc
    rw [step_call hhost (decode_encode i)] at hstep
    obtain ⟨c, hlegal, rfl⟩ := effect_of_no_cause (s := { s with host := .poll :: rest }) hc hstep
    refine ⟨_, c.error, c.result, c.count, rfl, rfl, rfl, ?_⟩
    cases herr : c.error with
    | success => trivial
    | pin e => exact hlegal.pin_result e herr
    | protocol p =>
      have hcrc := hlegal.error
      rw [herr] at hcrc
      obtain ⟨-, x, hx, rfl, hresult⟩ := hcrc
      rw [hresult]
      exact ⟨rfl, hx, hlegal.protocol_count _ herr⟩

/-! ### The error reported (R188) -/

theorem CommandEffect.apply_errinfo (c : CommandEffect) (s : State) : (c.apply s).errinfo = c.error := rfl

theorem CommandEffect.apply_padOps (c : CommandEffect) (s : State) : (c.apply s).padOps = s.padOps + c.answers := rfl

/-- R182: a command that asks the pad at least once is none of those without a pin micro-operation. -/
theorem CommandEffect.Legal.asks {c : CommandEffect} {i : Instr} {s : State} (hc : c.Legal i s) (h : c.answers ≠ 0) :
    i ∉ [.drop, .delay, .tPreset, .crcCalc, .crcCheck] ∧ ∀ seed, i ≠ .crcAppend seed := by
  refine ⟨fun hmem => h (hc.answers (.inl ?_)), fun seed hi => h (hc.answers (.inr ⟨seed, hi⟩))⟩
  simp only [List.mem_cons, List.not_mem_nil, or_false] at hmem ⊢
  tauto

/-- Settles O60: by the error of the effect. -/
theorem everyErrorIsPinOrCrc : Obligations.EveryErrorIsPinOrCrc := by
  intro i s t hcause hexec
  obtain ⟨c, hc, rfl⟩ := effect_of_no_cause hcause hexec
  have herror := hc.error
  rw [CommandEffect.apply_errinfo, CommandEffect.apply_padOps]
  cases herr : c.error with
  | success =>
    rw [herr] at herror
    exact fun p hp => herror p (Nat.lt_of_add_lt_add_left hp)
  | pin e =>
    rw [herr] at herror
    obtain ⟨q, hq, hans, hbefore⟩ := herror
    exact ⟨q, by rw [hq, Nat.add_assoc], hans, hbefore, hc.asks (by omega)⟩
  | protocol p =>
    rw [herr] at herror
    obtain ⟨rfl, x, hx, rfl, hresult⟩ := herror
    exact ⟨rfl, x, hx, rfl, hresult⟩

end Sys2Proof.Machine
end

/-! The `ERRINFO` word (R30, R181, R183), obligation O48: its fields stand apart, so the word gives the value back. -/
section
namespace Sys2Proof.Machine

/-! ### The fields of the word (R30) -/

/-- A field of a register word is read back at its bits. -/
theorem extractLsb'_fieldAt {w : Nat} (v : BitVec w) {lo : Nat} (h : lo + w ≤ 32) :
    (fieldAt v lo).extractLsb' lo w = v := by
  ext j hj
  rw [BitVec.getElem_extractLsb', getLsbD_fieldAt, decide_eq_true (show lo + j < 32 by omega),
    decide_eq_true (Nat.le_add_right lo j), Nat.add_sub_cancel_left, BitVec.getLsbD_eq_getElem hj, Bool.true_and,
    Bool.true_and]

/-- Bits beside a field are 0. -/
theorem extractLsb'_fieldAt_of_disjoint {w : Nat} (v : BitVec w) {lo lo' n : Nat}
    (h : lo' + n ≤ lo ∨ lo + w ≤ lo') : (fieldAt v lo).extractLsb' lo' n = 0#n := by
  ext j hj
  rw [BitVec.getElem_extractLsb', getLsbD_fieldAt, BitVec.getElem_zero]
  rcases h with h | h
  · rw [decide_eq_false (show ¬ lo ≤ lo' + j by omega), Bool.false_and, Bool.and_false]
  · rw [BitVec.getLsbD_of_ge v _ (by omega), Bool.and_false, Bool.and_false]

@[simp] theorem ErrorValue.extract_kind (v : ErrorValue) : v.word.extractLsb' 0 2 = v.kind := by
  simp [ErrorValue.word, BitVec.extractLsb'_or, extractLsb'_fieldAt, extractLsb'_fieldAt_of_disjoint]

@[simp] theorem ErrorValue.extract_pcode (v : ErrorValue) : v.word.extractLsb' 4 4 = v.pcode := by
  simp [ErrorValue.word, BitVec.extractLsb'_or, extractLsb'_fieldAt, extractLsb'_fieldAt_of_disjoint]

@[simp] theorem ErrorValue.extract_payload (v : ErrorValue) : v.word.extractLsb' 8 8 = v.payload := by
  simp [ErrorValue.word, BitVec.extractLsb'_or, extractLsb'_fieldAt, extractLsb'_fieldAt_of_disjoint]

@[simp] theorem ErrorValue.extract_pinerr (v : ErrorValue) : v.word.extractLsb' 16 Config.pinErrRoom = v.pinerr := by
  have hfield := extractLsb'_fieldAt v.pinerr (lo := 16) (by decide)
  simp [ErrorValue.word, BitVec.extractLsb'_or, hfield, extractLsb'_fieldAt_of_disjoint]

theorem ErrorValue.word_pin (e : PinErr) : (ErrorValue.pin e).word = 0x01#32 ||| e.setWidth 32 <<< 16 :=
  congrArg (· ||| fieldAt e 16) (by decide : fieldAt 1#2 0 ||| fieldAt 0#4 4 ||| fieldAt 0#8 8 = 0x01#32)

/-- A protocol error has no pin code; its `KIND` and `PCODE` make the low byte. -/
theorem ErrorValue.word_protocol (p : ProtocolError) (code : BitVec 4) {low : Word} (hcode : p.code = code)
    (hlow : fieldAt 2#2 0 ||| fieldAt code 4 = low) :
    (ErrorValue.protocol p).word = low ||| p.payload.setWidth 32 <<< 8 := by
  have hpin : fieldAt 0#Config.pinErrRoom 16 = 0#32 := by decide
  rw [← hlow, ← hcode, ErrorValue.word, ErrorValue.pinerr, hpin, BitVec.or_zero]
  rfl

/-! ### Reading the word back (R181, U9) -/

/-- The value's pin code, if any, has `PIN_ERR_W` bits (R181). -/
def ErrorValue.Fits (v : ErrorValue) (p : Params) : Prop := v.pinerr.toNat < 2 ^ p.pinErrW.val

theorem ErrorValue.fits_of_pinerr_zero {v : ErrorValue} (p : Params) (h : v.pinerr = 0#Config.pinErrRoom) : v.Fits p := by
  rw [ErrorValue.Fits, h]
  exact Nat.two_pow_pos _

theorem ErrorValue.ofWord_word {v : ErrorValue} {p : Params} (h : v.Fits p) : ErrorValue.ofWord p v.word = some v := by
  rw [ErrorValue.ofWord, extract_kind, extract_pcode, extract_payload, extract_pinerr]
  cases v with
  | success => simp [ErrorValue.kind]
  | pin e => simp [ErrorValue.kind, ErrorValue.pinerr, Params.pinCode_of_lt (p := p) (e := e) h]
  | protocol x =>
    cases x <;>
      simp [ErrorValue.kind, ErrorValue.pcode, ProtocolError.code, ErrorValue.payload, ProtocolError.payload]

/-- What is read back is a value whose word it is, and of the code no more than `PIN_ERR_W` bits are read. -/
theorem ErrorValue.of_ofWord {p : Params} {w : Word} {v : ErrorValue} (h : ErrorValue.ofWord p w = some v) :
    w = v.word ∧ v.Fits p := by
  obtain ⟨hread, hword⟩ := Option.filter_eq_some_iff.1 h
  refine ⟨(beq_iff_eq.1 hword).symm, ?_⟩
  split at hread <;> cases hread
  case h_2 => exact p.pinCode_lt _
  all_goals exact ErrorValue.fits_of_pinerr_zero p rfl

theorem ErrorValue.ofWord_eq_some_iff {p : Params} {w : Word} {v : ErrorValue} :
    ErrorValue.ofWord p w = some v ↔ w = v.word ∧ v.Fits p :=
  ⟨ErrorValue.of_ofWord, fun ⟨hw, hv⟩ => hw ▸ ErrorValue.ofWord_word hv⟩

/-- A block whose port carries every code that `ERRINFO` has room for (R30, D6). -/
def Params.widest : Params := { Params.default with pinErrW := Fin.last Config.pinErrRoom }

theorem ErrorValue.fits_widest (v : ErrorValue) : v.Fits Params.widest := v.pinerr.isLt

/-- With room for every code each value is read back from its word. -/
theorem ErrorValue.word_injective : Function.Injective ErrorValue.word := by
  intro v w h
  apply Option.some.inj
  calc some v = ErrorValue.ofWord Params.widest v.word := (ErrorValue.ofWord_word v.fits_widest).symm
    _ = ErrorValue.ofWord Params.widest w.word := by rw [h]
    _ = some w := ErrorValue.ofWord_word w.fits_widest

/-- Above `PINERR` the word of a value that fits is 0. -/
theorem ErrorValue.getLsbD_word_of_fits {v : ErrorValue} {p : Params} (h : v.Fits p) {k : Nat}
    (hk : 16 + p.pinErrW.val ≤ k) : v.word.getLsbD k = false := by
  by_cases hk32 : k < 32
  · have hbit : v.word.getLsbD k = v.pinerr.getLsbD (k - 16) := by
      rw [← v.extract_pinerr, BitVec.getLsbD_extractLsb', decide_eq_true (show k - 16 < 16 by omega),
        Bool.true_and, Nat.add_sub_cancel' (by omega)]
    rw [hbit]
    exact Nat.testBit_lt_two_pow (h.trans_le (Nat.pow_le_pow_right Nat.two_pos (by omega)))
  · exact BitVec.getLsbD_of_ge _ _ (Nat.not_lt.1 hk32)

/-- The error value recorded has no code wider than the port (R38). -/
theorem State.Inv.errinfo_fits {s : State} (h : s.Inv) : s.errinfo.Fits s.params := by
  cases herr : s.errinfo with
  | pin e => exact h.pin_width e herr
  | success | protocol => exact ErrorValue.fits_of_pinerr_zero _ rfl

/-- Settles O48: the words by their fields, the rest by reading the word back. -/
theorem errinfoWordDeterminesTheError : Obligations.ErrinfoWordDeterminesTheError :=
  ⟨rfl, ErrorValue.word_pin, rfl, rfl, rfl,
    fun c => ErrorValue.word_protocol (.crc c) 4#4 rfl (by decide),
    fun o => ErrorValue.word_protocol (.familyCode o) 5#4 rfl (by decide),
    fun o => ErrorValue.word_protocol (.configurationRegister o) 6#4 rfl (by decide),
    fun _ _ => ErrorValue.word_injective.eq_iff, fun _ _ _ => ErrorValue.ofWord_eq_some_iff,
    fun _ _ hinv hk => ErrorValue.getLsbD_word_of_fits hinv.errinfo_fits hk⟩

end Sys2Proof.Machine
end

/-! Every running command ends (R200, R90), obligation O7: the micro-operations still to come are fewer after each step of
the engine that does not end the command. -/
section
namespace Sys2Proof.Machine

/-! ### The micro-operations still to come -/

/-- The number of micro-operations of the running command. -/
def Engine.total (e : Engine) : Nat := e.bytes * e.bits * e.round

/-- The number of micro-operations still to come. -/
def Engine.left (e : Engine) : Nat := e.total - e.pos

theorem Engine.At.pos_lt {e : Engine} (h : e.At) : e.pos < e.total := by
  obtain ⟨hbyte, hbit, hstep⟩ := h
  calc e.pos < (e.byteIdx * e.bits + e.bitIdx) * e.round + e.round := Nat.add_lt_add_left hstep _
    _ = (e.byteIdx * e.bits + (e.bitIdx + 1)) * e.round := (Nat.succ_mul _ _).symm
    _ ≤ (e.byteIdx * e.bits + e.bits) * e.round := Nat.mul_le_mul_right _ (Nat.add_le_add_left hbit _)
    _ = (e.byteIdx + 1) * e.bits * e.round := by rw [Nat.succ_mul]
    _ ≤ e.total := Nat.mul_le_mul_right _ (Nat.mul_le_mul_right _ hbyte)

theorem Engine.Same.total {e e' : Engine} (h : e.Same e') : e'.total = e.total := by
  rw [Engine.total, Engine.total, h.bytes, h.bits, h.round]

theorem Engine.arrive_left (e : Engine) (t : Timing) : (e.arrive t).left = e.left := by
  have hsame := e.arrive_same t
  rw [Engine.left, Engine.left, hsame.total, Engine.pos, Engine.pos, hsame.bits, hsame.round, Engine.arrive_byteIdx,
    Engine.arrive_bitIdx, Engine.arrive_step]

/-- A byte of a command takes at most eight slots of six micro-operations (R150, R160). -/
theorem Engine.bits_mul_round_le (e : Engine) : e.bits * e.round ≤ 48 := by
  cases h : e.cmd <;> simp [Engine.bits, Engine.round, h]

theorem Engine.bytes_of_usesBuffer {e : Engine} (h : usesBuffer e.cmd = true) : e.bytes = e.bufLen.toNat := by
  cases hc : e.cmd <;> simp [usesBuffer, Engine.bytes, hc] at h ⊢

theorem Engine.bytes_le_one {e : Engine} (h : usesBuffer e.cmd = false) : e.bytes ≤ 1 := by
  cases hc : e.cmd <;> simp [usesBuffer, Engine.bytes, hc] at h ⊢

/-- R66, R84: a buffer command has at most as many bytes as `BUF`, any other at most one. -/
theorem EngineInv.bytes_le {s : State} {e : Engine} (h : EngineInv s e) : e.bytes ≤ max 1 s.params.bufSize := by
  cases hbuf : usesBuffer e.cmd with
  | true =>
    rw [Engine.bytes_of_usesBuffer hbuf]
    exact le_max_of_le_right ((Nat.le_add_left _ _).trans (h.fits hbuf))
  | false => exact le_max_of_le_left (Engine.bytes_le_one hbuf)

theorem EngineInv.left_le {s : State} {e : Engine} (h : EngineInv s e) : e.left ≤ 48 * max 1 s.params.bufSize := by
  calc e.left ≤ e.bytes * (e.bits * e.round) := by rw [← Nat.mul_assoc]; exact Nat.sub_le _ _
    _ ≤ max 1 s.params.bufSize * 48 := Nat.mul_le_mul h.bytes_le e.bits_mul_round_le
    _ = 48 * max 1 s.params.bufSize := Nat.mul_comm _ _

/-! ### One step of the engine -/

/-- Whether a byte of `BUF` was written depends on `BUF` alone. -/
theorem Engine.MeetsUnwritten.congr {e : Engine} {s t : State} {i : Nat} (h : e.MeetsUnwritten s i)
    (hbuf : t.buf = s.buf) : e.MeetsUnwritten t i :=
  ⟨h.reads, h.range, by rw [State.readBuf, hbuf]; exact h.unwritten⟩

/-- `t` is `s` one micro-operation of the running command later; an unwritten byte that stops it then was unwritten
before. -/
structure State.OneOpLater (s : State) (e : Engine) (t : State) (e' : Engine) : Prop where
  running : t.engine = some e'
  host : t.host = s.host
  at_or_done : e'.At ∨ e'.Done
  left : e'.left < e.left
  unwritten : ∀ i, e'.MeetsUnwritten t i → e.MeetsUnwritten s i

theorem moveOn_oneOpLater {e : Engine} (s : State) (sh crc : Byte) (n : Nat) (evs : List Event) (low : Bool) (h : e.At) :
    ∃ e', s.OneOpLater e (moveOn { e with sh := sh, crc := crc } (s.afterOps n evs low)) e' := by
  have hsame : e.Same { e with sh := sh, crc := crc } := ⟨rfl, rfl, rfl, rfl⟩
  obtain ⟨e', m, heq, hsame', hpos, hnext, hm⟩ := moveOn_spec (s := s.afterOps n evs low) (h.congr hsame rfl rfl rfl)
  have harr := e'.arrive_same s.timing
  have hall := (hsame.trans hsame').trans harr
  refine ⟨e'.arrive s.timing, by rw [heq]; rfl, by rw [heq]; rfl, ?_, ?_, fun i hi => ?_⟩
  · simpa [Engine.At, Engine.Done, harr.bytes, harr.bits, harr.round] using hpos
  · have hlt := h.pos_lt
    have hnext' : e'.pos = e.pos + 1 := hnext
    rw [Engine.arrive_left, Engine.left, Engine.left, (hsame.trans hsame').total]
    omega
  · obtain ⟨hreads, hrange, hnone⟩ := hi
    rw [hall.cmd] at hreads
    rw [hall.bufAddr, hall.bufLen] at hrange
    have hnot : e.cmd ≠ .rdBytes := fun hc => by rw [hc] at hreads; cases hreads
    have hbuf : m = s.buf := hm.resolve_right fun ⟨hc, _⟩ => hnot hc
    rw [heq, hbuf] at hnone
    exact ⟨hreads, hrange, hnone⟩

/-- Everything a step of the engine can do to the end of the command: stop at an unwritten byte, end, or come nearer. -/
theorem engineStep_progress {e : Engine} (s : State) (h : e.At ∨ e.Done) :
    (∃ i, engineStep e s = .fault (.unwrittenBuf i) ∧ e.MeetsUnwritten s i) ∨
    (∃ t, engineStep e s = .next t ∧ t.busy = false ∧ t.host = s.host) ∨
    ∃ t e', engineStep e s = .next t ∧ s.OneOpLater e t e' := by
  rcases engineStep_cases e s with hfault | ⟨-, heq⟩ | ⟨er, ev, heq, -⟩ | ⟨sh, crc, n, evs, low, heq, hnext, -⟩
  · exact .inl hfault
  · refine .inr (.inl ⟨_, heq, finishCommand_idle e s, ?_⟩)
    obtain ⟨_, _, _, _, _, _, _, hfin, -⟩ := finishCommand_spec e s
    rw [hfin]; rfl
  · exact .inr (.inl ⟨_, heq, rfl, rfl⟩)
  · have hat := h.resolve_right fun hdone => hnext (Engine.next_none_of_done hdone _)
    obtain ⟨e', hlater⟩ := moveOn_oneOpLater s sh crc n evs low hat
    exact .inr (.inr ⟨_, e', heq, hlater⟩)

/-! ### A run of the engine -/

/-- With `host` pending a busy block steps its engine, and `host` stays pending. -/
def LetsEngineRun (host : List HostAction) : Prop :=
  ∀ (s : State) (e : Engine), s.host = host → s.engine = some e → ∃ data, step s = engineStep e (s.withHost host data)

theorem letsEngineRun_nil : LetsEngineRun [] := by
  rintro ⟨⟩ e rfl rfl
  exact ⟨_, rfl⟩

theorem letsEngineRun_poll (rest : List HostAction) : LetsEngineRun (.poll :: rest) := by
  rintro ⟨⟩ e rfl rfl
  exact ⟨_, rfl⟩

/-- How a running command ends: the block is not busy and `host` is pending still, or it stops at a byte that nothing has
written. -/
def State.CommandEnds (s : State) (e : Engine) (host : List HostAction) (o : Out) : Prop :=
  (∃ t, o = .next t ∧ t.busy = false ∧ t.host = host) ∨ ∃ i, o = .fault (.unwrittenBuf i) ∧ e.MeetsUnwritten s i

/-- R200: by the number of micro-operations still to come. -/
theorem run_commandEnds {host : List HostAction} (hrun : LetsEngineRun host) (n : Nat) : ∀ (s : State) (e : Engine),
    s.host = host → s.engine = some e → e.At ∨ e.Done → e.left < n →
    ∃ k ≤ n, s.CommandEnds e host (Host.Core.run Sys2Proof.core k s) := by
  induction n with
  | zero => intro s e _ _ _ hleft; exact absurd hleft (Nat.not_lt_zero _)
  | succ n ih =>
    intro s e hhost he hpos hleft
    obtain ⟨data, hstep⟩ := hrun s e hhost he
    rcases engineStep_progress (s.withHost host data) hpos with ⟨i, heq, hi⟩ | ⟨t, heq, hidle, ht⟩ | ⟨t, e', heq, hlater⟩
    · exact ⟨1, Nat.le_add_left 1 n, .inr ⟨i, run_of_fault (hstep.trans heq), hi.congr rfl⟩⟩
    · exact ⟨1, Nat.le_add_left 1 n, .inl ⟨t, run_of_next (hstep.trans heq), hidle, ht⟩⟩
    · obtain ⟨k, hk, hend⟩ := ih t e' hlater.host hlater.running hlater.at_or_done
        (hlater.left.trans_le (Nat.le_of_lt_succ hleft))
      refine ⟨k + 1, Nat.succ_le_succ hk, ?_⟩
      rw [run_of_next (hstep.trans heq)]
      exact hend.imp_right fun ⟨i, hfault, hi⟩ => ⟨i, hfault, (hlater.unwritten i hi).congr rfl⟩

/-- The engine alone brings the block to not busy, unless the running command stops at a byte nothing has written. -/
theorem State.Inv.run_idle {s : State} (h : s.Inv) {host : List HostAction} (hrun : LetsEngineRun host) :
    ∃ k ≤ 48 * max 1 s.params.bufSize + 1,
      (∃ t, Host.Core.run Sys2Proof.core k { s with host := host } = .next t ∧ t.busy = false ∧ t.host = host) ∨
      (∃ e i, Host.Core.run Sys2Proof.core k { s with host := host } = .fault (.unwrittenBuf i) ∧
        s.engine = some e ∧ e.MeetsUnwritten s i) := by
  rcases Option.eq_none_or_eq_some s.engine with he | ⟨e, he⟩
  · exact ⟨0, Nat.zero_le _, .inl ⟨_, rfl, State.busy_of_idle he, rfl⟩⟩
  · have heng := h.engine e he
    obtain ⟨k, hk, hend⟩ := run_commandEnds hrun _ { s with host := host } e rfl he heng.at_or_done
      (Nat.lt_succ_of_le heng.left_le)
    exact ⟨k, hk, hend.imp_right fun ⟨i, hfault, hi⟩ => ⟨e, i, hfault, he, hi.congr rfl⟩⟩

/-- R90: a poll of the block that is not busy reads its `STATUS` and is the last. -/
theorem step_poll_of_idle {s : State} {rest : List HostAction} (hhost : s.host = .poll :: rest) (hidle : s.busy = false) :
    step s = .next (s.withHost rest s.statusWord) := by
  have hbusy : ¬ State.busy { s with host := rest } = true := (Bool.eq_false_iff.1 hidle :)
  rw [step_poll hhost, pollStatus, if_neg hbusy]
  rfl

/-- Settles O7: the engine ends the command whether the host stands aside or polls, and a poll takes one step more. -/
theorem everyRunningCommandEnds : Obligations.EveryRunningCommandEnds := by
  refine fun s hinv => ⟨?_, fun rest => ?_⟩
  · obtain ⟨k, hk, hend⟩ := hinv.run_idle letsEngineRun_nil
    exact ⟨k, hk, hend.imp_left fun ⟨t, ht, hidle, _⟩ => ⟨t, ht, hidle⟩⟩
  · obtain ⟨k, hk, ⟨t, ht, hidle, hhost⟩ | hfault⟩ := hinv.run_idle (letsEngineRun_poll rest)
    · refine ⟨k + 1, Nat.succ_le_succ hk, .inl ⟨t.withHost rest t.statusWord, ?_, hidle, rfl, rfl⟩⟩
      rw [run_add_of_next 1 ht, run_of_next (step_poll_of_idle hhost hidle)]
      rfl
    · exact ⟨k, Nat.le_succ_of_le hk, .inr hfault⟩

end Sys2Proof.Machine
end

/-! The idle block (R197, R212), obligation O2: the engine's turn is the only thing that would change it. -/
section
namespace Sys2Proof.Machine

/-- R212: with nothing running the engine's turn changes nothing. -/
theorem engineTurn_of_idle {s : State} (hidle : s.engine = none) : engineTurn s = .next s := by
  simp only [engineTurn, hidle]

/-- With no action pending the step is the engine's turn. -/
theorem step_of_no_host {s : State} (hhost : s.host = []) : step s = engineTurn s := by
  simp only [step, hhost]

/-- A host that stands aside gives the step to the engine. -/
theorem step_pass {s : State} {rest : List HostAction} (hhost : s.host = .pass :: rest) :
    step s = engineTurn { s with host := rest } := by
  simp only [step, hhost, hostTurn]

/-- Settles O2: with no action pending, and with the host standing aside, the step is the turn of an idle engine. -/
theorem idleBlockDoesNothingByItself : Obligations.IdleBlockDoesNothingByItself := by
  refine ⟨fun s hidle hhost => ?_, fun s rest hidle hhost => ?_⟩
  · rw [step_of_no_host hhost, engineTurn_of_idle hidle]
  · rw [step_pass hhost]
    exact engineTurn_of_idle hidle

end Sys2Proof.Machine
end

/-! The model time of a command (R230), obligation O46: the completion takes no time, so a command takes the time of the
events it leaves. -/
section
namespace Sys2Proof.Machine

/-! ### The time of the traces (R12, R150, R162) -/

theorem traceTime_flatMap {α : Type} (f : α → List Event) (xs : List α) :
    traceTime (xs.flatMap f) = (xs.map fun x => traceTime (f x)).sum := by
  induction xs with
  | nil => rfl
  | cons x xs ih => rw [List.flatMap_cons, traceTime_append, ih, List.map_cons, List.sum_cons]

/-- R150: a read slot takes the same time whatever it samples. -/
theorem traceTime_readSlotTrace (t : Timing) (v : Bool) : traceTime (readSlotTrace t v) = t.readTime := by
  simp [readSlotTrace, Event.time, Timing.readTime, Nat.add_assoc]

theorem State.traceTime_readSlots (s : State) (m : Nat) : traceTime (s.readSlots m) = m * s.timing.readTime := by
  simp [State.readSlots, traceTime_flatMap, traceTime_readSlotTrace]

theorem traceTime_writeBytesTrace (t : Timing) (data : List Byte) :
    traceTime (writeBytesTrace t data) = (data.map t.writeByteTime).sum := by
  simp only [writeBytesTrace, traceTime_flatMap, traceTime_writeByteTrace]

/-! ### From the outcome of a command to its time -/

/-- R186: the completion takes no time. -/
theorem now_of_exec_eq {i : Instr} {s t u : State} {v : ErrorValue} {r : Byte} {k : Word} {n : Nat}
    (hexec : exec i s = .next t) (heq : exec i s = .next (u.completedWith v r k)) (hnow : u.now = n) : t.now = n := by
  rw [heq] at hexec
  cases hexec
  exact hnow

/-- R230: the CRC commands and `T.PRESET` leave no event, with success or with an error. -/
theorem now_of_no_events {i : Instr} {s t : State}
    (hi : i ∈ [.crcCalc, .crcCheck, .tPreset] ∨ ∃ seed, i = .crcAppend seed)
    (hcause : refusalCauseOf (encode i) s = none) (hexec : exec i s = .next t) : t.now = s.now := by
  obtain ⟨c, hc, rfl⟩ := effect_of_no_cause hcause hexec
  have hnow : (c.apply s).now = s.now + traceTime c.events := rfl
  rw [hnow, hc.events hi, traceTime_nil, Nat.add_zero]

section
variable {s t : State} (hidle : s.engine = none)
include hidle

/-- R230: `INIT` is one release and the preset, and neither takes time. -/
theorem now_of_init (hinit : s.init = false) (hok : (s.answerAt 0).isOk = true) (hexec : exec .init s = .next t) :
    t.now = s.now := by
  have heq := (initConstructsTheDriver s hidle).2 hinit
  rw [PinAnswer.eq_ok_of_isOk hok] at heq
  exact now_of_exec_eq hexec heq rfl

variable (hinit : s.init = true)
include hinit

theorem now_of_setHigh (hok : (s.answerAt 0).isOk = true) (hexec : exec .setHigh s = .next t) : t.now = s.now := by
  have heq := (setHighReleases s hidle).2 hinit
  rw [PinAnswer.eq_ok_of_isOk hok] at heq
  exact now_of_exec_eq hexec heq rfl

theorem now_of_setLow (hok : (s.answerAt 0).isOk = true) (hexec : exec .setLow s = .next t) : t.now = s.now := by
  have heq := (setLowPullsLow s hidle).2 hinit
  rw [PinAnswer.eq_ok_of_isOk hok] at heq
  exact now_of_exec_eq hexec heq rfl

/-- R230: a query takes no time, whatever is made of its sample. -/
theorem now_of_query {i : Instr} (hi : i = .isHigh ∨ i = .isLow) (hok : (s.answerAt 0).isOk = true)
    (hexec : exec i s = .next t) : t.now = s.now := by
  have heq := (queriesReturnTheSample s hidle).2 hinit
  rw [PinAnswer.eq_ok_of_isOk hok] at heq
  obtain ⟨hhigh, hlow⟩ := heq
  rcases hi with rfl | rfl
  · exact now_of_exec_eq hexec hhigh rfl
  · exact now_of_exec_eq hexec hlow rfl

theorem now_of_rdBytes (hfits : s.bufAddr.toNat + s.bufLen.toNat ≤ s.params.bufSize)
    (hok : ∀ q < 24 * s.bufLen.toNat, (s.answerAt q).isOk = true) (hexec : exec .rdBytes s = .next t) :
    t.now = s.now + s.bufLen.toNat * (8 * s.timing.readTime) := by
  obtain ⟨m, heq, -⟩ := readBytesFillsTheRange s hidle hinit hfits hok
  calc t.now = s.now + traceTime (s.readSlots (8 * s.bufLen.toNat)) := now_of_exec_eq hexec heq rfl
    _ = s.now + s.bufLen.toNat * (8 * s.timing.readTime) := by
      rw [s.traceTime_readSlots, Nat.mul_comm 8, Nat.mul_assoc]

/-- U6 (log 4): `WR.BYTES` goes on to its completion only over bytes that were all written. -/
theorem written_of_exec_wrBytes (hfits : s.bufAddr.toNat + s.bufLen.toNat ≤ s.params.bufSize)
    (hok : ∀ q < 16 * s.bufLen.toNat, (s.answerAt q).isOk = true) (hexec : exec .wrBytes s = .next t) (j : Nat) :
    j < s.bufLen.toNat → s.readBuf (s.bufAddr.toNat + j) ≠ none := by
  induction j using Nat.strong_induction_on with
  | _ j ih =>
    intro hj hnone
    obtain ⟨-, -, -, hstop⟩ := commandsStopAtAnUnwrittenByte s j 0#8 hidle hfits hj (fun k hk => ih k hk (hk.trans hj))
      hnone
    rw [hstop hinit fun q hq => hok q (by omega)] at hexec
    cases hexec

theorem now_of_wrBytes (hfits : s.bufAddr.toNat + s.bufLen.toNat ≤ s.params.bufSize)
    (hok : ∀ q < 16 * s.bufLen.toNat, (s.answerAt q).isOk = true) (hexec : exec .wrBytes s = .next t) :
    t.now = s.now + ((List.range s.bufLen.toNat).map fun j =>
      s.timing.writeByteTime ((s.readBuf (s.bufAddr.toNat + j)).getD 0#8)).sum := by
  obtain ⟨data, hlen, hread⟩ := exists_data_of_written (written_of_exec_wrBytes hidle hinit hfits hok hexec)
  have hdata : data = (List.range s.bufLen.toNat).map fun j => (s.readBuf (s.bufAddr.toNat + j)).getD 0#8 :=
    List.ext_getElem (by simp [hlen]) fun j hj _ => by simp [State.readBuf, hread j hj]
  have heq := writeBytesSendsTheRange s data hidle hinit ⟨hlen, hfits, hread⟩ (by rwa [hlen])
  calc t.now = s.now + traceTime (writeBitsTrace s.timing (bitsOfBytes data)) := now_of_exec_eq hexec heq rfl
    _ = s.now + (data.map s.timing.writeByteTime).sum := by
      rw [writeBitsTrace_bitsOfBytes, traceTime_writeBytesTrace]
    _ = _ := by rw [hdata, List.map_map]; rfl

end

/-! ### The obligation -/

/-- Settles O46, command by command: the checks of R86 give what the outcome of each needs, and the outcome its time. -/
theorem commandsTakeTheSumOfTheirWaits : Obligations.CommandsTakeTheSumOfTheirWaits := by
  intro s t i hcause hok hexec
  obtain ⟨hidle, hpresent, habsent, hfits⟩ := checks_of_accepted (refusalCauseOf_encode i s ▸ hcause)
  cases i with
  | crcCalc | crcCheck | tPreset => exact now_of_no_events (.inl (by simp)) hcause hexec
  | crcAppend seed => exact now_of_no_events (.inr ⟨seed, rfl⟩) hcause hexec
  | init => exact now_of_init hidle (habsent rfl) (hok 0 Nat.one_pos) hexec
  | drop => exact now_of_exec_eq hexec ((dropReleasesTheLine s hidle).2 (hpresent rfl)) rfl
  | setHigh => exact now_of_setHigh hidle (hpresent rfl) (hok 0 Nat.one_pos) hexec
  | setLow => exact now_of_setLow hidle (hpresent rfl) (hok 0 Nat.one_pos) hexec
  | isHigh => exact now_of_query hidle (hpresent rfl) (.inl rfl) (hok 0 Nat.one_pos) hexec
  | isLow => exact now_of_query hidle (hpresent rfl) (.inr rfl) (hok 0 Nat.one_pos) hexec
  | delay =>
    obtain ⟨heq, hnow⟩ := (delayWaitsArg s hidle).2 (hpresent rfl)
    exact now_of_exec_eq hexec heq hnow
  | rdBit =>
    exact now_of_exec_eq hexec (readSlotReturnsTheSample s hidle (hpresent rfl) hok)
      (congrArg (s.now + ·) (traceTime_readSlotTrace s.timing _))
  | wrBit b =>
    have hnow := now_of_exec_eq hexec (exec_wrBit_ok b hidle (hpresent rfl) hok)
      (congrArg (s.now + ·) (traceTime_writeSlotTrace s.timing b))
    cases b <;> exact hnow
  | rdByte =>
    obtain ⟨_, -, heq⟩ := readByteCollectsLsbFirst s hidle (hpresent rfl) hok
    exact now_of_exec_eq hexec heq (congrArg (s.now + ·) (s.traceTime_readSlots 8))
  | wrByte x =>
    exact now_of_exec_eq hexec (exec_wrByte_ok x hidle (hpresent rfl) hok)
      (congrArg (s.now + ·) (traceTime_writeByteTrace s.timing x))
  | rdBytes => exact now_of_rdBytes hidle (hpresent rfl) (hfits rfl) hok hexec
  | wrBytes => exact now_of_wrBytes hidle (hpresent rfl) (hfits rfl) hok hexec

end Sys2Proof.Machine
end
